-- ==== Sys2Proof/Word.lean ====
section
/-! DEFINITION. The widths of the machine: a 32-bit word, an 8-bit byte (R6, R61), a 4-bit register number
(R25) and the 24-bit word address that the program counter is (R28). -/

namespace Sys2Proof

/-- A 32-bit register, data word or data byte address (R6, R60). -/
abbrev Word := BitVec 32

/-- The unit of addressing (R61). -/
abbrev Byte := BitVec 8

/-- A register field of an instruction: 0 to 15, where 15 is R15 (R25). -/
abbrev RegNum := BitVec 4

/-- A word address of program space: bits 25:2 of an instruction's byte address (R28). Sums of it are modulo
2^24, which is byte arithmetic modulo 2^26 (R31). -/
abbrev PcWord := BitVec 24

end Sys2Proof
end

