-- ==== Sys2Proof/Config.lean ====
section
/-! DEFINITION. What the platform fixes (R7), what an unwritten byte reads as, and the free values (ANY32, ANYBIT of R13). -/

namespace Sys2Proof.Config

/-- `UNALIGNED_SUPPORT` (R7): external hardware performs the double access of an unaligned word. Decided true by D1. -/
def unalignedSupport : Bool := true

/-- `FIRQ_ENTRY_SETS_F` (R7, R420): taking a FIRQ sets F as well as I. Decided true by D8. -/
def firqEntrySetsF : Bool := true

/-- The treatments of an unallocated word that a platform could choose (R119). -/
inductive UnallocPolicy where
  /-- The word has no meaning and the model stops by name. -/
  | refuse
  /-- The word takes the undefined instruction trap, one of the two behaviours R119 names. -/
  | undefinedTrap
  deriving DecidableEq, Repr

/-- `UNALLOC_POLICY` (R7, R119, R326). Decided refuse by D11. -/
def unallocPolicy : UnallocPolicy := .refuse

/-- What a byte of memory that nothing has written reads as. DESIGN CHOICE, unsafe (log entry 3): R46 leaves the
contents of memory at power-up to the platform. -/
def unwrittenByte : Byte := 0#8

/-- What a read cycle gives at an address without memory, by the number of instructions begun: the spec leaves it to the platform
(S13 of 93, R63). It has no body: nothing is provable of its value (log entry 3). -/
opaque absentByte : Nat → Word → Byte

/-- `ANY32` (R13): the free 32-bit value of the n-th draw. It has no body: nothing is provable of its value (log entry 4). -/
opaque anyWord : Nat → Word

/-- `ANYBIT` (R13): the free bit of the n-th draw. It has no body: nothing is provable of its value (log entry 4). -/
opaque anyBit : Nat → Bool

end Sys2Proof.Config
end

