-- ==== Sys2Proof/Syntax.lean ====
section
/-! DEFINITION. The instructions: one constructor of `Instr` for each row of spec/opcode_table.json, over typed operand
fields. Every instruction carries its condition (R101). -/

namespace Sys2Proof

/-- The sixteen conditions of bits 31:28 (R140). -/
inductive Cond where
  | eq | ne | cs | cc | mi | pl | vs | vc | hi | ls | ge | lt | gt | le | al | nv
  deriving DecidableEq, Repr

/-- The four shift types of bits 6:5 (R107). -/
inductive ShiftKind where
  | lsl | lsr | asr | ror
  deriving DecidableEq, Repr

/-- Operand 2, immediate form (R106): an 8-bit constant and the 4-bit rotate field. -/
structure ImmOp where
  rotate : BitVec 4
  imm8   : BitVec 8
  deriving DecidableEq, Repr

/-- Operand 2, register with the shift amount in the instruction (R107 (a)); also the register offset of a single
data transfer (R109). -/
structure RegOp where
  amount : BitVec 5
  kind   : ShiftKind
  rm     : RegNum
  deriving DecidableEq, Repr

/-- Operand 2, register shifted by the low byte of another register (R107 (b)). -/
structure RegShiftOp where
  rs   : RegNum
  kind : ShiftKind
  rm   : RegNum
  deriving DecidableEq, Repr

/-- A result-producing data processing instruction (R104); `op2` is one of the three operand 2 forms. -/
structure Dp (α : Type) where
  cond : Cond
  s    : Bool
  rn   : RegNum
  rd   : RegNum
  op2  : α
  deriving DecidableEq, Repr

/-- TST, TEQ, CMP or CMN with S = 1 (R105, R123); `rd` matters only when it is 15 (R173). -/
structure Test (α : Type) where
  cond : Cond
  rn   : RegNum
  rd   : RegNum
  op2  : α
  deriving DecidableEq, Repr

/-- A word of a row to which the spec gives no fields beyond the condition: bits 27:0 as they stand. -/
structure Raw where
  cond : Cond
  bits : BitVec 28
  deriving DecidableEq, Repr

/-- Multiply and multiply-accumulate (R108). -/
structure Mul where
  cond : Cond
  s    : Bool
  rd   : RegNum
  rn   : RegNum
  rs   : RegNum
  rm   : RegNum
  deriving DecidableEq, Repr

/-- A single data transfer (R109); `offset` is a 12-bit immediate or a shifted register. -/
structure Sdt (α : Type) where
  cond   : Cond
  p      : Bool
  u      : Bool
  w      : Bool
  rn     : RegNum
  rd     : RegNum
  offset : α
  deriving DecidableEq, Repr

/-- A block data transfer (R110). -/
structure Bdt where
  cond : Cond
  p    : Bool
  u    : Bool
  s    : Bool
  w    : Bool
  rn   : RegNum
  list : BitVec 16
  deriving DecidableEq, Repr

/-- A branch (R111). -/
structure Br where
  cond     : Cond
  offset24 : BitVec 24
  deriving DecidableEq, Repr

/-- A coprocessor data transfer (R112). -/
structure Cdt where
  cond    : Cond
  p       : Bool
  u       : Bool
  n       : Bool
  w       : Bool
  rn      : RegNum
  crd     : BitVec 4
  cpNum   : BitVec 4
  offset8 : BitVec 8
  deriving DecidableEq, Repr

/-- A coprocessor data operation (R113). -/
structure Cdo where
  cond  : Cond
  cpOpc : BitVec 4
  crn   : BitVec 4
  crd   : BitVec 4
  cpNum : BitVec 4
  cp    : BitVec 3
  crm   : BitVec 4
  deriving DecidableEq, Repr

/-- A coprocessor register transfer (R114); `rd` is an APRM register. -/
structure Crt where
  cond  : Cond
  cpOpc : BitVec 3
  crn   : BitVec 4
  rd    : RegNum
  cpNum : BitVec 4
  cp    : BitVec 3
  crm   : BitVec 4
  deriving DecidableEq, Repr

/-- A software interrupt (R115). -/
structure Swi where
  cond    : Cond
  comment : BitVec 24
  deriving DecidableEq, Repr

/-- The instructions, in the order of the opcode table. -/
inductive Instr where
  | andImm (o : Dp ImmOp)
  | andReg (o : Dp RegOp)
  | andRegShift (o : Dp RegShiftOp)
  | eorImm (o : Dp ImmOp)
  | eorReg (o : Dp RegOp)
  | eorRegShift (o : Dp RegShiftOp)
  | subImm (o : Dp ImmOp)
  | subReg (o : Dp RegOp)
  | subRegShift (o : Dp RegShiftOp)
  | rsbImm (o : Dp ImmOp)
  | rsbReg (o : Dp RegOp)
  | rsbRegShift (o : Dp RegShiftOp)
  | addImm (o : Dp ImmOp)
  | addReg (o : Dp RegOp)
  | addRegShift (o : Dp RegShiftOp)
  | adcImm (o : Dp ImmOp)
  | adcReg (o : Dp RegOp)
  | adcRegShift (o : Dp RegShiftOp)
  | sbcImm (o : Dp ImmOp)
  | sbcReg (o : Dp RegOp)
  | sbcRegShift (o : Dp RegShiftOp)
  | rscImm (o : Dp ImmOp)
  | rscReg (o : Dp RegOp)
  | rscRegShift (o : Dp RegShiftOp)
  | tstImm (o : Test ImmOp)
  | tstReg (o : Test RegOp)
  | tstRegShift (o : Test RegShiftOp)
  | teqImm (o : Test ImmOp)
  | teqReg (o : Test RegOp)
  | teqRegShift (o : Test RegShiftOp)
  | cmpImm (o : Test ImmOp)
  | cmpReg (o : Test RegOp)
  | cmpRegShift (o : Test RegShiftOp)
  | cmnImm (o : Test ImmOp)
  | cmnReg (o : Test RegOp)
  | cmnRegShift (o : Test RegShiftOp)
  | orrImm (o : Dp ImmOp)
  | orrReg (o : Dp RegOp)
  | orrRegShift (o : Dp RegShiftOp)
  | movImm (o : Dp ImmOp)
  | movReg (o : Dp RegOp)
  | movRegShift (o : Dp RegShiftOp)
  | bicImm (o : Dp ImmOp)
  | bicReg (o : Dp RegOp)
  | bicRegShift (o : Dp RegShiftOp)
  | mvnImm (o : Dp ImmOp)
  | mvnReg (o : Dp RegOp)
  | mvnRegShift (o : Dp RegShiftOp)
  | unspecifiedTestS0Imm (o : Raw)
  | unspecifiedTestS0Reg (o : Raw)
  | unspecifiedTestS0RegShift (o : Raw)
  | mul (o : Mul)
  | mla (o : Mul)
  | undefined1 (o : Raw)
  | unallocatedA (o : Raw)
  | unallocatedB (o : Raw)
  | unallocatedC (o : Raw)
  | unallocatedD (o : Raw)
  | ldrImm (o : Sdt (BitVec 12))
  | ldrReg (o : Sdt RegOp)
  | ldrbImm (o : Sdt (BitVec 12))
  | ldrbReg (o : Sdt RegOp)
  | strImm (o : Sdt (BitVec 12))
  | strReg (o : Sdt RegOp)
  | strbImm (o : Sdt (BitVec 12))
  | strbReg (o : Sdt RegOp)
  | undefined2 (o : Raw)
  | ldm (o : Bdt)
  | stm (o : Bdt)
  | b (o : Br)
  | bl (o : Br)
  | ldc (o : Cdt)
  | stc (o : Cdt)
  | cdp (o : Cdo)
  | mcr (o : Crt)
  | mrc (o : Crt)
  | swi (o : Swi)
  deriving DecidableEq, Repr

/-- The condition field of an instruction (R101). -/
def Instr.cond : Instr → Cond
  | .andImm o | .eorImm o | .subImm o | .rsbImm o | .addImm o | .adcImm o
  | .sbcImm o | .rscImm o | .orrImm o | .movImm o | .bicImm o | .mvnImm o => o.cond
  | .andReg o | .eorReg o | .subReg o | .rsbReg o | .addReg o | .adcReg o
  | .sbcReg o | .rscReg o | .orrReg o | .movReg o | .bicReg o | .mvnReg o => o.cond
  | .andRegShift o | .eorRegShift o | .subRegShift o | .rsbRegShift o | .addRegShift o | .adcRegShift o
  | .sbcRegShift o | .rscRegShift o | .orrRegShift o | .movRegShift o | .bicRegShift o | .mvnRegShift o => o.cond
  | .tstImm o | .teqImm o | .cmpImm o | .cmnImm o => o.cond
  | .tstReg o | .teqReg o | .cmpReg o | .cmnReg o => o.cond
  | .tstRegShift o | .teqRegShift o | .cmpRegShift o | .cmnRegShift o => o.cond
  | .unspecifiedTestS0Imm o | .unspecifiedTestS0Reg o | .unspecifiedTestS0RegShift o | .undefined1 o | .unallocatedA o | .unallocatedB o
  | .unallocatedC o | .unallocatedD o | .undefined2 o => o.cond
  | .mul o | .mla o => o.cond
  | .ldrImm o | .ldrbImm o | .strImm o | .strbImm o => o.cond
  | .ldrReg o | .ldrbReg o | .strReg o | .strbReg o => o.cond
  | .ldm o | .stm o => o.cond
  | .b o | .bl o => o.cond
  | .ldc o | .stc o => o.cond
  | .cdp o => o.cond
  | .mcr o | .mrc o => o.cond
  | .swi o => o.cond

end Sys2Proof
end

