-- ==== Sys2Proof/WellFormed.lean ====
section
/-! DEFINITION. When an instruction is well formed: the operand types already hold every field to its width, so what
remains is that the bits of a row without fields lie in that row's region of the opcode table. -/

namespace Sys2Proof

/-- The bits agree with the row's pattern wherever its mask is set. -/
def Raw.fits (mask pattern : BitVec 28) (o : Raw) : Bool := o.bits &&& mask == pattern

/-- Each `Raw` row holds the bits of its own region (R118, R119, R123). -/
def Instr.wellFormed : Instr → Bool
  | .unspecifiedTestS0Imm o => o.fits 0xF900000#28 0x3000000#28
  | .unspecifiedTestS0Reg o => o.fits 0xF900010#28 0x1000000#28
  | .unspecifiedTestS0RegShift o => o.fits 0xF900090#28 0x1000010#28
  | .undefined1 o => o.fits 0xF000090#28 0x1000090#28
  | .unallocatedA o => o.fits 0xF800090#28 0x0800090#28
  | .unallocatedB o => o.fits 0xFC00090#28 0x0400090#28
  | .unallocatedC o => o.fits 0xFC000D0#28 0x00000D0#28
  | .unallocatedD o => o.fits 0xFC000F0#28 0x00000B0#28
  | .undefined2 o => o.fits 0xE000010#28 0x6000010#28
  | .andImm _ | .andReg _ | .andRegShift _ | .eorImm _ | .eorReg _ | .eorRegShift _
  | .subImm _ | .subReg _ | .subRegShift _ | .rsbImm _ | .rsbReg _ | .rsbRegShift _
  | .addImm _ | .addReg _ | .addRegShift _ | .adcImm _ | .adcReg _ | .adcRegShift _
  | .sbcImm _ | .sbcReg _ | .sbcRegShift _ | .rscImm _ | .rscReg _ | .rscRegShift _
  | .tstImm _ | .tstReg _ | .tstRegShift _ | .teqImm _ | .teqReg _ | .teqRegShift _
  | .cmpImm _ | .cmpReg _ | .cmpRegShift _ | .cmnImm _ | .cmnReg _ | .cmnRegShift _
  | .orrImm _ | .orrReg _ | .orrRegShift _ | .movImm _ | .movReg _ | .movRegShift _
  | .bicImm _ | .bicReg _ | .bicRegShift _ | .mvnImm _ | .mvnReg _ | .mvnRegShift _
  | .mul _ | .mla _ | .ldrImm _ | .ldrReg _ | .ldrbImm _ | .ldrbReg _
  | .strImm _ | .strReg _ | .strbImm _ | .strbReg _ | .ldm _ | .stm _
  | .b _ | .bl _ | .ldc _ | .stc _ | .cdp _ | .mcr _
  | .mrc _ | .swi _ => true

/-- The decidable predicate the statements use. -/
abbrev WellFormed (i : Instr) : Prop := i.wellFormed = true

end Sys2Proof
end

