-- ==== Sys2Proof/Decode.lean ====
section
/-! DEFINITION. Decoding a word by the order of R103, and encoding an instruction by the field tables of R102 to R115. The table
is total over bits 27:0 (R123), so every word decodes; only bytes that are too few to make a word are rejected, by name. -/

namespace Sys2Proof

/-- The condition codes of bits 31:28 (R140). -/
def Cond.bits : Cond → BitVec 4
  | .eq => 0 | .ne => 1 | .cs => 2 | .cc => 3 | .mi => 4 | .pl => 5 | .vs => 6 | .vc => 7
  | .hi => 8 | .ls => 9 | .ge => 10 | .lt => 11 | .gt => 12 | .le => 13 | .al => 14 | .nv => 15

/-- The condition a 4-bit code names (R140). -/
def Cond.ofBits (b : BitVec 4) : Cond :=
  match b with
  | 0 => .eq | 1 => .ne | 2 => .cs | 3 => .cc | 4 => .mi | 5 => .pl | 6 => .vs | 7 => .vc
  | 8 => .hi | 9 => .ls | 10 => .ge | 11 => .lt | 12 => .gt | 13 => .le | 14 => .al | _ => .nv

/-- The shift type codes of bits 6:5 (R107, D10). -/
def ShiftKind.bits : ShiftKind → BitVec 2
  | .lsl => 0 | .lsr => 1 | .asr => 2 | .ror => 3

/-- The shift type a 2-bit code names (R107). -/
def ShiftKind.ofBits (b : BitVec 2) : ShiftKind :=
  match b with
  | 0 => .lsl | 1 => .lsr | 2 => .asr | _ => .ror

/-- One bit of a word as a flag. -/
def bitAt (w : Word) (i : Nat) : Bool := w.getLsbD i

/-- The slice `w[lo+len-1:lo]` (R8). -/
def field (w : Word) (lo len : Nat) : BitVec len := w.extractLsb' lo len

/-- Bits 31:28 (R101). -/
def condOf (w : Word) : Cond := .ofBits (field w 28 4)

/-- Bits 11:0 as the immediate operand 2 (R106). -/
def immOpOf (w : Word) : ImmOp := ⟨field w 8 4, field w 0 8⟩

/-- Bits 11:0 as a register shifted by a constant (R107 (a)). -/
def regOpOf (w : Word) : RegOp := ⟨field w 7 5, .ofBits (field w 5 2), field w 0 4⟩

/-- Bits 11:0 as a register shifted by a register (R107 (b)). -/
def regShiftOpOf (w : Word) : RegShiftOp := ⟨field w 8 4, .ofBits (field w 5 2), field w 0 4⟩

/-- The DP fields around operand 2 (R104). -/
def dpOf {α : Type} (op2 : Word → α) (w : Word) : Dp α :=
  ⟨condOf w, bitAt w 20, field w 16 4, field w 12 4, op2 w⟩

/-- The DP fields of a test instruction around operand 2 (R104). -/
def testOf {α : Type} (op2 : Word → α) (w : Word) : Test α := ⟨condOf w, field w 16 4, field w 12 4, op2 w⟩

/-- A word kept whole below its condition. -/
def rawOf (w : Word) : Raw := ⟨condOf w, field w 0 28⟩

/-- The MUL fields (R108): Rd and Rn change places. -/
def mulOf (w : Word) : Mul := ⟨condOf w, bitAt w 20, field w 16 4, field w 12 4, field w 8 4, field w 0 4⟩

/-- The SDT fields around the offset (R109). -/
def sdtOf {α : Type} (offset : Word → α) (w : Word) : Sdt α :=
  ⟨condOf w, bitAt w 24, bitAt w 23, bitAt w 21, field w 16 4, field w 12 4, offset w⟩

/-- The BDT fields (R110). -/
def bdtOf (w : Word) : Bdt :=
  ⟨condOf w, bitAt w 24, bitAt w 23, bitAt w 22, bitAt w 21, field w 16 4, field w 0 16⟩

/-- The BR fields (R111). -/
def brOf (w : Word) : Br := ⟨condOf w, field w 0 24⟩

/-- The CDT fields (R112). -/
def cdtOf (w : Word) : Cdt :=
  ⟨condOf w, bitAt w 24, bitAt w 23, bitAt w 22, bitAt w 21, field w 16 4, field w 12 4, field w 8 4, field w 0 8⟩

/-- The CDO fields (R113). -/
def cdoOf (w : Word) : Cdo :=
  ⟨condOf w, field w 20 4, field w 16 4, field w 12 4, field w 8 4, field w 5 3, field w 0 4⟩

/-- The CRT fields (R114). -/
def crtOf (w : Word) : Crt :=
  ⟨condOf w, field w 21 3, field w 16 4, field w 12 4, field w 8 4, field w 5 3, field w 0 4⟩

/-- The SWI fields (R115). -/
def swiOf (w : Word) : Swi := ⟨condOf w, field w 0 24⟩

/-- The DP row of the opcode in bits 24:21 (R105), immediate operand 2; a test opcode with S = 0 is the unspecified row (R123). -/
def decodeDpImm (w : Word) : Instr :=
  match field w 21 4 with
  | 0 => .andImm (dpOf immOpOf w)
  | 1 => .eorImm (dpOf immOpOf w)
  | 2 => .subImm (dpOf immOpOf w)
  | 3 => .rsbImm (dpOf immOpOf w)
  | 4 => .addImm (dpOf immOpOf w)
  | 5 => .adcImm (dpOf immOpOf w)
  | 6 => .sbcImm (dpOf immOpOf w)
  | 7 => .rscImm (dpOf immOpOf w)
  | 8 => if bitAt w 20 then .tstImm (testOf immOpOf w) else .unspecifiedTestS0Imm (rawOf w)
  | 9 => if bitAt w 20 then .teqImm (testOf immOpOf w) else .unspecifiedTestS0Imm (rawOf w)
  | 10 => if bitAt w 20 then .cmpImm (testOf immOpOf w) else .unspecifiedTestS0Imm (rawOf w)
  | 11 => if bitAt w 20 then .cmnImm (testOf immOpOf w) else .unspecifiedTestS0Imm (rawOf w)
  | 12 => .orrImm (dpOf immOpOf w)
  | 13 => .movImm (dpOf immOpOf w)
  | 14 => .bicImm (dpOf immOpOf w)
  | _ => .mvnImm (dpOf immOpOf w)

/-- The DP row of the opcode in bits 24:21 (R105), register operand 2, amount in the instruction; a test opcode with S = 0 is the unspecified row (R123). -/
def decodeDpReg (w : Word) : Instr :=
  match field w 21 4 with
  | 0 => .andReg (dpOf regOpOf w)
  | 1 => .eorReg (dpOf regOpOf w)
  | 2 => .subReg (dpOf regOpOf w)
  | 3 => .rsbReg (dpOf regOpOf w)
  | 4 => .addReg (dpOf regOpOf w)
  | 5 => .adcReg (dpOf regOpOf w)
  | 6 => .sbcReg (dpOf regOpOf w)
  | 7 => .rscReg (dpOf regOpOf w)
  | 8 => if bitAt w 20 then .tstReg (testOf regOpOf w) else .unspecifiedTestS0Reg (rawOf w)
  | 9 => if bitAt w 20 then .teqReg (testOf regOpOf w) else .unspecifiedTestS0Reg (rawOf w)
  | 10 => if bitAt w 20 then .cmpReg (testOf regOpOf w) else .unspecifiedTestS0Reg (rawOf w)
  | 11 => if bitAt w 20 then .cmnReg (testOf regOpOf w) else .unspecifiedTestS0Reg (rawOf w)
  | 12 => .orrReg (dpOf regOpOf w)
  | 13 => .movReg (dpOf regOpOf w)
  | 14 => .bicReg (dpOf regOpOf w)
  | _ => .mvnReg (dpOf regOpOf w)

/-- The DP row of the opcode in bits 24:21 (R105), register operand 2, amount in a register; a test opcode with S = 0 is the unspecified row (R123). -/
def decodeDpRegShift (w : Word) : Instr :=
  match field w 21 4 with
  | 0 => .andRegShift (dpOf regShiftOpOf w)
  | 1 => .eorRegShift (dpOf regShiftOpOf w)
  | 2 => .subRegShift (dpOf regShiftOpOf w)
  | 3 => .rsbRegShift (dpOf regShiftOpOf w)
  | 4 => .addRegShift (dpOf regShiftOpOf w)
  | 5 => .adcRegShift (dpOf regShiftOpOf w)
  | 6 => .sbcRegShift (dpOf regShiftOpOf w)
  | 7 => .rscRegShift (dpOf regShiftOpOf w)
  | 8 => if bitAt w 20 then .tstRegShift (testOf regShiftOpOf w) else .unspecifiedTestS0RegShift (rawOf w)
  | 9 => if bitAt w 20 then .teqRegShift (testOf regShiftOpOf w) else .unspecifiedTestS0RegShift (rawOf w)
  | 10 => if bitAt w 20 then .cmpRegShift (testOf regShiftOpOf w) else .unspecifiedTestS0RegShift (rawOf w)
  | 11 => if bitAt w 20 then .cmnRegShift (testOf regShiftOpOf w) else .unspecifiedTestS0RegShift (rawOf w)
  | 12 => .orrRegShift (dpOf regShiftOpOf w)
  | 13 => .movRegShift (dpOf regShiftOpOf w)
  | 14 => .bicRegShift (dpOf regShiftOpOf w)
  | _ => .mvnRegShift (dpOf regShiftOpOf w)

/-- The words with bits 27:25 = 000 and bits 7 and 4 set (R103): UND1, the multiplies, and the unallocated words, whose four
rows are those of the opcode table (R123). -/
def decodeMulSpace (w : Word) : Instr :=
  if bitAt w 24 then .undefined1 (rawOf w)
  else if bitAt w 23 then .unallocatedA (rawOf w)
  else if bitAt w 22 then .unallocatedB (rawOf w)
  else if bitAt w 6 then .unallocatedC (rawOf w)
  else if bitAt w 5 then .unallocatedD (rawOf w)
  else if bitAt w 21 then .mla (mulOf w)
  else .mul (mulOf w)

/-- The words with bits 27:26 = 00 (R103). -/
def decodeDpSpace (w : Word) : Instr :=
  if bitAt w 25 then decodeDpImm w
  else if bitAt w 4 then
    (if bitAt w 7 then decodeMulSpace w else decodeDpRegShift w)
  else decodeDpReg w

/-- The words with bits 27:26 = 01 (R103): UND2 before the single data transfers. -/
def decodeSdtSpace (w : Word) : Instr :=
  if bitAt w 25 then
    if bitAt w 4 then .undefined2 (rawOf w)
    else match bitAt w 20, bitAt w 22 with
      | true, false  => .ldrReg (sdtOf regOpOf w)
      | true, true   => .ldrbReg (sdtOf regOpOf w)
      | false, false => .strReg (sdtOf regOpOf w)
      | false, true  => .strbReg (sdtOf regOpOf w)
  else match bitAt w 20, bitAt w 22 with
    | true, false  => .ldrImm (sdtOf (field · 0 12) w)
    | true, true   => .ldrbImm (sdtOf (field · 0 12) w)
    | false, false => .strImm (sdtOf (field · 0 12) w)
    | false, true  => .strbImm (sdtOf (field · 0 12) w)

/-- The words with bits 27:26 = 10 (R103). -/
def decodeBlockSpace (w : Word) : Instr :=
  if bitAt w 25 then (if bitAt w 24 then .bl (brOf w) else .b (brOf w))
  else if bitAt w 20 then .ldm (bdtOf w) else .stm (bdtOf w)

/-- The words with bits 27:26 = 11 (R103). -/
def decodeCoprocSpace (w : Word) : Instr :=
  if bitAt w 25 then
    if bitAt w 24 then .swi (swiOf w)
    else if bitAt w 4 then (if bitAt w 20 then .mcr (crtOf w) else .mrc (crtOf w))
    else .cdp (cdoOf w)
  else if bitAt w 20 then .ldc (cdtOf w) else .stc (cdtOf w)

/-- The instruction a 32-bit word is (R103). -/
def decodeWord (w : Word) : Instr :=
  match bitAt w 27, bitAt w 26 with
  | false, false => decodeDpSpace w
  | false, true  => decodeSdtSpace w
  | true, false  => decodeBlockSpace w
  | true, true   => decodeCoprocSpace w

/-- Why bytes are no instruction. -/
inductive DecodeError where
  /-- Fewer than the four bytes of a word (R100). -/
  | truncated
  deriving DecidableEq, Repr

/-- Four bytes as the big-endian word they store (R64, R65). -/
def wordOfBytes (b0 b1 b2 b3 : Byte) : Word := b0 ++ b1 ++ b2 ++ b3

/-- The four bytes of a word, the most significant at the lowest address (R64, R70). -/
def bytesOfWord (w : Word) : List Byte := [field w 24 8, field w 16 8, field w 8 8, field w 0 8]

/-- The instruction at the head of a byte string, and the rest (R100). -/
def decode : List Byte → Except DecodeError (Instr × List Byte)
  | b0 :: b1 :: b2 :: b3 :: rest => .ok (decodeWord (wordOfBytes b0 b1 b2 b3), rest)
  | _ => .error .truncated

/-- The instruction the decoder reads from the opcode table's bits `w` (bit 0 the least significant), laid out as the
hardware stores a word; none where the bits are no 32-bit instruction. -/
def decodeTableWord (nbits w : Nat) : Option Instr :=
  if nbits ≤ 32 ∧ w < 2 ^ nbits then
    match decode (bytesOfWord (BitVec.ofNat 32 w)) with
    | .ok (i, _) => some i
    | .error _ => none
  else none

/-! The encoder, from the same field tables. -/

/-- A flag as one bit. -/
def flag (b : Bool) : BitVec 1 := BitVec.ofBool b

/-- Bits 11:0 of the immediate operand 2 (R106). -/
def ImmOp.bits (o : ImmOp) : BitVec 12 := o.rotate ++ o.imm8

/-- Bits 11:0 of a register shifted by a constant: bit 4 is 0 (R107 (a)). -/
def RegOp.bits (o : RegOp) : BitVec 12 := o.amount ++ o.kind.bits ++ 0#1 ++ o.rm

/-- Bits 11:0 of a register shifted by a register: bit 7 is 0 and bit 4 is 1 (R107 (b)). -/
def RegShiftOp.bits (o : RegShiftOp) : BitVec 12 := o.rs ++ 0#1 ++ o.kind.bits ++ 1#1 ++ o.rm

/-- Format DP (R102, R104): `imm` is bit 25. -/
def encodeDp {α : Type} (imm : BitVec 1) (opcode : BitVec 4) (op2 : α → BitVec 12) (o : Dp α) : Word :=
  o.cond.bits ++ 0b00#2 ++ imm ++ opcode ++ flag o.s ++ o.rn ++ o.rd ++ op2 o.op2

/-- Format DP of a test, S = 1 (R102, R104). -/
def encodeTest {α : Type} (imm : BitVec 1) (opcode : BitVec 4) (op2 : α → BitVec 12) (o : Test α) : Word :=
  o.cond.bits ++ 0b00#2 ++ imm ++ opcode ++ 1#1 ++ o.rn ++ o.rd ++ op2 o.op2

/-- A word kept whole below its condition. -/
def encodeRaw (o : Raw) : Word := o.cond.bits ++ o.bits

/-- Format MUL (R102, R108): `acc` is bit 21. -/
def encodeMul (acc : BitVec 1) (o : Mul) : Word :=
  o.cond.bits ++ 0b000000#6 ++ acc ++ flag o.s ++ o.rd ++ o.rn ++ o.rs ++ 0b1001#4 ++ o.rm

/-- Format SDT (R102, R109): `reg` is bit 25, `byte` bit 22, `load` bit 20. -/
def encodeSdt {α : Type} (reg byte load : BitVec 1) (offset : α → BitVec 12) (o : Sdt α) : Word :=
  o.cond.bits ++ 0b01#2 ++ reg ++ flag o.p ++ flag o.u ++ byte ++ flag o.w ++ load ++ o.rn ++ o.rd ++ offset o.offset

/-- Format BDT (R102, R110): `load` is bit 20. -/
def encodeBdt (load : BitVec 1) (o : Bdt) : Word :=
  o.cond.bits ++ 0b100#3 ++ flag o.p ++ flag o.u ++ flag o.s ++ flag o.w ++ load ++ o.rn ++ o.list

/-- Format BR (R102, R111): `link` is bit 24. -/
def encodeBr (link : BitVec 1) (o : Br) : Word := o.cond.bits ++ 0b101#3 ++ link ++ o.offset24

/-- Format CDT (R102, R112): `load` is bit 20. -/
def encodeCdt (load : BitVec 1) (o : Cdt) : Word :=
  o.cond.bits ++ 0b110#3 ++ flag o.p ++ flag o.u ++ flag o.n ++ flag o.w ++ load ++ o.rn ++ o.crd ++ o.cpNum ++ o.offset8

/-- Format CDO (R102, R113). -/
def encodeCdo (o : Cdo) : Word :=
  o.cond.bits ++ 0b1110#4 ++ o.cpOpc ++ o.crn ++ o.crd ++ o.cpNum ++ o.cp ++ 0#1 ++ o.crm

/-- Format CRT (R102, R114): `load` is bit 20. -/
def encodeCrt (load : BitVec 1) (o : Crt) : Word :=
  o.cond.bits ++ 0b1110#4 ++ o.cpOpc ++ load ++ o.crn ++ o.rd ++ o.cpNum ++ o.cp ++ 1#1 ++ o.crm

/-- Format SWI (R102, R115). -/
def encodeSwi (o : Swi) : Word := o.cond.bits ++ 0b1111#4 ++ o.comment

/-- The word of an instruction (R102 to R115). -/
def encode : Instr → Word
  | .andImm o => encodeDp 1 0 ImmOp.bits o
  | .andReg o => encodeDp 0 0 RegOp.bits o
  | .andRegShift o => encodeDp 0 0 RegShiftOp.bits o
  | .eorImm o => encodeDp 1 1 ImmOp.bits o
  | .eorReg o => encodeDp 0 1 RegOp.bits o
  | .eorRegShift o => encodeDp 0 1 RegShiftOp.bits o
  | .subImm o => encodeDp 1 2 ImmOp.bits o
  | .subReg o => encodeDp 0 2 RegOp.bits o
  | .subRegShift o => encodeDp 0 2 RegShiftOp.bits o
  | .rsbImm o => encodeDp 1 3 ImmOp.bits o
  | .rsbReg o => encodeDp 0 3 RegOp.bits o
  | .rsbRegShift o => encodeDp 0 3 RegShiftOp.bits o
  | .addImm o => encodeDp 1 4 ImmOp.bits o
  | .addReg o => encodeDp 0 4 RegOp.bits o
  | .addRegShift o => encodeDp 0 4 RegShiftOp.bits o
  | .adcImm o => encodeDp 1 5 ImmOp.bits o
  | .adcReg o => encodeDp 0 5 RegOp.bits o
  | .adcRegShift o => encodeDp 0 5 RegShiftOp.bits o
  | .sbcImm o => encodeDp 1 6 ImmOp.bits o
  | .sbcReg o => encodeDp 0 6 RegOp.bits o
  | .sbcRegShift o => encodeDp 0 6 RegShiftOp.bits o
  | .rscImm o => encodeDp 1 7 ImmOp.bits o
  | .rscReg o => encodeDp 0 7 RegOp.bits o
  | .rscRegShift o => encodeDp 0 7 RegShiftOp.bits o
  | .tstImm o => encodeTest 1 8 ImmOp.bits o
  | .tstReg o => encodeTest 0 8 RegOp.bits o
  | .tstRegShift o => encodeTest 0 8 RegShiftOp.bits o
  | .teqImm o => encodeTest 1 9 ImmOp.bits o
  | .teqReg o => encodeTest 0 9 RegOp.bits o
  | .teqRegShift o => encodeTest 0 9 RegShiftOp.bits o
  | .cmpImm o => encodeTest 1 10 ImmOp.bits o
  | .cmpReg o => encodeTest 0 10 RegOp.bits o
  | .cmpRegShift o => encodeTest 0 10 RegShiftOp.bits o
  | .cmnImm o => encodeTest 1 11 ImmOp.bits o
  | .cmnReg o => encodeTest 0 11 RegOp.bits o
  | .cmnRegShift o => encodeTest 0 11 RegShiftOp.bits o
  | .orrImm o => encodeDp 1 12 ImmOp.bits o
  | .orrReg o => encodeDp 0 12 RegOp.bits o
  | .orrRegShift o => encodeDp 0 12 RegShiftOp.bits o
  | .movImm o => encodeDp 1 13 ImmOp.bits o
  | .movReg o => encodeDp 0 13 RegOp.bits o
  | .movRegShift o => encodeDp 0 13 RegShiftOp.bits o
  | .bicImm o => encodeDp 1 14 ImmOp.bits o
  | .bicReg o => encodeDp 0 14 RegOp.bits o
  | .bicRegShift o => encodeDp 0 14 RegShiftOp.bits o
  | .mvnImm o => encodeDp 1 15 ImmOp.bits o
  | .mvnReg o => encodeDp 0 15 RegOp.bits o
  | .mvnRegShift o => encodeDp 0 15 RegShiftOp.bits o
  | .unspecifiedTestS0Imm o => encodeRaw o
  | .unspecifiedTestS0Reg o => encodeRaw o
  | .unspecifiedTestS0RegShift o => encodeRaw o
  | .mul o => encodeMul 0 o
  | .mla o => encodeMul 1 o
  | .undefined1 o => encodeRaw o
  | .unallocatedA o => encodeRaw o
  | .unallocatedB o => encodeRaw o
  | .unallocatedC o => encodeRaw o
  | .unallocatedD o => encodeRaw o
  | .ldrImm o => encodeSdt 0 0 1 id o
  | .ldrReg o => encodeSdt 1 0 1 RegOp.bits o
  | .ldrbImm o => encodeSdt 0 1 1 id o
  | .ldrbReg o => encodeSdt 1 1 1 RegOp.bits o
  | .strImm o => encodeSdt 0 0 0 id o
  | .strReg o => encodeSdt 1 0 0 RegOp.bits o
  | .strbImm o => encodeSdt 0 1 0 id o
  | .strbReg o => encodeSdt 1 1 0 RegOp.bits o
  | .undefined2 o => encodeRaw o
  | .ldm o => encodeBdt 1 o
  | .stm o => encodeBdt 0 o
  | .b o => encodeBr 0 o
  | .bl o => encodeBr 1 o
  | .ldc o => encodeCdt 1 o
  | .stc o => encodeCdt 0 o
  | .cdp o => encodeCdo o
  | .mcr o => encodeCrt 1 o
  | .mrc o => encodeCrt 0 o
  | .swi o => encodeSwi o

end Sys2Proof
end

