-- ==== Sys2Proof/Machine/State.lean ====
section
/-! DEFINITION. The state of the machine as plain data, the reasons a step can stop, and the state after reset. -/

namespace Sys2Proof.Machine

/-! ### The processor's registers -/

/-- The four modes (R35, R445). Every value of M1, M0 is a mode: there is no reserved code. -/
inductive Mode where
  | user | irq | firq | svc
  deriving DecidableEq, Repr

/-- The processor status bits of R15 (R27): bits 31:26, and bits 1:0 as the mode. -/
structure Psr where
  /-- Bit 31, negative. -/
  n : Bool
  /-- Bit 30, zero. -/
  z : Bool
  /-- Bit 29, carry. -/
  c : Bool
  /-- Bit 28, overflow. -/
  v : Bool
  /-- Bit 27: IRQ is masked. -/
  i : Bool
  /-- Bit 26: FIRQ is masked. -/
  f : Bool
  /-- Bits 1:0. -/
  mode : Mode
  deriving DecidableEq, Repr

/-- The 26 physical registers other than R15 (R22). -/
structure Regs where
  /-- R0 to R7, shared by all modes. -/
  low : Vector Word 8
  /-- R8_usr to R14_usr. -/
  usr : Vector Word 7
  /-- R8_fiq to R14_fiq. -/
  fiq : Vector Word 7
  /-- R13_irq and R14_irq. -/
  irq : Vector Word 2
  /-- R13_svc and R14_svc. -/
  svc : Vector Word 2
  deriving DecidableEq, Repr

/-- The name of a physical register other than R15 (R22): a bank and a place in it, in the order `Regs` lists them. -/
inductive PhysReg where
  | low (k : Fin 8)
  | usr (k : Fin 7)
  | fiq (k : Fin 7)
  | irq (k : Fin 2)
  | svc (k : Fin 2)
  deriving DecidableEq, Repr

/-! ### Memory and hidden state -/

/-- Memory as the bytes that differ from what an unwritten byte reads as, at strictly rising addresses (R65; log entry 3). -/
abbrev Memory := List Host.Cell

/-- Whether the words already prefetched have been overwritten in memory since (R40, R91). Between instructions only the words
at the next two addresses are prefetched; the third flag serves while an instruction runs, since its first cycle fetches A + 8. -/
structure Pipeline where
  /-- The word at the pc. -/
  stale0 : Bool
  /-- The word at the pc + 4. -/
  stale1 : Bool
  /-- The word at the pc + 8. -/
  stale2 : Bool
  deriving DecidableEq, Repr

/-- The bank-switch settling window before the next instruction (R42). -/
inductive Hazard where
  /-- No restriction on the next instruction. -/
  | clear
  /-- The last instruction changed the mode without writing the PC (R470). -/
  | modeChanged
  /-- The last instruction loaded the user bank from a non-user mode (R471). -/
  | userBankLoaded
  deriving DecidableEq, Repr

/-- Whether RES goes high between this instruction boundary and the next one, in the middle of what runs there (R45, R462). -/
inductive ResCut where
  /-- It does not. -/
  | no
  /-- It does, in what comes first: the interrupt entry taken at this boundary, else the instruction that begins here. -/
  | atOnce
  /-- It does, in the instruction that begins here, an interrupt entry before it having ended. -/
  | inInstr
  deriving DecidableEq, Repr

/-- The request inputs as the processor samples them at an instruction boundary, `true` = asserted (R41, R422, R460). -/
structure Pins where
  /-- The -IRQ synchroniser output is low. -/
  irq : Bool
  /-- The -FIRQ synchroniser output is low. -/
  firq : Bool
  /-- RES is high. -/
  res : Bool
  /-- RES goes high before the next boundary. -/
  cut : ResCut
  deriving DecidableEq, Repr

/-! ### The platform's parts the processor talks to -/

/-- What a bus cycle is for (R80: -R/W and -OPC). -/
inductive CycleKind where
  | fetch | read | write
  deriving DecidableEq, Repr

/-- The attributes every bus cycle carries (R80). -/
structure BusCycle where
  addr : Word
  kind : CycleKind
  /-- -B/W is low: a byte. -/
  byte : Bool
  /-- -TRAN is low: translate. -/
  tran : Bool
  /-- The mode on -M1, -M0. -/
  mode : Mode
  deriving DecidableEq, Repr

/-- One rule of the external memory manager: it aborts the cycles whose attributes lie within (R83); `none` leaves an attribute
open. A list of rules is a finite `AbortOracle`. Its `history` argument is the number of instructions begun: along a run the
machine is deterministic and no instruction makes two cycles with the same attributes, so that this number and the attributes
say which cycles went before, and an access that is tried again can get another answer (log entry 6). -/
structure AbortRule where
  first : Word
  last  : Word
  kind  : Option CycleKind
  byte  : Option Bool
  tran  : Option Bool
  mode  : Option Mode
  /-- How many instructions have begun when the rule comes into force. -/
  since : Nat
  /-- How many have when it goes out of force; none is never. -/
  before : Option Nat
  deriving DecidableEq, Repr

/-- What answers at an address (R7, R79: where RAM and ROM are is the platform's). -/
inductive MemKind where
  /-- It is read and written. -/
  | ram
  /-- It is read; a write cycle changes nothing. -/
  | rom
  /-- No memory: a write cycle changes nothing, and what a read cycle gives is a free value. -/
  | absent
  deriving DecidableEq, Repr

/-- The addresses from `first` to `last`, and what answers there. -/
structure MemRegion where
  first : Word
  last  : Word
  kind  : MemKind
  deriving DecidableEq, Repr

/-- `MemMap` (R7, D14): which addresses hold memory, and whether MSBLOW is asserted. -/
structure MemMap where
  /-- The first region that covers an address counts; where none does, RAM answers (log entry 3). -/
  regions : List MemRegion
  /-- MSBLOW is high: the upper eight bits of the address bus are low (R63). -/
  msblow : Bool
  deriving DecidableEq, Repr

/-- What an attached coprocessor has been handed (R345). -/
inductive CoprocMsg where
  /-- CDP: an internal operation. -/
  | dataOp (instr : Word)
  /-- LDC: the words read from memory. -/
  | loaded (instr : Word) (words : List Word)
  /-- STC: the words it supplied. -/
  | stored (instr : Word) (words : List Word)
  /-- MCR: the word it supplied. -/
  | toAprm (instr : Word) (v : Word)
  /-- MRC: the word it received. -/
  | fromAprm (instr : Word) (v : Word)
  deriving DecidableEq, Repr

/-- The instruction words a coprocessor accepts, and how many words an LDC or STC of that shape moves (R345 `accepts`, `count`). -/
structure CoprocRule where
  mask    : Word
  pattern : Word
  count   : Nat
  deriving DecidableEq, Repr

/-- An attached coprocessor as the APRM sees it (R345): the first rule that matches the instruction word accepts it. -/
structure Coproc where
  rules : List CoprocRule
  /-- CPB stays high: it never becomes ready (R343). -/
  busy : Bool
  /-- The words it will supply, the next first; where the list ends a supplied word is a free value. -/
  outgoing : List Word
  /-- What it has been handed, the newest first. -/
  received : List CoprocMsg
  deriving DecidableEq, Repr

/-! ### The state -/

/-- The whole machine: the processor's state (R20 to R48) and the plain data that stands for the platform's parameters (R7). -/
structure State where
  /-- The registers of all banks (R22). -/
  regs : Regs
  /-- R15 bits 25:2: between instructions, the word address of the next one (R28). -/
  pc : PcWord
  /-- R15 bits 31:26 and 1:0 (R27). -/
  psr : Psr
  /-- The one memory (R60). -/
  mem : Memory
  /-- Where memory is, `MemMap` (R7). -/
  memMap : MemMap
  /-- The prefetched words (R40). -/
  pipe : Pipeline
  /-- The settling window (R42). -/
  hazard : Hazard
  /-- The inputs at the coming instruction boundary (R41). -/
  pins : Pins
  /-- The inputs at the boundaries after it; when the list ends they keep their level (R41). -/
  pinSchedule : List Pins
  /-- RES has been high: the reset entry follows when it is low (R460). -/
  inReset : Bool
  /-- The memory manager's rules, `AbortOracle` (R83). -/
  aborts : List AbortRule
  /-- The MODEL's own count of the instructions begun: the place in the history of bus cycles (R83; log entry 6). -/
  begun : Nat
  /-- The attached coprocessors by number, `Coproc` (R340). -/
  coprocs : Vector (Option Coproc) 16
  /-- The MODEL's own counter of free values drawn (R13; log entry 4). -/
  draws : Nat
  deriving DecidableEq, Repr

/-- The reasons a step stops with a fault. -/
inductive Fault where
  /-- Raised by a coprocessor instruction that an attached coprocessor accepts while its busy input never falls: the processor waits
  for ever (R343). Safe: the hardware makes no further progress either. -/
  | coprocessorNeverReady
  deriving DecidableEq, Repr

/-- The reasons a step gives no meaning. Each but the first is a `refuse` of the spec (R13). All are safe: the model stops. -/
inductive Refusal where
  /-- Raised by `exec` for an instruction without a meaning yet. -/
  | notModelled (mnemonic : String)
  /-- Raised by TST, TEQ, CMP, CMN with S = 0 whose condition passes (R175). -/
  | testWithoutS
  /-- Raised by an unallocated word whose condition passes (R326). -/
  | unallocated
  /-- Raised by a store with write-back whose data register is its base (R245). -/
  | storeOfWrittenBackBase
  /-- Raised by an unaligned word access on a platform without the double access (R73). -/
  | unalignedUnsupported
  /-- Raised by LDM or STM with no register in the list (R285). -/
  | emptyRegisterList
  /-- Raised by LDM, STM, LDC or STC whose first address is no multiple of 4 (R74). -/
  | unalignedBlock
  /-- Raised by LDC or STC with base R15 and write-back (R352). -/
  | coprocessorBaseR15WriteBack
  /-- Raised by a step that reaches a prefetched word which a store has overwritten (R91). -/
  | stalePrefetch
  /-- Raised by a step whose instruction names a banked register right after a mode change (R470), or reads one right after a
  user-bank load (R471). -/
  | bankedRegisterTooSoon
  deriving DecidableEq, Repr

/-! ### Reset -/

/-- No request on any input. -/
def Pins.idle : Pins := ⟨false, false, false, .no⟩

/-- Flat RAM over all addresses and MSBLOW low, as the spec's own test programs have it (D14; log entries 3, 23). -/
def MemMap.flat : MemMap := ⟨[], false⟩

/-- A pipeline refilled from memory (R40). -/
def Pipeline.fresh : Pipeline := ⟨false, false, false⟩

/-- The registers after reset. The spec gives none of them a value (R46, R48): these are the markers with which R48's `never zero`
and the spec's own Program C (95, section 3.3) start, continued over the FIRQ bank. DESIGN CHOICE, unsafe (log entry 1). -/
def Regs.reset : Regs where
  low := #v[0xDEAD0000, 0xDEAD0001, 0xDEAD0002, 0xDEAD0003, 0xDEAD0004, 0xDEAD0005, 0xDEAD0006, 0xDEAD0007]
  usr := #v[0xDEAD0008, 0xDEAD0009, 0xDEAD000A, 0xDEAD000B, 0xDEAD000C, 0xDEAD000D, 0xDEAD000E]
  fiq := #v[0x000BAD38, 0x000BAD39, 0x000BAD3A, 0x000BAD3B, 0x000BAD3C, 0x000BAD3D, 0x000BAD3E]
  irq := #v[0x000BAD23, 0x000BAD24]
  svc := #v[0x000BAD13, 0x000BAD14]

/-- The machine right after reset (R46, R460): PC 0, Supervisor mode, I = F = 1, flat memory with nothing listed (D14), no coprocessor
(D3), no memory manager (D4), no request. N, Z, C, V are a DESIGN CHOICE (log entry 2), `draws` and `begun` are the model's own
(log entries 4, 6). -/
def State.reset : State where
  regs := Regs.reset
  pc := 0
  psr := { n := false, z := false, c := false, v := false, i := true, f := true, mode := .svc }
  mem := []
  memMap := MemMap.flat
  pipe := Pipeline.fresh
  hazard := .clear
  pins := Pins.idle
  pinSchedule := []
  inReset := false
  aborts := []
  begun := 0
  coprocs := Vector.replicate 16 none
  draws := 0

end Sys2Proof.Machine
end

