-- ==== Sys2Proof/Machine/Flags.lean ====
section
/-! DEFINITION. The status bits: the mode codes, the condition test, R15 as a word, the protected PSR write, and the results
and flags of the sixteen data processing operations and of the multiplies. -/

namespace Sys2Proof.Machine

/-- The code of a mode in M1, M0 (R35). -/
def Mode.bits : Mode → BitVec 2
  | .user => 0b00 | .irq => 0b01 | .firq => 0b10 | .svc => 0b11

/-- The mode a code names (R35). -/
def Mode.ofBits (b : BitVec 2) : Mode :=
  match b with
  | 0b00 => .user | 0b01 => .irq | 0b10 => .firq | _ => .svc

/-- The -M1, -M0 pins: the inverse of PSR bits 1:0 (R35, R44). -/
def Mode.pins (m : Mode) : BitVec 2 := ~~~m.bits

/-- `CondPassed` (R140). -/
def condPassed (c : Cond) (p : Psr) : Bool :=
  match c with
  | .eq => p.z
  | .ne => !p.z
  | .cs => p.c
  | .cc => !p.c
  | .mi => p.n
  | .pl => !p.n
  | .vs => p.v
  | .vc => !p.v
  | .hi => p.c && !p.z
  | .ls => !p.c || p.z
  | .ge => p.n == p.v
  | .lt => p.n != p.v
  | .gt => !p.z && p.n == p.v
  | .le => p.z || p.n != p.v
  | .al => true
  | .nv => false

/-- R15 as a word: the PSR bits around a PC field (R27). -/
def Psr.r15 (p : Psr) (pc : PcWord) : Word :=
  flag p.n ++ flag p.z ++ flag p.c ++ flag p.v ++ flag p.i ++ flag p.f ++ pc ++ p.mode.bits

/-- A PC field as a byte address, the PSR bits replaced by zeroes (R10 `PCv`). -/
def pcByteAddr (pc : PcWord) : Word := 0#6 ++ pc ++ 0#2

/-- The PC field of a word, bits 25:2 (R30). -/
def pcField (v : Word) : PcWord := field v 2 24

/-- The flags N, Z, C, V from bits 31:28 of a word (R36, R359). -/
def Psr.writeFlags (p : Psr) (v : Word) : Psr :=
  { p with n := bitAt v 31, z := bitAt v 30, c := bitAt v 29, v := bitAt v 28 }

/-- `PSR <- v` (R36): in User mode I, F, M1 and M0 keep their values. -/
def Psr.write (p : Psr) (v : Word) : Psr :=
  match p.mode with
  | .user => p.writeFlags v
  | _ => { p.writeFlags v with i := bitAt v 27, f := bitAt v 26, mode := .ofBits (field v 0 2) }

/-- A result with the C and V that belong to it. -/
structure AluOut where
  value : Word
  c : Bool
  v : Bool
  deriving DecidableEq, Repr

/-- N, Z, C, V from a result (R170, R171). -/
def Psr.withResult (p : Psr) (r : AluOut) : Psr :=
  { p with n := r.value.msb, z := r.value == 0, c := r.c, v := r.v }

/-- `AddC` (R169): the sum as integers, narrowed, with the carry out of bit 31 and the signed overflow. -/
def addC (a b : Word) (cin : Bool) : AluOut :=
  let usum := a.toNat + b.toNat + cin.toNat
  let ssum := a.toInt + b.toInt + (cin.toNat : Int)
  { value := BitVec.ofNat 32 usum
    c := decide (2 ^ 32 ≤ usum)
    v := decide (ssum < -(2 ^ 31) ∨ 2 ^ 31 - 1 < ssum) }

/-- A logical result: C from the shifter, V as it was (R170). -/
def logical (p : Psr) (sco : Bool) (r : Word) : AluOut := ⟨r, sco, p.v⟩

/-- A data processing operation: the flags before it, operand 1, operand 2 and the shifter carry out (R160). -/
abbrev AluFn := Psr → Word → Word → Bool → AluOut

/-- R180. -/
def aluAnd : AluFn := fun p a b sco => logical p sco (a &&& b)
/-- R181. -/
def aluEor : AluFn := fun p a b sco => logical p sco (a ^^^ b)
/-- R182. -/
def aluSub : AluFn := fun _ a b _ => addC a (~~~b) true
/-- R183. -/
def aluRsb : AluFn := fun _ a b _ => addC b (~~~a) true
/-- R184. -/
def aluAdd : AluFn := fun _ a b _ => addC a b false
/-- R185. -/
def aluAdc : AluFn := fun p a b _ => addC a b p.c
/-- R186. -/
def aluSbc : AluFn := fun p a b _ => addC a (~~~b) p.c
/-- R187. -/
def aluRsc : AluFn := fun p a b _ => addC b (~~~a) p.c
/-- R188. -/
def aluTst : AluFn := fun p a b sco => logical p sco (a &&& b)
/-- R189. -/
def aluTeq : AluFn := fun p a b sco => logical p sco (a ^^^ b)
/-- R190. -/
def aluCmp : AluFn := fun _ a b _ => addC a (~~~b) true
/-- R191. -/
def aluCmn : AluFn := fun _ a b _ => addC a b false
/-- R192. -/
def aluOrr : AluFn := fun p a b sco => logical p sco (a ||| b)
/-- R193: operand 1 is ignored. -/
def aluMov : AluFn := fun p _ b sco => logical p sco b
/-- R194. -/
def aluBic : AluFn := fun p a b sco => logical p sco (a &&& ~~~b)
/-- R195: operand 1 is ignored. -/
def aluMvn : AluFn := fun p _ b sco => logical p sco (~~~b)

/-- The low 32 bits of product plus addend (R225). -/
def mulAdd (rm rs rn : Word) : Word := BitVec.ofNat 32 (rm.toNat * rs.toNat + rn.toNat)

end Sys2Proof.Machine
end

