-- ==== Sys2Proof/Machine/Ops.lean ====
section
/-! DEFINITION. The named operations over registers, memory, the program counter and free values; taking an exception, and the
return from one. -/

namespace Sys2Proof.Machine

/-! ### Registers -/

/-- Read a physical register. -/
def Regs.get (r : Regs) : PhysReg → Word
  | .low k => r.low[k]
  | .usr k => r.usr[k]
  | .fiq k => r.fiq[k]
  | .irq k => r.irq[k]
  | .svc k => r.svc[k]

/-- Write a physical register. -/
def Regs.set (r : Regs) (p : PhysReg) (v : Word) : Regs :=
  match p with
  | .low k => { r with low := r.low.set k v }
  | .usr k => { r with usr := r.usr.set k v }
  | .fiq k => { r with fiq := r.fiq.set k v }
  | .irq k => { r with irq := r.irq.set k v }
  | .svc k => { r with svc := r.svc.set k v }

/-- `phys(mode, i)` (R23); R15 is none of the 26 (R10). -/
def phys (m : Mode) (i : RegNum) : Option PhysReg :=
  if h : i.toNat < 8 then some (.low ⟨i.toNat, h⟩)
  else if h : i.toNat - 8 < 7 then
    let usr : PhysReg := .usr ⟨i.toNat - 8, h⟩
    match m with
    | .user => some usr
    | .firq => some (.fiq ⟨i.toNat - 8, h⟩)
    | .irq => some (if i = 13 then .irq 0 else if i = 14 then .irq 1 else usr)
    | .svc => some (if i = 13 then .svc 0 else if i = 14 then .svc 1 else usr)
  else none

/-- The R14 of a mode's bank (R23). -/
def linkReg : Mode → PhysReg
  | .user => .usr 6
  | .irq => .irq 1
  | .firq => .fiq 6
  | .svc => .svc 1

/-- Register `i` of the bank of mode `m`; every rule says for itself what R15 reads as (R10), and here it reads as zero. -/
def Regs.read (r : Regs) (m : Mode) (i : RegNum) : Word :=
  match phys m i with
  | some p => r.get p
  | none => 0

/-- Write register `i` of the bank of mode `m`; every rule says for itself what writing R15 does (R10), and here it does nothing. -/
def Regs.write (r : Regs) (m : Mode) (i : RegNum) (v : Word) : Regs :=
  match phys m i with
  | some p => r.set p v
  | none => r

/-- `x[i]` (R10). -/
def State.x (s : State) (i : RegNum) : Word := s.regs.read s.psr.mode i

/-- `x[i] <- v` (R10). -/
def State.setX (s : State) (i : RegNum) (v : Word) : State := { s with regs := s.regs.write s.psr.mode i v }

/-- Register `i` of the bank a block transfer uses: the user bank `xu[i]` or the current one (R287). -/
def State.xIn (s : State) (userBank : Bool) (i : RegNum) : Word :=
  s.regs.read (if userBank then .user else s.psr.mode) i

/-- Write register `i` of the bank a block transfer uses (R287). -/
def State.setXIn (s : State) (userBank : Bool) (i : RegNum) (v : Word) : State :=
  { s with regs := s.regs.write (if userBank then .user else s.psr.mode) i v }

/-! ### R15 -/

/-- `PCv(4k)`: the PC `k` words ahead of the instruction, without the PSR (R10). -/
def State.pcv (s : State) (k : PcWord) : Word := pcByteAddr (s.pc + k)

/-- `R15v(4k)`: the PC `k` words ahead of the instruction, with the PSR (R10). -/
def State.r15v (s : State) (k : PcWord) : Word := s.psr.r15 (s.pc + k)

/-- The pipeline when the next instruction in sequence comes up (R40). -/
def Pipeline.shift (p : Pipeline) : Pipeline := ⟨p.stale1, p.stale2, false⟩

/-- The next instruction is at A + 4, modulo 2^26 (R31). -/
def State.advance (s : State) : State := { s with pc := s.pc + 1, pipe := s.pipe.shift }

/-- `pc <- t` (R10): bits 25:2, and the pipeline is refilled (R40). -/
def State.branchTo (s : State) (t : Word) : State := { s with pc := pcField t, pipe := Pipeline.fresh }

/-- `PSR <- v` by an instruction (R36). -/
def State.writePsr (s : State) (v : Word) : State := { s with psr := s.psr.write v }

/-- `PSR <- v` by an instruction that does not write the PC: a change of mode opens the settling window (R42, R470). -/
def State.writePsrOnly (s : State) (v : Word) : State :=
  { s with
    psr := s.psr.write v
    hazard := if (s.psr.write v).mode = s.psr.mode then s.hazard else .modeChanged }

/-- The flags of a result (R170, R171). -/
def State.setFlags (s : State) (r : AluOut) : State := { s with psr := s.psr.withResult r }

/-! ### Free values -/

/-- The `k`-th free word from here (R13). -/
def State.freeWord (s : State) (k : Nat) : Word := Config.anyWord (s.draws + k)

/-- The `k`-th free bit from here (R13). -/
def State.freeBit (s : State) (k : Nat) : Bool := Config.anyBit (s.draws + k)

/-- `k` free values have been drawn. -/
def State.drawn (s : State) (k : Nat) : State := { s with draws := s.draws + k }

/-! ### Taking an exception, and returning from one -/

/-- The seven exceptions (R400). -/
inductive Trap where
  | reset | undefinedInstruction | softwareInterrupt | prefetchAbort | dataAbort | irq | firq
  deriving DecidableEq, Repr

/-- The vector, as a word address: byte addresses 0x00 to 0x1C (R79, R400, C4). -/
def Trap.vector : Trap → PcWord
  | .reset => 0
  | .undefinedInstruction => 1
  | .softwareInterrupt => 2
  | .prefetchAbort => 3
  | .dataAbort => 4
  | .irq => 6
  | .firq => 7

/-- The mode entered (R410). -/
def Trap.mode : Trap → Mode
  | .irq => .irq
  | .firq => .firq
  | _ => .svc

/-- Whether F is set on entry (R410, R420). -/
def Trap.setsF : Trap → Bool
  | .reset => true
  | .firq => Config.firqEntrySetsF
  | _ => false

/-- The PSR after entry: the new mode, I set, F set where the exception says so, the flags as they were (R410). -/
def Psr.enter (p : Psr) (e : Trap) : Psr :=
  { p with i := true, f := p.f || e.setsF, mode := e.mode }

/-- The word saved in R14: the old PSR around the return address; for reset a free value (R410, R402). -/
def State.savedWord (s : State) (e : Trap) (ret : PcWord) : Word :=
  match e with
  | .reset => s.freeWord 0
  | _ => s.psr.r15 ret

/-- `raise e(ret)`: the entry sequence common to all exceptions (R410). `ret` is a word address. -/
def State.enter (s : State) (e : Trap) (ret : PcWord) : State :=
  { s with
    regs := s.regs.set (linkReg e.mode) (s.savedWord e ret)
    psr := s.psr.enter e
    pc := e.vector
    pipe := Pipeline.fresh
    hazard := .clear
    draws := match e with
      | .reset => s.draws + 1
      | _ => s.draws }

/-- The return from an exception: the PC and, under the mode's protection, the PSR from one word (R172, R291, R430). -/
def State.returnTo (s : State) (v : Word) : State := (s.branchTo v).writePsr v

/-! ### Memory -/

/-- The byte at an address; an unlisted address reads as `Config.unwrittenByte`. -/
def Memory.read : Memory → Nat → Byte
  | [], _ => Config.unwrittenByte
  | (k, v) :: t, a => if k = a then v else Memory.read t a

/-- The list with `a` first, unless the byte is what an unlisted address reads as. -/
def Memory.cons (a : Nat) (b : Byte) (m : Memory) : Memory :=
  if b = Config.unwrittenByte then m else (a, b) :: m

/-- Write one byte, keeping the canonical form. -/
def Memory.write : Memory → Nat → Byte → Memory
  | [], a, b => Memory.cons a b []
  | (k, v) :: t, a, b =>
    if a < k then Memory.cons a b ((k, v) :: t)
    else if a = k then Memory.cons a b t
    else (k, v) :: Memory.write t a b

/-- The addresses rise strictly from `lo`, lie in the 32-bit space, and no entry is what an unlisted address reads as. -/
def Memory.wfFrom : Nat → Memory → Bool
  | _, [] => true
  | lo, (k, v) :: t =>
    decide (lo ≤ k) && decide (k < 2 ^ 32) && decide (v ≠ Config.unwrittenByte) && Memory.wfFrom (k + 1) t

/-- The canonical form of memory. -/
def Memory.wf (m : Memory) : Bool := Memory.wfFrom 0 m

/-- A region of the map covers an address. -/
def MemRegion.covers (r : MemRegion) (a : Word) : Bool := decide (r.first ≤ a) && decide (a ≤ r.last)

/-- What answers at an address of the bus; RAM where no region says otherwise (R7; log entry 3). -/
def MemMap.kindAt (m : MemMap) (a : Word) : MemKind := ((m.regions.find? (·.covers a)).map (·.kind)).getD .ram

/-- The address on the bus: MSBLOW forces its upper eight bits low (R63, R483), in every cycle alike. Decision D14 speaks of A31 to A26, which
are six; that the model takes the eight of the rules is a DESIGN CHOICE, and so is every cycle (log entry 23). -/
def State.bus (s : State) (a : Word) : Word := if s.memMap.msblow then a &&& 0x00FFFFFF else a

/-- What answers at an address. -/
def State.kindOf (s : State) (a : Word) : MemKind := s.memMap.kindAt (s.bus a)

/-- What memory holds at an address, be it reached or not. -/
def State.cellAt (s : State) (a : Word) : Byte := s.mem.read (s.bus a).toNat

/-- `mem[a]` as a read cycle gives it (R65): what memory holds, and a free value where there is none (S13; log entry 3). -/
def State.byteAt (s : State) (a : Word) : Byte :=
  if s.kindOf a = .absent then Config.absentByte s.begun (s.bus a) else s.cellAt a

/-- The big-endian word that starts at byte address `a`, aligned or not (R67, R68); sums are modulo 2^32 (R65). -/
def State.wordAt (s : State) (a : Word) : Word :=
  wordOfBytes (s.byteAt a) (s.byteAt (a + 1)) (s.byteAt (a + 2)) (s.byteAt (a + 3))

/-- Byte address `a` lies in the word `k` words ahead of the instruction. -/
def State.inWordAhead (s : State) (a : Word) (k : PcWord) : Bool := field (s.bus a) 2 30 == field (s.bus (s.pcv k)) 2 30

/-- The marks on the prefetched words when the running instruction has written byte address `a`, whatever answers there (R91). -/
def State.notePrefetch (s : State) (a : Word) : Pipeline :=
  { s.pipe with stale1 := s.pipe.stale1 || s.inWordAhead a 1, stale2 := s.pipe.stale2 || s.inWordAhead a 2 }

/-- `mem[a] <- b` (R65, R69), where RAM answers. -/
def State.storeByte (s : State) (a : Word) (b : Byte) : State :=
  { s with
    mem := if s.kindOf a = .ram then s.mem.write (s.bus a).toNat b else s.mem
    pipe := s.notePrefetch a }

/-- Bytes to ascending addresses. -/
def State.storeBytes (s : State) (a : Word) : List Byte → State
  | [] => s
  | b :: bs => (s.storeByte a b).storeBytes (a + 1) bs

/-! ### Bus cycles -/

/-- The value of -TRAN, `true` = translate: in User mode, or where the instruction forces it (R81). -/
def State.tran (s : State) (forced : Bool) : Bool := decide (s.psr.mode = .user) || forced

/-- A rule of the memory manager is in force when `begun` instructions have begun. -/
def AbortRule.inForce (r : AbortRule) (begun : Nat) : Bool := decide (r.since ≤ begun) && r.before.all (fun n => decide (begun < n))

/-- A rule of the memory manager covers a cycle. -/
def AbortRule.hits (r : AbortRule) (begun : Nat) (c : BusCycle) : Bool :=
  r.inForce begun && decide (r.first ≤ c.addr) && decide (c.addr ≤ r.last)
    && (r.kind.all (· == c.kind)) && (r.byte.all (· == c.byte)) && (r.tran.all (· == c.tran)) && (r.mode.all (· == c.mode))

/-- `AbortOracle` (R83). -/
def State.aborted (s : State) (c : BusCycle) : Bool := s.aborts.any (·.hits s.begun c)

/-- A data cycle of the running instruction (R80). -/
def State.dataCycle (s : State) (kind : CycleKind) (byte forced : Bool) (a : Word) : BusCycle :=
  ⟨s.bus a, kind, byte, s.tran forced, s.psr.mode⟩

/-- `addr[1:0] = 00`. -/
def aligned (a : Word) : Bool := field a 0 2 == 0

/-- The next word boundary above an address (R71). -/
def nextWord (a : Word) : Word := (a ||| 3) + 1

/-- The read of a word aborts: one cycle when aligned, a second one four bytes on when not (R67, R68, R84). -/
def State.readAborts (s : State) (forced : Bool) (a : Word) : Bool :=
  s.aborted (s.dataCycle .read false forced a)
    || (!aligned a && s.aborted (s.dataCycle .read false forced (a + 4)))

/-- `MemRead(a, 4)` (R67, R68); none is `abort`. -/
def State.readWord (s : State) (forced : Bool) (a : Word) : Option Word :=
  if s.readAborts forced a then none else some (s.wordAt a)

/-- `MemRead(a, 1)` (R66); none is `abort`. -/
def State.readByte (s : State) (forced : Bool) (a : Word) : Option Byte :=
  if s.aborted (s.dataCycle .read true forced a) then none else some (s.byteAt a)

/-- What a write leaves: the state, and whether it aborted. -/
structure Written where
  state : State
  aborted : Bool
  deriving DecidableEq, Repr

/-- `MemWrite(a, 1, v)` (R69); an aborted write changes nothing (R83). -/
def State.writeByte (s : State) (forced : Bool) (a : Word) (b : Byte) : Written :=
  if s.aborted (s.dataCycle .write true forced a) then ⟨s, true⟩ else ⟨s.storeByte a b, false⟩

/-- How many bytes of a word at `a` lie below the next word boundary. -/
def bytesBelowBoundary (a : Word) : Nat := 4 - (field a 0 2).toNat

/-- `MemWrite(a, 4, v)` (R70, R71): one cycle when aligned; when not, the bytes below the word boundary first. A first cycle that
aborts leaves memory as it was (R252; log entry 8), a second one that aborts leaves the first one's bytes written (R84). -/
def State.writeWord (s : State) (forced : Bool) (a : Word) (v : Word) : Written :=
  if s.aborted (s.dataCycle .write false forced a) then ⟨s, true⟩
  else if aligned a then ⟨s.storeBytes a (bytesOfWord v), false⟩
  else if s.aborted (s.dataCycle .write false forced (nextWord a)) then
    ⟨s.storeBytes a ((bytesOfWord v).take (bytesBelowBoundary a)), true⟩
  else ⟨s.storeBytes a (bytesOfWord v), false⟩

/-! ### Outcomes -/

/-- The three outcomes of one instruction. -/
abbrev Result := Host.Outcome State Fault Refusal

/-- An instruction whose condition fails only advances the PC (R14, R142). -/
def ifPassed (c : Cond) (s : State) (k : Result) : Result :=
  if condPassed c s.psr then k else .next s.advance

end Sys2Proof.Machine
end

