-- ==== Sys2Proof/Machine/Operands.lean ====
section
/-! DEFINITION. The operands: what R15 reads as in each position (R29), operand 2 and the barrel shifter, the addresses of single, block and
coprocessor transfers. -/

namespace Sys2Proof.Machine

/-! ### The barrel shifter -/

/-- Operand 2 and the shifter carry out. -/
structure Shifted where
  value : Word
  carry : Bool
  deriving DecidableEq, Repr

/-- The rotated immediate (R161, D9). -/
def immOperand (c : Bool) (o : ImmOp) : Shifted :=
  let v := (o.imm8.setWidth 32).rotateRight (2 * o.rotate.toNat)
  ⟨v, if o.rotate = 0 then c else v.msb⟩

/-- A shift by `n` in 1 to 31 (R162 to R165). -/
def shiftBy (kind : ShiftKind) (rm : Word) (n : Nat) : Shifted :=
  match kind with
  | .lsl => ⟨rm <<< n, bitAt rm (32 - n)⟩
  | .lsr => ⟨rm >>> n, bitAt rm (n - 1)⟩
  | .asr => ⟨rm.sshiftRight n, bitAt rm (n - 1)⟩
  | .ror => ⟨rm.rotateRight n, bitAt rm (n - 1)⟩

/-- The word of 32 copies of a bit. -/
def fill (b : Bool) : Word := if b then BitVec.allOnes 32 else 0

/-- A shift amount field of 0: LSL 0, LSR 32, ASR 32 and RRX (R162 to R165). -/
def shiftField0 (kind : ShiftKind) (rm : Word) (c : Bool) : Shifted :=
  match kind with
  | .lsl => ⟨rm, c⟩
  | .lsr => ⟨0, rm.msb⟩
  | .asr => ⟨fill rm.msb, rm.msb⟩
  | .ror => ⟨flag c ++ field rm 1 31, bitAt rm 0⟩

/-- A shift with its amount in the instruction (R162 to R165). -/
def shiftByField (kind : ShiftKind) (rm : Word) (amount : BitVec 5) (c : Bool) : Shifted :=
  if amount = 0 then shiftField0 kind rm c else shiftBy kind rm amount.toNat

/-- A shift with its amount in a register, 0 to 255 (R167). -/
def shiftByReg (kind : ShiftKind) (rm : Word) (n : Nat) (c : Bool) : Shifted :=
  if n = 0 then ⟨rm, c⟩
  else if n ≤ 31 then shiftBy kind rm n
  else match kind with
    | .lsl => ⟨0, decide (n = 32) && bitAt rm 0⟩
    | .lsr => ⟨0, decide (n = 32) && rm.msb⟩
    | .asr => ⟨fill rm.msb, rm.msb⟩
    | .ror =>
      let k := (n - 1) % 32 + 1
      ⟨rm.rotateRight (k % 32), bitAt rm (k - 1)⟩

/-! ### Registers as operands -/

/-- A register that reads as the PC alone when it is 15, `k` words ahead (R29). -/
def State.operandPc (s : State) (i : RegNum) (k : PcWord) : Word := if i = 15 then s.pcv k else s.x i

/-- A register that reads as the PC with the PSR when it is 15, `k` words ahead (R29). -/
def State.operandR15 (s : State) (i : RegNum) (k : PcWord) : Word := if i = 15 then s.r15v k else s.x i

/-- Operand 2 with the amount in the instruction; also a single transfer's register offset (R168, R241, R246). -/
def regOperand (s : State) (o : RegOp) : Shifted :=
  shiftByField o.kind (s.operandR15 o.rm 2) o.amount s.psr.c

/-- Operand 2 with the amount in the low byte of Rs; R15 is 12 bytes ahead as Rm, 8 as Rs (R166, R167). -/
def regShiftOperand (s : State) (o : RegShiftOp) : Shifted :=
  shiftByReg o.kind (s.operandR15 o.rm 3) (field (s.operandPc o.rs 2) 0 8).toNat s.psr.c

/-! ### Single data transfer -/

/-- A base with its offset added or subtracted (R242). -/
def offsetBase (u : Bool) (base offset : Word) : Word := if u then base + offset else base - offset

/-- What a single data transfer computes before it touches memory or a register (R242). -/
structure SdtAddr where
  addr     : Word
  modified : Word
  wb       : Bool
  deriving DecidableEq, Repr

/-- The address, the modified base and whether it is written back (R242, R246, R247). -/
def sdtAddr {α : Type} (s : State) (o : Sdt α) (offset : Word) : SdtAddr :=
  let base := s.operandPc o.rn 2
  let modified := offsetBase o.u base offset
  ⟨if o.p then modified else base, modified, !o.p || o.w⟩

/-- Translation is forced by a post-indexed transfer with W = 1 (R248, R353). -/
def forcedTran (p w : Bool) : Bool := !p && w

/-- A 12-bit immediate offset (R241). -/
def immOffset (offset : BitVec 12) : Word := offset.setWidth 32

/-! ### Block data transfer -/

/-- The listed registers in ascending order (R280, R281). -/
def listedRegs (list : BitVec 16) : List RegNum :=
  ([0, 1, 2, 3, 4, 5, 6, 7, 8, 9, 10, 11, 12, 13, 14, 15] : List RegNum).filter (fun r => list.getLsbD r.toNat)

/-- The first address and the write-back value for `n` registers (R281). -/
def blockRange (p u : Bool) (base : Word) (n : Nat) : Word × Word :=
  let size : Word := BitVec.ofNat 32 (4 * n)
  match p, u with
  | false, true  => (base, base + size)
  | true,  true  => (base + 4, base + size)
  | false, false => (base - size + 4, base - size)
  | true,  false => (base - size, base - size)

/-- The base of a block transfer: R15 comes with the PSR (R290). -/
def blockBase (s : State) (o : Bdt) : Word := s.operandR15 o.rn 2

/-- The lowest address a block transfer touches (R281). -/
def blockFirst (s : State) (o : Bdt) : Word := (blockRange o.p o.u (blockBase s o) (listedRegs o.list).length).1

/-- The write-back value of a block transfer (R281). -/
def blockFinal (s : State) (o : Bdt) : Word := (blockRange o.p o.u (blockBase s o) (listedRegs o.list).length).2

/-- Whether a block transfer writes the base back (R290). -/
def blockWb (o : Bdt) : Bool := o.w && decide (o.rn ≠ 15)

/-- A store multiple uses the user bank (R287, R292). -/
def storesUserBank (s : State) (o : Bdt) : Bool := o.s && decide (s.psr.mode ≠ .user)

/-- A load multiple uses the user bank (R287, R293). -/
def loadsUserBank (s : State) (o : Bdt) : Bool :=
  o.s && decide (s.psr.mode ≠ .user) && !o.list.getLsbD 15

/-- The address of word `i` of a transfer that begins at `first` (R281, R351). -/
def wordAddr (first : Word) (i : Nat) : Word := first + BitVec.ofNat 32 (4 * i)

/-! ### Coprocessor data transfer -/

/-- The address, the modified base and whether it is written back; the offset is in words (R351, R352). -/
def cdtAddr (s : State) (o : Cdt) : SdtAddr :=
  let base := s.operandPc o.rn 2
  let modified := offsetBase o.u base (o.offset8.setWidth 32 <<< 2)
  ⟨if o.p then modified else base, modified, !o.p || o.w⟩

end Sys2Proof.Machine
end

