-- ==== Sys2Proof/Machine/BlockTransfer.lean ====
section
/-! DEFINITION. LDM and STM (R280 to R301). -/

namespace Sys2Proof.Machine

/-- What stops a block transfer before any cycle: an empty list (R285, D19) or an unaligned first address (R286, D2). -/
def blockRefusal (s : State) (o : Bdt) : Option Refusal :=
  if listedRegs o.list = [] then some .emptyRegisterList
  else if aligned (blockFirst s o) then none
  else some .unalignedBlock

/-! ### Loading -/

/-- The words read for the listed registers, each with its register; none is an aborted read (R295). -/
def readBlock (s : State) (first : Word) : Nat → List RegNum → List (RegNum × Option Word)
  | _, [] => []
  | i, r :: rs => (r, s.readWord false (wordAddr first i)) :: readBlock s first (i + 1) rs

/-- The loads before the first abort, and whether there was one. -/
def untilAbort : List (RegNum × Option Word) → List (RegNum × Word) × Bool
  | [] => ([], false)
  | (_, none) :: _ => ([], true)
  | (r, some v) :: t => ((r, v) :: (untilAbort t).1, (untilAbort t).2)

/-- Loaded words to their registers; R15 is left to its own rule (R295). -/
def State.loadRegs (s : State) (userBank : Bool) : List (RegNum × Word) → State
  | [] => s
  | (r, v) :: t => (if r = 15 then s else s.setXIn userBank r v).loadRegs userBank t

/-- The word loaded for R15, if it is listed. -/
def loadedR15 : List (RegNum × Word) → Option Word
  | [] => none
  | (r, v) :: t => if r = 15 then some v else loadedR15 t

/-- A user-bank load opens the settling window (R42, R471). -/
def State.noteUserLoad (s : State) (userBank : Bool) : State :=
  { s with hazard := if userBank then .userBankLoaded else s.hazard }

/-- A load multiple without abort (R295): the base first, so that a loaded base wins (R288); then the registers; R15 last (R291). -/
def finishLdm (s : State) (o : Bdt) (loads : List (RegNum × Word)) : State :=
  let user := loadsUserBank s o
  let based := if blockWb o then s.setXIn user o.rn (blockFinal s o) else s
  let loaded := based.loadRegs user loads
  match loadedR15 loads with
  | some v => if o.s then loaded.returnTo v else loaded.branchTo v
  | none => loaded.advance.noteUserLoad user

/-- A load multiple that aborts (R297): the positions two or more before the abort are loaded, the base ends as the modified one with
write-back and as it was without (D25), and the data abort is taken. -/
def abortLdm (s : State) (o : Bdt) (before : List (RegNum × Word)) : State :=
  let user := loadsUserBank s o
  let loaded := s.loadRegs user before.dropLast
  let based :=
    if blockWb o then loaded.setXIn user o.rn (blockFinal s o)
    else if o.rn = 15 then loaded
    else loaded.setX o.rn (s.x o.rn)
  based.enter .dataAbort (s.pc + 2)

/-- LDM (R295). -/
def execLdm (o : Bdt) (s : State) : Result :=
  ifPassed o.cond s (
    match blockRefusal s o with
    | some r => .refused r
    | none =>
      match untilAbort (readBlock s (blockFirst s o) 0 (listedRegs o.list)) with
      | (loads, false) => .next (finishLdm s o loads)
      | (before, true) => .next (abortLdm s o before))

/-! ### Storing -/

/-- The value stored for register `r` at position `i` (R288, R289, R292). -/
def stmValue (s : State) (o : Bdt) (i : Nat) (r : RegNum) : Word :=
  if r = 15 then s.r15v 3
  else if r = o.rn ∧ blockWb o ∧ 0 < i then blockFinal s o
  else s.xIn (storesUserBank s o) r

/-- The values of a store multiple, in transfer order. -/
def stmValues (s : State) (o : Bdt) : Nat → List RegNum → List Word
  | _, [] => []
  | i, r :: rs => stmValue s o i r :: stmValues s o (i + 1) rs

/-- Words to ascending addresses, each cycle judged by itself (R298, D26); whether any aborted. -/
def State.writeWords (s : State) (forced : Bool) (first : Word) : Nat → List Word → Written
  | _, [] => ⟨s, false⟩
  | i, v :: vs =>
    let w := s.writeWord forced (wordAddr first i) v
    let rest := w.state.writeWords forced first (i + 1) vs
    ⟨rest.state, w.aborted || rest.aborted⟩

/-- The base write-back of a store multiple (R292, R296). -/
def stmBase (s : State) (o : Bdt) (t : State) : State :=
  if blockWb o then t.setXIn (storesUserBank s o) o.rn (blockFinal s o) else t

/-- STM (R296): an aborted one completes, writes its base back, and takes the data abort (R298). -/
def execStm (o : Bdt) (s : State) : Result :=
  ifPassed o.cond s (
    match blockRefusal s o with
    | some r => .refused r
    | none =>
      let w := s.writeWords false (blockFirst s o) 0 (stmValues s o 0 (listedRegs o.list))
      if w.aborted then .next ((stmBase s o w.state).enter .dataAbort (s.pc + 2))
      else .next (stmBase s o w.state).advance)

end Sys2Proof.Machine
end

