-- ==== Sys2Proof/Machine/Branch.lean ====
section
/-! DEFINITION. B and BL (R145, R146). -/

namespace Sys2Proof.Machine

/-- A + 8 plus the signed word offset (R117, R145); `branchTo` keeps bits 25:2. -/
def branchTarget (s : State) (offset24 : BitVec 24) : Word := s.pcv 2 + (offset24.signExtend 32 <<< 2)

/-- B (R145). -/
def execB (o : Br) (s : State) : Result :=
  ifPassed o.cond s (.next (s.branchTo (branchTarget s o.offset24)))

/-- BL (R146): R14 of the current bank gets the PSR and A + 4. -/
def execBl (o : Br) (s : State) : Result :=
  ifPassed o.cond s (.next ((s.setX 14 (s.r15v 1)).branchTo (branchTarget s o.offset24)))

end Sys2Proof.Machine
end

