-- ==== Sys2Proof/Machine/SingleTransfer.lean ====
section
/-! DEFINITION. LDR, LDRB, STR and STRB (R240 to R265). -/

namespace Sys2Proof.Machine

/-- Write a register that is R15's PC field when it is 15: a loaded Rd or a written-back Rn; the PSR stays (R246). -/
def State.setXorPc (s : State) (i : RegNum) (v : Word) : State := if i = 15 then s.branchTo v else s.setX i v

/-- The base write-back, if there is one (R242, R246). -/
def State.writeBack (s : State) (wb : Bool) (rn : RegNum) (modified : Word) : State :=
  if wb then s.setXorPc rn modified else s

/-- The unaligned word access this platform cannot make (R73); never so while `UNALIGNED_SUPPORT` holds (D1). -/
def refusesUnaligned (a : Word) : Bool := !aligned a && !Config.unalignedSupport

/-- The end of a load (R243): data abort (R252), or the base and then Rd, so that the loaded value wins (R245). -/
def finishLoad {α : Type} (o : Sdt α) (s : State) (t : SdtAddr) (loaded : Option Word) : State :=
  match loaded with
  | none => s.enter .dataAbort (s.pc + 2)
  | some v => (s.advance.writeBack t.wb o.rn t.modified).setXorPc o.rd v

/-- The end of a store (R243): data abort (R252), or the base write-back. -/
def finishStore {α : Type} (o : Sdt α) (w : Written) (t : SdtAddr) : State :=
  if w.aborted then w.state.enter .dataAbort (w.state.pc + 2)
  else w.state.advance.writeBack t.wb o.rn t.modified

/-- A word load (R260). -/
def loadWord {α : Type} (o : Sdt α) (offset : Word) (s : State) : Result :=
  let t := sdtAddr s o offset
  ifPassed o.cond s (
    if refusesUnaligned t.addr then .refused .unalignedUnsupported
    else .next (finishLoad o s t (s.readWord (forcedTran o.p o.w) t.addr)))

/-- A byte load, zero-extended (R261). -/
def loadByte {α : Type} (o : Sdt α) (offset : Word) (s : State) : Result :=
  let t := sdtAddr s o offset
  ifPassed o.cond s
    (.next (finishLoad o s t ((s.readByte (forcedTran o.p o.w) t.addr).map (fun b => b.setWidth 32))))

/-- The value a store sends: R15 is 12 bytes ahead with the PSR (R246). -/
def sdtStoreValue {α : Type} (o : Sdt α) (s : State) : Word := s.operandR15 o.rd 3

/-- A word store (R262). A store of the base it writes back has no meaning (R245, D20). -/
def storeWord {α : Type} (o : Sdt α) (offset : Word) (s : State) : Result :=
  let t := sdtAddr s o offset
  ifPassed o.cond s (
    if t.wb && o.rd == o.rn then .refused .storeOfWrittenBackBase
    else if refusesUnaligned t.addr then .refused .unalignedUnsupported
    else .next (finishStore o (s.writeWord (forcedTran o.p o.w) t.addr (sdtStoreValue o s)) t))

/-- A byte store: the low byte of the value (R263). -/
def storeByteOf {α : Type} (o : Sdt α) (offset : Word) (s : State) : Result :=
  let t := sdtAddr s o offset
  ifPassed o.cond s (
    if t.wb && o.rd == o.rn then .refused .storeOfWrittenBackBase
    else .next (finishStore o (s.writeByte (forcedTran o.p o.w) t.addr (field (sdtStoreValue o s) 0 8)) t))

/-- LDR, immediate offset (R260). -/
def execLdrImm (o : Sdt (BitVec 12)) (s : State) : Result := loadWord o (immOffset o.offset) s
/-- LDR, register offset (R260). -/
def execLdrReg (o : Sdt RegOp) (s : State) : Result := loadWord o (regOperand s o.offset).value s
/-- LDRB, immediate offset (R261). -/
def execLdrbImm (o : Sdt (BitVec 12)) (s : State) : Result := loadByte o (immOffset o.offset) s
/-- LDRB, register offset (R261). -/
def execLdrbReg (o : Sdt RegOp) (s : State) : Result := loadByte o (regOperand s o.offset).value s
/-- STR, immediate offset (R262). -/
def execStrImm (o : Sdt (BitVec 12)) (s : State) : Result := storeWord o (immOffset o.offset) s
/-- STR, register offset (R262). -/
def execStrReg (o : Sdt RegOp) (s : State) : Result := storeWord o (regOperand s o.offset).value s
/-- STRB, immediate offset (R263). -/
def execStrbImm (o : Sdt (BitVec 12)) (s : State) : Result := storeByteOf o (immOffset o.offset) s
/-- STRB, register offset (R263). -/
def execStrbReg (o : Sdt RegOp) (s : State) : Result := storeByteOf o (regOperand s o.offset).value s

end Sys2Proof.Machine
end

