-- ==== Sys2Proof/Machine/Traps.lean ====
section
/-! DEFINITION. SWI, the undefined instructions and the unallocated words (R320 to R328). -/

namespace Sys2Proof.Machine

/-- The undefined instruction trap, with A + 4 saved (R324, R344). -/
def State.undefinedTrap (s : State) : State := s.enter .undefinedInstruction (s.pc + 1)

/-- SWI (R320): the comment field is not read (R322). -/
def execSwi (o : Swi) (s : State) : Result := ifPassed o.cond s (.next (s.enter .softwareInterrupt (s.pc + 1)))

/-- UND1 (R324). -/
def execUndefined1 (o : Raw) (s : State) : Result := ifPassed o.cond s (.next s.undefinedTrap)

/-- UND2 (R324). -/
def execUndefined2 (o : Raw) (s : State) : Result := ifPassed o.cond s (.next s.undefinedTrap)

/-- An unallocated word whose condition passes, under `UNALLOC_POLICY` (R119, R326, D11). -/
def unallocatedWord (o : Raw) (s : State) : Result :=
  ifPassed o.cond s (
    match Config.unallocPolicy with
    | .refuse => .refused .unallocated
    | .undefinedTrap => .next s.undefinedTrap)

/-- Bit 23 set (R326). -/
def execUnallocatedA (o : Raw) (s : State) : Result := unallocatedWord o s
/-- Bits 23:22 = 01 (R326). -/
def execUnallocatedB (o : Raw) (s : State) : Result := unallocatedWord o s
/-- Bit 6 set (R326). -/
def execUnallocatedC (o : Raw) (s : State) : Result := unallocatedWord o s
/-- Bits 6:5 = 01 (R326). -/
def execUnallocatedD (o : Raw) (s : State) : Result := unallocatedWord o s

end Sys2Proof.Machine
end

