-- ==== Sys2Proof/Machine/Coprocessor.lean ====
section
/-! DEFINITION. The coprocessor instructions as the APRM performs them (R340 to R362), over attached coprocessors held as plain data. -/

namespace Sys2Proof.Machine

/-- A rule of a coprocessor covers an instruction word (R345). -/
def CoprocRule.hits (r : CoprocRule) (instr : Word) : Bool := instr &&& r.mask == r.pattern

/-- What comes of offering an instruction (R343). -/
inductive Offer where
  /-- No coprocessor accepts. -/
  | absent
  /-- A coprocessor accepts; `count` words for an LDC or STC, at least one (R345). -/
  | accepted (c : Coproc) (count : Nat)
  deriving DecidableEq, Repr

/-- `Coproc[CP#]` and `accepts` (R342, R343). -/
def offer (s : State) (cpNum : BitVec 4) (instr : Word) : Offer :=
  match s.coprocs[cpNum.toFin] with
  | none => .absent
  | some c =>
    match c.rules.find? (·.hits instr) with
    | none => .absent
    | some r => .accepted c (max 1 r.count)

/-- The coprocessor as it is after it took something in or gave something out. -/
def State.setCoproc (s : State) (cpNum : BitVec 4) (c : Coproc) : State :=
  { s with coprocs := s.coprocs.set cpNum.toFin (some c) }

/-- The coprocessor has been handed a message. -/
def Coproc.hand (c : Coproc) (m : CoprocMsg) : Coproc := { c with received := m :: c.received }

/-- The next `k` words a coprocessor supplies; free values where its queue is short (R345). -/
def supplied (s : State) (c : Coproc) : Nat → List Word
  | 0 => []
  | k + 1 => supplied s c k ++ [(c.outgoing[k]?).getD (s.freeWord k)]

/-- A supplied queue without its first `k` words. -/
def Coproc.dropOut (c : Coproc) (k : Nat) : Coproc := { c with outgoing := c.outgoing.drop k }

/-- Offer an instruction whose condition passes: the trap if it is absent (R344), waiting for ever if it is busy (R343), else its own effect. -/
def whenAccepted (c : Cond) (s : State) (cpNum : BitVec 4) (instr : Word) (k : Coproc → Nat → Result) : Result :=
  ifPassed c s (
    match offer s cpNum instr with
    | .absent => .next s.undefinedTrap
    | .accepted cp count => if cp.busy then .fault .coprocessorNeverReady else k cp count)

/-- CDP (R346). -/
def execCdp (o : Cdo) (s : State) : Result :=
  whenAccepted o.cond s o.cpNum (encodeCdo o) fun cp _ =>
    .next (s.setCoproc o.cpNum (cp.hand (.dataOp (encodeCdo o)))).advance

/-- MCR, coprocessor to APRM (R358): Rd = 15 gets N, Z, C, V alone (R359). -/
def execMcr (o : Crt) (s : State) : Result :=
  whenAccepted o.cond s o.cpNum (encodeCrt 1 o) fun cp _ =>
    let v := (cp.outgoing.head?).getD (s.freeWord 0)
    let t := (s.setCoproc o.cpNum ((cp.dropOut 1).hand (.toAprm (encodeCrt 1 o) v))).drawn 1
    .next (if o.rd = 15 then { t with psr := t.psr.writeFlags v } else t.setX o.rd v).advance

/-- The word an MRC sends: R15 is 8 or 12 bytes ahead, a free choice (R360, D22). -/
def mrcValue (o : Crt) (s : State) : Word :=
  if o.rd = 15 then (if s.freeBit 0 then s.r15v 3 else s.r15v 2) else s.x o.rd

/-- MRC, APRM to coprocessor (R360). -/
def execMrc (o : Crt) (s : State) : Result :=
  whenAccepted o.cond s o.cpNum (encodeCrt 0 o) fun cp _ =>
    .next ((s.setCoproc o.cpNum (cp.hand (.fromAprm (encodeCrt 0 o) (mrcValue o s)))).drawn 1).advance

/-- What stops an accepted LDC or STC before any cycle: base R15 with write-back (R352, D22), or an unaligned first address (R351, D2). -/
def cdtRefusal (s : State) (o : Cdt) : Option Refusal :=
  let t := cdtAddr s o
  if o.rn = 15 ∧ t.wb then some .coprocessorBaseR15WriteBack
  else if aligned t.addr then none
  else some .unalignedBlock

/-- The words an LDC reads; none is an aborted read (R354). -/
def readWords (s : State) (forced : Bool) (first : Word) : Nat → Nat → List (Option Word)
  | _, 0 => []
  | i, k + 1 => s.readWord forced (wordAddr first i) :: readWords s forced first (i + 1) k

/-- The base write-back of an LDC or STC, which an abort does not prevent (R354, R355). -/
def cdtWriteBack (o : Cdt) (t : SdtAddr) (s : State) : State := if t.wb then s.setX o.rn t.modified else s

/-- LDC (R354); on an abort the base is written back and the data abort taken, and the coprocessor is as before it (R355; log entry 12). -/
def execLdc (o : Cdt) (s : State) : Result :=
  whenAccepted o.cond s o.cpNum (encodeCdt 1 o) fun cp k =>
    match cdtRefusal s o with
    | some r => .refused r
    | none =>
      let t := cdtAddr s o
      let ws := readWords s (forcedTran o.p o.w) t.addr 0 k
      if ws.contains none then .next ((cdtWriteBack o t s).enter .dataAbort (s.pc + 2))
      else .next (cdtWriteBack o t (s.setCoproc o.cpNum (cp.hand (.loaded (encodeCdt 1 o) (ws.filterMap id))))).advance

/-- STC (R354); each write cycle is judged by itself, and an abort is as for LDC (R355). -/
def execStc (o : Cdt) (s : State) : Result :=
  whenAccepted o.cond s o.cpNum (encodeCdt 0 o) fun cp k =>
    match cdtRefusal s o with
    | some r => .refused r
    | none =>
      let t := cdtAddr s o
      let ws := supplied s cp k
      let w := (s.drawn k).writeWords (forcedTran o.p o.w) t.addr 0 ws
      if w.aborted then .next ((cdtWriteBack o t w.state).enter .dataAbort (s.pc + 2))
      else .next (cdtWriteBack o t (w.state.setCoproc o.cpNum ((cp.dropOut k).hand (.stored (encodeCdt 0 o) ws)))).advance

end Sys2Proof.Machine
end

