-- ==== Sys2Proof/Machine/DataProcessing.lean ====
section
/-! DEFINITION. The data processing instructions (R160 to R197): one template for the result-producing opcodes, one for the tests, and a
meaning for each row. -/

namespace Sys2Proof.Machine

/-- The end of a result-producing operation (R160): the register and flags, or R15 with or without the PSR (R172, R174). -/
def State.writeResult (s : State) (setFlags : Bool) (rd : RegNum) (r : AluOut) : State :=
  if rd = 15 then
    if setFlags then s.returnTo r.value else s.branchTo r.value
  else if setFlags then ((s.setX rd r.value).setFlags r).advance
  else (s.setX rd r.value).advance

/-- The end of a test (R160): the flags, or with Rd = 15 the PSR; the PC is not written (R173). -/
def State.writeTest (s : State) (rd : RegNum) (r : AluOut) : State :=
  if rd = 15 then (s.writePsrOnly r.value).advance else (s.setFlags r).advance

/-- A result-producing operation, immediate operand 2: Rn = 15 is 8 bytes ahead (R166). -/
def dpImm (f : AluFn) (o : Dp ImmOp) (s : State) : Result :=
  let op2 := immOperand s.psr.c o.op2
  ifPassed o.cond s (.next (s.writeResult o.s o.rd (f s.psr (s.operandPc o.rn 2) op2.value op2.carry)))

/-- A result-producing operation, shift amount in the instruction: Rn = 15 is 8 bytes ahead (R166). -/
def dpReg (f : AluFn) (o : Dp RegOp) (s : State) : Result :=
  let op2 := regOperand s o.op2
  ifPassed o.cond s (.next (s.writeResult o.s o.rd (f s.psr (s.operandPc o.rn 2) op2.value op2.carry)))

/-- A result-producing operation, shift amount in a register: Rn = 15 is 12 bytes ahead (R166). -/
def dpRegShift (f : AluFn) (o : Dp RegShiftOp) (s : State) : Result :=
  let op2 := regShiftOperand s o.op2
  ifPassed o.cond s (.next (s.writeResult o.s o.rd (f s.psr (s.operandPc o.rn 3) op2.value op2.carry)))

/-- A test, immediate operand 2 (R173). -/
def testImm (f : AluFn) (o : Test ImmOp) (s : State) : Result :=
  let op2 := immOperand s.psr.c o.op2
  ifPassed o.cond s (.next (s.writeTest o.rd (f s.psr (s.operandPc o.rn 2) op2.value op2.carry)))

/-- A test, shift amount in the instruction (R173). -/
def testReg (f : AluFn) (o : Test RegOp) (s : State) : Result :=
  let op2 := regOperand s o.op2
  ifPassed o.cond s (.next (s.writeTest o.rd (f s.psr (s.operandPc o.rn 2) op2.value op2.carry)))

/-- A test, shift amount in a register (R173). -/
def testRegShift (f : AluFn) (o : Test RegShiftOp) (s : State) : Result :=
  let op2 := regShiftOperand s o.op2
  ifPassed o.cond s (.next (s.writeTest o.rd (f s.psr (s.operandPc o.rn 3) op2.value op2.carry)))

/-- AND, immediate operand 2 (R180). -/
def execAndImm (o : Dp ImmOp) (s : State) : Result := dpImm aluAnd o s
/-- AND, shift amount in the instruction (R180). -/
def execAndReg (o : Dp RegOp) (s : State) : Result := dpReg aluAnd o s
/-- AND, shift amount in a register (R180). -/
def execAndRegShift (o : Dp RegShiftOp) (s : State) : Result := dpRegShift aluAnd o s

/-- EOR, immediate operand 2 (R181). -/
def execEorImm (o : Dp ImmOp) (s : State) : Result := dpImm aluEor o s
/-- EOR, shift amount in the instruction (R181). -/
def execEorReg (o : Dp RegOp) (s : State) : Result := dpReg aluEor o s
/-- EOR, shift amount in a register (R181). -/
def execEorRegShift (o : Dp RegShiftOp) (s : State) : Result := dpRegShift aluEor o s

/-- SUB, immediate operand 2 (R182). -/
def execSubImm (o : Dp ImmOp) (s : State) : Result := dpImm aluSub o s
/-- SUB, shift amount in the instruction (R182). -/
def execSubReg (o : Dp RegOp) (s : State) : Result := dpReg aluSub o s
/-- SUB, shift amount in a register (R182). -/
def execSubRegShift (o : Dp RegShiftOp) (s : State) : Result := dpRegShift aluSub o s

/-- RSB, immediate operand 2 (R183). -/
def execRsbImm (o : Dp ImmOp) (s : State) : Result := dpImm aluRsb o s
/-- RSB, shift amount in the instruction (R183). -/
def execRsbReg (o : Dp RegOp) (s : State) : Result := dpReg aluRsb o s
/-- RSB, shift amount in a register (R183). -/
def execRsbRegShift (o : Dp RegShiftOp) (s : State) : Result := dpRegShift aluRsb o s

/-- ADD, immediate operand 2 (R184). -/
def execAddImm (o : Dp ImmOp) (s : State) : Result := dpImm aluAdd o s
/-- ADD, shift amount in the instruction (R184). -/
def execAddReg (o : Dp RegOp) (s : State) : Result := dpReg aluAdd o s
/-- ADD, shift amount in a register (R184). -/
def execAddRegShift (o : Dp RegShiftOp) (s : State) : Result := dpRegShift aluAdd o s

/-- ADC, immediate operand 2 (R185). -/
def execAdcImm (o : Dp ImmOp) (s : State) : Result := dpImm aluAdc o s
/-- ADC, shift amount in the instruction (R185). -/
def execAdcReg (o : Dp RegOp) (s : State) : Result := dpReg aluAdc o s
/-- ADC, shift amount in a register (R185). -/
def execAdcRegShift (o : Dp RegShiftOp) (s : State) : Result := dpRegShift aluAdc o s

/-- SBC, immediate operand 2 (R186). -/
def execSbcImm (o : Dp ImmOp) (s : State) : Result := dpImm aluSbc o s
/-- SBC, shift amount in the instruction (R186). -/
def execSbcReg (o : Dp RegOp) (s : State) : Result := dpReg aluSbc o s
/-- SBC, shift amount in a register (R186). -/
def execSbcRegShift (o : Dp RegShiftOp) (s : State) : Result := dpRegShift aluSbc o s

/-- RSC, immediate operand 2 (R187). -/
def execRscImm (o : Dp ImmOp) (s : State) : Result := dpImm aluRsc o s
/-- RSC, shift amount in the instruction (R187). -/
def execRscReg (o : Dp RegOp) (s : State) : Result := dpReg aluRsc o s
/-- RSC, shift amount in a register (R187). -/
def execRscRegShift (o : Dp RegShiftOp) (s : State) : Result := dpRegShift aluRsc o s

/-- TST, immediate operand 2 (R188). -/
def execTstImm (o : Test ImmOp) (s : State) : Result := testImm aluTst o s
/-- TST, shift amount in the instruction (R188). -/
def execTstReg (o : Test RegOp) (s : State) : Result := testReg aluTst o s
/-- TST, shift amount in a register (R188). -/
def execTstRegShift (o : Test RegShiftOp) (s : State) : Result := testRegShift aluTst o s

/-- TEQ, immediate operand 2 (R189). -/
def execTeqImm (o : Test ImmOp) (s : State) : Result := testImm aluTeq o s
/-- TEQ, shift amount in the instruction (R189). -/
def execTeqReg (o : Test RegOp) (s : State) : Result := testReg aluTeq o s
/-- TEQ, shift amount in a register (R189). -/
def execTeqRegShift (o : Test RegShiftOp) (s : State) : Result := testRegShift aluTeq o s

/-- CMP, immediate operand 2 (R190). -/
def execCmpImm (o : Test ImmOp) (s : State) : Result := testImm aluCmp o s
/-- CMP, shift amount in the instruction (R190). -/
def execCmpReg (o : Test RegOp) (s : State) : Result := testReg aluCmp o s
/-- CMP, shift amount in a register (R190). -/
def execCmpRegShift (o : Test RegShiftOp) (s : State) : Result := testRegShift aluCmp o s

/-- CMN, immediate operand 2 (R191). -/
def execCmnImm (o : Test ImmOp) (s : State) : Result := testImm aluCmn o s
/-- CMN, shift amount in the instruction (R191). -/
def execCmnReg (o : Test RegOp) (s : State) : Result := testReg aluCmn o s
/-- CMN, shift amount in a register (R191). -/
def execCmnRegShift (o : Test RegShiftOp) (s : State) : Result := testRegShift aluCmn o s

/-- ORR, immediate operand 2 (R192). -/
def execOrrImm (o : Dp ImmOp) (s : State) : Result := dpImm aluOrr o s
/-- ORR, shift amount in the instruction (R192). -/
def execOrrReg (o : Dp RegOp) (s : State) : Result := dpReg aluOrr o s
/-- ORR, shift amount in a register (R192). -/
def execOrrRegShift (o : Dp RegShiftOp) (s : State) : Result := dpRegShift aluOrr o s

/-- MOV, immediate operand 2 (R193). -/
def execMovImm (o : Dp ImmOp) (s : State) : Result := dpImm aluMov o s
/-- MOV, shift amount in the instruction (R193). -/
def execMovReg (o : Dp RegOp) (s : State) : Result := dpReg aluMov o s
/-- MOV, shift amount in a register (R193). -/
def execMovRegShift (o : Dp RegShiftOp) (s : State) : Result := dpRegShift aluMov o s

/-- BIC, immediate operand 2 (R194). -/
def execBicImm (o : Dp ImmOp) (s : State) : Result := dpImm aluBic o s
/-- BIC, shift amount in the instruction (R194). -/
def execBicReg (o : Dp RegOp) (s : State) : Result := dpReg aluBic o s
/-- BIC, shift amount in a register (R194). -/
def execBicRegShift (o : Dp RegShiftOp) (s : State) : Result := dpRegShift aluBic o s

/-- MVN, immediate operand 2 (R195). -/
def execMvnImm (o : Dp ImmOp) (s : State) : Result := dpImm aluMvn o s
/-- MVN, shift amount in the instruction (R195). -/
def execMvnReg (o : Dp RegOp) (s : State) : Result := dpReg aluMvn o s
/-- MVN, shift amount in a register (R195). -/
def execMvnRegShift (o : Dp RegShiftOp) (s : State) : Result := dpRegShift aluMvn o s

/-- A test with S = 0 has no meaning when its condition passes (R175, D12). -/
def unspecifiedTest (o : Raw) (s : State) : Result := ifPassed o.cond s (.refused .testWithoutS)

/-- TST, TEQ, CMP, CMN with S = 0 (R175). -/
def execUnspecifiedTestS0Imm (o : Raw) (s : State) : Result := unspecifiedTest o s
/-- TST, TEQ, CMP, CMN with S = 0 (R175). -/
def execUnspecifiedTestS0Reg (o : Raw) (s : State) : Result := unspecifiedTest o s
/-- TST, TEQ, CMP, CMN with S = 0 (R175). -/
def execUnspecifiedTestS0RegShift (o : Raw) (s : State) : Result := unspecifiedTest o s

end Sys2Proof.Machine
end

