-- ==== Sys2Proof/Machine/Multiply.lean ====
section
/-! DEFINITION. MUL and MLA (R220 to R229). -/

namespace Sys2Proof.Machine

/-- The product of the operands plus an addend: R15 as Rm is 12 bytes ahead with the PSR, as Rs 8 bytes ahead without (R224). -/
def mulValue (o : Mul) (s : State) (addend : Word) : Word :=
  mulAdd (s.operandR15 o.rm 3) (s.operandPc o.rs 2) addend

/-- N and Z of a multiply's result; C is a free bit, V stays (R226). One draw. -/
def State.setMulFlags (s : State) (r : Word) : State :=
  ({ s with psr := { s.psr with n := r.msb, z := r == 0, c := s.freeBit 0 } } : State).drawn 1

/-- Rd = 15 (R223): nothing is written; with S, N, Z, C and V are free bits. Four draws. -/
def mulToR15 (o : Mul) (s : State) : State :=
  if o.s then
    (({ s with psr := { s.psr with n := s.freeBit 0, z := s.freeBit 1, c := s.freeBit 2, v := s.freeBit 3 } } : State).drawn 4).advance
  else s.advance

/-- A multiply that writes `r` to Rd, with its flags if S (R221, R226). -/
def mulResult (o : Mul) (s : State) (r : Word) : State :=
  if o.s then ((s.setX o.rd r).setMulFlags r).advance else (s.setX o.rd r).advance

/-- MLA with Rd = Rm (R223): a free word to Rd and, with S, free N, Z and C. -/
def mlaMeaningless (o : Mul) (s : State) : State :=
  if o.s then
    ((({ s with psr := { s.psr with n := s.freeBit 0, z := s.freeBit 1, c := s.freeBit 2 } } : State).setX o.rd (s.freeWord 0)).drawn 3).advance
  else ((s.setX o.rd (s.freeWord 0)).drawn 1).advance

/-- MUL (R221): zero when Rd = Rm (R223). -/
def execMul (o : Mul) (s : State) : Result :=
  ifPassed o.cond s (.next (
    if o.rd = 15 then mulToR15 o s
    else if o.rd = o.rm then mulResult o s 0
    else mulResult o s (mulValue o s 0)))

/-- MLA (R222): the addend Rn reads R15 8 bytes ahead with the PSR (R224). -/
def execMla (o : Mul) (s : State) : Result :=
  ifPassed o.cond s (.next (
    if o.rd = 15 then mulToR15 o s
    else if o.rd = o.rm then mlaMeaningless o s
    else mulResult o s (mulValue o s (s.operandR15 o.rn 2))))

end Sys2Proof.Machine
end

