-- ==== Sys2Proof/Machine/Dispatch.lean ====
section
/-! DEFINITION. One arm per instruction: the call of its meaning. -/

namespace Sys2Proof.Machine

def exec (i : Instr) (s : State) : Host.Outcome State Fault Refusal :=
  match i with
  | .andImm o => Sys2Proof.Machine.execAndImm o s
  | .andReg o => Sys2Proof.Machine.execAndReg o s
  | .andRegShift o => Sys2Proof.Machine.execAndRegShift o s
  | .eorImm o => Sys2Proof.Machine.execEorImm o s
  | .eorReg o => Sys2Proof.Machine.execEorReg o s
  | .eorRegShift o => Sys2Proof.Machine.execEorRegShift o s
  | .subImm o => Sys2Proof.Machine.execSubImm o s
  | .subReg o => Sys2Proof.Machine.execSubReg o s
  | .subRegShift o => Sys2Proof.Machine.execSubRegShift o s
  | .rsbImm o => Sys2Proof.Machine.execRsbImm o s
  | .rsbReg o => Sys2Proof.Machine.execRsbReg o s
  | .rsbRegShift o => Sys2Proof.Machine.execRsbRegShift o s
  | .addImm o => Sys2Proof.Machine.execAddImm o s
  | .addReg o => Sys2Proof.Machine.execAddReg o s
  | .addRegShift o => Sys2Proof.Machine.execAddRegShift o s
  | .adcImm o => Sys2Proof.Machine.execAdcImm o s
  | .adcReg o => Sys2Proof.Machine.execAdcReg o s
  | .adcRegShift o => Sys2Proof.Machine.execAdcRegShift o s
  | .sbcImm o => Sys2Proof.Machine.execSbcImm o s
  | .sbcReg o => Sys2Proof.Machine.execSbcReg o s
  | .sbcRegShift o => Sys2Proof.Machine.execSbcRegShift o s
  | .rscImm o => Sys2Proof.Machine.execRscImm o s
  | .rscReg o => Sys2Proof.Machine.execRscReg o s
  | .rscRegShift o => Sys2Proof.Machine.execRscRegShift o s
  | .tstImm o => Sys2Proof.Machine.execTstImm o s
  | .tstReg o => Sys2Proof.Machine.execTstReg o s
  | .tstRegShift o => Sys2Proof.Machine.execTstRegShift o s
  | .teqImm o => Sys2Proof.Machine.execTeqImm o s
  | .teqReg o => Sys2Proof.Machine.execTeqReg o s
  | .teqRegShift o => Sys2Proof.Machine.execTeqRegShift o s
  | .cmpImm o => Sys2Proof.Machine.execCmpImm o s
  | .cmpReg o => Sys2Proof.Machine.execCmpReg o s
  | .cmpRegShift o => Sys2Proof.Machine.execCmpRegShift o s
  | .cmnImm o => Sys2Proof.Machine.execCmnImm o s
  | .cmnReg o => Sys2Proof.Machine.execCmnReg o s
  | .cmnRegShift o => Sys2Proof.Machine.execCmnRegShift o s
  | .orrImm o => Sys2Proof.Machine.execOrrImm o s
  | .orrReg o => Sys2Proof.Machine.execOrrReg o s
  | .orrRegShift o => Sys2Proof.Machine.execOrrRegShift o s
  | .movImm o => Sys2Proof.Machine.execMovImm o s
  | .movReg o => Sys2Proof.Machine.execMovReg o s
  | .movRegShift o => Sys2Proof.Machine.execMovRegShift o s
  | .bicImm o => Sys2Proof.Machine.execBicImm o s
  | .bicReg o => Sys2Proof.Machine.execBicReg o s
  | .bicRegShift o => Sys2Proof.Machine.execBicRegShift o s
  | .mvnImm o => Sys2Proof.Machine.execMvnImm o s
  | .mvnReg o => Sys2Proof.Machine.execMvnReg o s
  | .mvnRegShift o => Sys2Proof.Machine.execMvnRegShift o s
  | .unspecifiedTestS0Imm o => Sys2Proof.Machine.execUnspecifiedTestS0Imm o s
  | .unspecifiedTestS0Reg o => Sys2Proof.Machine.execUnspecifiedTestS0Reg o s
  | .unspecifiedTestS0RegShift o => Sys2Proof.Machine.execUnspecifiedTestS0RegShift o s
  | .mul o => Sys2Proof.Machine.execMul o s
  | .mla o => Sys2Proof.Machine.execMla o s
  | .undefined1 o => Sys2Proof.Machine.execUndefined1 o s
  | .unallocatedA o => Sys2Proof.Machine.execUnallocatedA o s
  | .unallocatedB o => Sys2Proof.Machine.execUnallocatedB o s
  | .unallocatedC o => Sys2Proof.Machine.execUnallocatedC o s
  | .unallocatedD o => Sys2Proof.Machine.execUnallocatedD o s
  | .ldrImm o => Sys2Proof.Machine.execLdrImm o s
  | .ldrReg o => Sys2Proof.Machine.execLdrReg o s
  | .ldrbImm o => Sys2Proof.Machine.execLdrbImm o s
  | .ldrbReg o => Sys2Proof.Machine.execLdrbReg o s
  | .strImm o => Sys2Proof.Machine.execStrImm o s
  | .strReg o => Sys2Proof.Machine.execStrReg o s
  | .strbImm o => Sys2Proof.Machine.execStrbImm o s
  | .strbReg o => Sys2Proof.Machine.execStrbReg o s
  | .undefined2 o => Sys2Proof.Machine.execUndefined2 o s
  | .ldm o => Sys2Proof.Machine.execLdm o s
  | .stm o => Sys2Proof.Machine.execStm o s
  | .b o => Sys2Proof.Machine.execB o s
  | .bl o => Sys2Proof.Machine.execBl o s
  | .ldc o => Sys2Proof.Machine.execLdc o s
  | .stc o => Sys2Proof.Machine.execStc o s
  | .cdp o => Sys2Proof.Machine.execCdp o s
  | .mcr o => Sys2Proof.Machine.execMcr o s
  | .mrc o => Sys2Proof.Machine.execMrc o s
  | .swi o => Sys2Proof.Machine.execSwi o s

end Sys2Proof.Machine
end

