-- ==== Sys2Proof/Machine/Boundary.lean ====
section
/-! DEFINITION. The instruction boundary (R422, R424): reset, FIRQ and IRQ before the next instruction; and its fetch (R72, R404). -/

namespace Sys2Proof.Machine

/-- The inputs at the boundary after this one; without a schedule they keep their level (R41), and RES does not rise again. -/
def State.nextPins (s : State) : State :=
  match s.pinSchedule with
  | [] => { s with pins := { s.pins with cut := .no } }
  | p :: ps => { s with pins := p, pinSchedule := ps }

/-- The state in which the instruction at the pc begins: the inputs have been sampled, the settling window closes with it and the
bus cycles are this instruction's (R83, R422, R470). -/
def State.beginInstr (s : State) : State := { s.nextPins with hazard := .clear, begun := s.begun + 1 }

/-- RES is high: no instruction has any effect (R460). -/
def State.heldInReset (s : State) : State := { s with inReset := true }.nextPins

/-- RES has gone low again: the reset entry; the inputs are sampled anew with the first instruction (R402, R460). What a reset does to
an attached coprocessor the spec does not describe (R46): here it stays as it was, its queue and its record too. DESIGN CHOICE,
unsafe (log entry 27). -/
def State.leaveReset (s : State) : State := { s with inReset := false }.enter .reset 0

/-- RES has gone high in the middle of what ran here: no-ops follow until it is low again, and then the reset entry, which writes the
PC, I, F, the mode and R14_svc whatever was done to them (R45, R460, R462). -/
def State.abandon (s : State) : State := { s with inReset := true, pipe := Pipeline.fresh, hazard := .clear }

/-- An interrupt entry, with N + 4 saved (R420, R421). One that RES cuts leaves a free value in the R14 it writes (R462; log entry 14). -/
def State.interrupt (s : State) (e : Trap) : State :=
  let t := s.enter e (s.pc + 1)
  if s.pins.cut = .atOnce then
    ({ t with regs := t.regs.set (linkReg e.mode) (t.freeWord 0) }.drawn 1).abandon.nextPins
  else t

/-- What comes before the instruction at the pc, in order of priority (R424): reset, FIRQ when F is clear (R420), IRQ when I is clear
(R421). None: the instruction runs. -/
def boundary (s : State) : Option State :=
  if s.pins.res then some s.heldInReset
  else if s.inReset then some s.leaveReset
  else if s.pins.firq && !s.psr.f then some (s.interrupt .firq)
  else if s.pins.irq && !s.psr.i then some (s.interrupt .irq)
  else none

/-- The bus cycle of an instruction fetch: the upper six address bits are low (R32, R72). -/
def fetchCycle (s : State) : BusCycle := ⟨s.bus (s.pcv 0), .fetch, false, s.tran false, s.psr.mode⟩

/-- `Fetch(A)` (R72); none is `abort`. -/
def fetch (s : State) : Option Word := if s.aborted (fetchCycle s) then none else some (s.wordAt (s.pcv 0))

/-- The prefetch abort trap, taken whatever the word holds (R404, D27). -/
def State.prefetchAbort (s : State) : State := s.enter .prefetchAbort (s.pc + 1)

/-- A region says that some byte of the word at `a` has no memory. -/
def MemRegion.hides (r : MemRegion) (a : Word) : Bool :=
  decide (r.kind = .absent) && (r.covers a || r.covers (a + 1) || r.covers (a + 2) || r.covers (a + 3))

/-- Store four bytes without a bus cycle: how a word comes to lie in memory from outside. -/
def Memory.writeList (m : Memory) (a : Word) : List Byte → Memory
  | [] => m
  | b :: bs => (m.write a.toNat b).writeList (a + 1) bs

/-- The word lies at the pc and nothing stands before its execution: no request or reset is pending, no settling window is open, the
prefetched words are as in memory, memory answers there, and no rule of the memory manager aborts the fetch. -/
def State.placeAtPc (s : State) (w : Word) : State :=
  { s with
    mem := s.mem.writeList (s.bus (s.pcv 0)) (bytesOfWord w)
    memMap := { s.memMap with regions := s.memMap.regions.filter (fun r => !r.hides (s.bus (s.pcv 0))) }
    pipe := Pipeline.fresh
    hazard := .clear
    pins := Pins.idle
    inReset := false
    aborts := s.aborts.filter (fun r => !r.hits s.begun (fetchCycle s)) }

end Sys2Proof.Machine
end

