-- ==== Sys2Proof/Machine/Hazard.lean ====
section
/-! DEFINITION. The bank-switch hazards (R470, R471): which register fields an instruction uses, and which it reads. -/

namespace Sys2Proof.Machine

/-- R8 to R14, the registers some mode replaces. -/
def isBanked (i : RegNum) : Bool := decide (8 ≤ i.toNat) && decide (i.toNat ≤ 14)

/-- An attached coprocessor accepts the instruction; otherwise it traps and uses no register (R344). -/
def accepts (s : State) (cpNum : BitVec 4) (instr : Word) : Bool :=
  match offer s cpNum instr with
  | .absent => false
  | .accepted _ _ => true

/-- The register fields an instruction reads: Rn, Rm, Rs, a stored Rd, a base, a list stored (R471). -/
def regsRead (s : State) : Instr → List RegNum
  | .andImm o | .eorImm o | .subImm o | .rsbImm o | .addImm o | .adcImm o
  | .sbcImm o | .rscImm o | .orrImm o | .bicImm o => [o.rn]
  | .andReg o | .eorReg o | .subReg o | .rsbReg o | .addReg o | .adcReg o
  | .sbcReg o | .rscReg o | .orrReg o | .bicReg o => [o.rn, o.op2.rm]
  | .andRegShift o | .eorRegShift o | .subRegShift o | .rsbRegShift o | .addRegShift o | .adcRegShift o
  | .sbcRegShift o | .rscRegShift o | .orrRegShift o | .bicRegShift o => [o.rn, o.op2.rm, o.op2.rs]
  | .tstImm o | .teqImm o | .cmpImm o | .cmnImm o => [o.rn]
  | .tstReg o | .teqReg o | .cmpReg o | .cmnReg o => [o.rn, o.op2.rm]
  | .tstRegShift o | .teqRegShift o | .cmpRegShift o | .cmnRegShift o => [o.rn, o.op2.rm, o.op2.rs]
  | .movImm _ | .mvnImm _ => []
  | .movReg o | .mvnReg o => [o.op2.rm]
  | .movRegShift o | .mvnRegShift o => [o.op2.rm, o.op2.rs]
  | .unspecifiedTestS0Imm _ | .unspecifiedTestS0Reg _ | .unspecifiedTestS0RegShift _ | .undefined1 _ | .unallocatedA _ | .unallocatedB _
  | .unallocatedC _ | .unallocatedD _ | .undefined2 _ => []
  | .mul o => [o.rm, o.rs]
  | .mla o => [o.rm, o.rs, o.rn]
  | .ldrImm o | .ldrbImm o => [o.rn]
  | .ldrReg o | .ldrbReg o => [o.rn, o.offset.rm]
  | .strImm o | .strbImm o => [o.rd, o.rn]
  | .strReg o | .strbReg o => [o.rd, o.rn, o.offset.rm]
  | .ldm o => [o.rn]
  | .stm o => o.rn :: listedRegs o.list
  | .b _ | .bl _ => []
  | .ldc o => if accepts s o.cpNum (encodeCdt 1 o) then [o.rn] else []
  | .stc o => if accepts s o.cpNum (encodeCdt 0 o) then [o.rn] else []
  | .cdp _ => []
  | .mcr _ => []
  | .mrc o => if accepts s o.cpNum (encodeCrt 0 o) then [o.rd] else []
  | .swi _ => []

/-- The register fields an instruction writes (R470). -/
def regsWritten (s : State) : Instr → List RegNum
  | .andImm o | .eorImm o | .subImm o | .rsbImm o | .addImm o | .adcImm o
  | .sbcImm o | .rscImm o | .orrImm o | .movImm o | .bicImm o | .mvnImm o => [o.rd]
  | .andReg o | .eorReg o | .subReg o | .rsbReg o | .addReg o | .adcReg o
  | .sbcReg o | .rscReg o | .orrReg o | .movReg o | .bicReg o | .mvnReg o => [o.rd]
  | .andRegShift o | .eorRegShift o | .subRegShift o | .rsbRegShift o | .addRegShift o | .adcRegShift o
  | .sbcRegShift o | .rscRegShift o | .orrRegShift o | .movRegShift o | .bicRegShift o | .mvnRegShift o => [o.rd]
  | .tstImm _ | .teqImm _ | .cmpImm _ | .cmnImm _ => []
  | .tstReg _ | .teqReg _ | .cmpReg _ | .cmnReg _ => []
  | .tstRegShift _ | .teqRegShift _ | .cmpRegShift _ | .cmnRegShift _ => []
  | .unspecifiedTestS0Imm _ | .unspecifiedTestS0Reg _ | .unspecifiedTestS0RegShift _ | .undefined1 _ | .unallocatedA _ | .unallocatedB _
  | .unallocatedC _ | .unallocatedD _ | .undefined2 _ => []
  | .mul o | .mla o => [o.rd]
  | .ldrImm o | .ldrbImm o => [o.rd]
  | .ldrReg o | .ldrbReg o => [o.rd]
  | .strImm _ | .strbImm _ => []
  | .strReg _ | .strbReg _ => []
  | .ldm o => listedRegs o.list
  | .stm _ => []
  | .b _ | .bl _ => []
  | .ldc _ | .stc _ => []
  | .cdp _ => []
  | .mcr o => if accepts s o.cpNum (encodeCrt 1 o) then [o.rd] else []
  | .mrc _ => []
  | .swi _ => []

/-- The instruction executed next falls in the settling window: it names a banked register after a mode change (R470), or reads
one after a user-bank load (R471). An instruction whose condition fails is safe. -/
def hazardBlocks (s : State) (i : Instr) : Bool :=
  condPassed i.cond s.psr &&
    match s.hazard with
    | .clear => false
    | .modeChanged => (regsRead s i ++ regsWritten s i).any isBanked
    | .userBankLoaded => (regsRead s i).any isBanked

end Sys2Proof.Machine
end

