-- ==== Sys2Proof/Machine/WarmReset.lean ====
section
/-! DEFINITION. An instruction that RES cuts (R45, R462, D13): what it would have written holds free values, and no-ops follow. -/

namespace Sys2Proof.Machine

/-! ### Write sets -/

/-- The flags an instruction writes. -/
inductive FlagSet where
  | none
  /-- N, Z and C. -/
  | nzc
  /-- N, Z, C and V. -/
  | nzcv
  deriving DecidableEq, Repr

/-- The bytes an instruction stores: `size` bytes from `addr` on, one, or a number of words. -/
structure StoreSet where
  addr : Word
  size : Nat
  /-- Translation is forced (R248, R353). -/
  forced : Bool
  deriving DecidableEq, Repr

/-- What an instruction may write, but for R14_svc, the PC, I, F and the mode, which the reset entry writes in any case. -/
structure WriteSet where
  regs  : List PhysReg
  flags : FlagSet
  store : StoreSet
  deriving DecidableEq, Repr

/-- No byte. -/
def StoreSet.empty : StoreSet := ⟨0, 0, false⟩

/-- Nothing. -/
def WriteSet.empty : WriteSet := ⟨[], .none, .empty⟩

/-- The physical registers of some numbers in the bank of a mode; R15 is none of them. -/
def physAll (m : Mode) (is : List RegNum) : List PhysReg := is.filterMap (phys m)

/-- Rd, and the flags with S; all four of them where Rd is R15 (R172, R223). -/
def resultWrites (s : State) (rd : RegNum) (setsFlags : Bool) (flags : FlagSet) : WriteSet :=
  ⟨physAll s.psr.mode [rd], if setsFlags then (if rd = 15 then .nzcv else flags) else .none, .empty⟩

/-- The flags of a test; all four of them where Rd is R15 (R173). -/
def testWrites (rd : RegNum) (flags : FlagSet) : WriteSet := ⟨[], if rd = 15 then .nzcv else flags, .empty⟩

/-- The base, where it is written back. -/
def baseWritten (t : SdtAddr) (rn : RegNum) : List RegNum := if t.wb then [rn] else []

/-- Rd and a written-back base (R243). -/
def loadWrites {α : Type} (s : State) (o : Sdt α) (offset : Word) : WriteSet :=
  ⟨physAll s.psr.mode (o.rd :: baseWritten (sdtAddr s o offset) o.rn), .none, .empty⟩

/-- The stored bytes and a written-back base (R243). -/
def storeWrites {α : Type} (s : State) (o : Sdt α) (offset : Word) (size : Nat) : WriteSet :=
  let t := sdtAddr s o offset
  ⟨physAll s.psr.mode (baseWritten t o.rn), .none, ⟨t.addr, size, forcedTran o.p o.w⟩⟩

/-- How many words an attached coprocessor would move; none where none accepts. -/
def offeredCount (s : State) (cpNum : BitVec 4) (instr : Word) : Nat :=
  match offer s cpNum instr with
  | .absent => 0
  | .accepted _ k => k

/-- What an instruction whose condition passes may write (R462). -/
def writeSet (s : State) : Instr → WriteSet
  | .andImm o | .eorImm o | .orrImm o | .movImm o | .bicImm o | .mvnImm o => resultWrites s o.rd o.s .nzc
  | .andReg o | .eorReg o | .orrReg o | .movReg o | .bicReg o | .mvnReg o => resultWrites s o.rd o.s .nzc
  | .andRegShift o | .eorRegShift o | .orrRegShift o | .movRegShift o | .bicRegShift o | .mvnRegShift o =>
    resultWrites s o.rd o.s .nzc
  | .subImm o | .rsbImm o | .addImm o | .adcImm o | .sbcImm o | .rscImm o => resultWrites s o.rd o.s .nzcv
  | .subReg o | .rsbReg o | .addReg o | .adcReg o | .sbcReg o | .rscReg o => resultWrites s o.rd o.s .nzcv
  | .subRegShift o | .rsbRegShift o | .addRegShift o | .adcRegShift o | .sbcRegShift o | .rscRegShift o =>
    resultWrites s o.rd o.s .nzcv
  | .tstImm o | .teqImm o => testWrites o.rd .nzc
  | .tstReg o | .teqReg o => testWrites o.rd .nzc
  | .tstRegShift o | .teqRegShift o => testWrites o.rd .nzc
  | .cmpImm o | .cmnImm o => testWrites o.rd .nzcv
  | .cmpReg o | .cmnReg o => testWrites o.rd .nzcv
  | .cmpRegShift o | .cmnRegShift o => testWrites o.rd .nzcv
  | .unspecifiedTestS0Imm _ | .unspecifiedTestS0Reg _ | .unspecifiedTestS0RegShift _ | .undefined1 _ | .unallocatedA _
  | .unallocatedB _ | .unallocatedC _ | .unallocatedD _ | .undefined2 _ => .empty
  | .mul o | .mla o => resultWrites s o.rd o.s .nzc
  | .ldrImm o | .ldrbImm o => loadWrites s o (immOffset o.offset)
  | .ldrReg o | .ldrbReg o => loadWrites s o (regOperand s o.offset).value
  | .strImm o => storeWrites s o (immOffset o.offset) 4
  | .strReg o => storeWrites s o (regOperand s o.offset).value 4
  | .strbImm o => storeWrites s o (immOffset o.offset) 1
  | .strbReg o => storeWrites s o (regOperand s o.offset).value 1
  | .ldm o =>
    ⟨physAll (if loadsUserBank s o then .user else s.psr.mode) (listedRegs o.list ++ if blockWb o then [o.rn] else []),
      if o.s && o.list.getLsbD 15 then .nzcv else .none, .empty⟩
  | .stm o =>
    ⟨physAll (if storesUserBank s o then .user else s.psr.mode) (if blockWb o then [o.rn] else []), .none,
      ⟨blockFirst s o, 4 * (listedRegs o.list).length, false⟩⟩
  | .b _ => .empty
  | .bl _ => ⟨physAll s.psr.mode [14], .none, .empty⟩
  | .ldc o =>
    ⟨if accepts s o.cpNum (encodeCdt 1 o) then physAll s.psr.mode (baseWritten (cdtAddr s o) o.rn) else [], .none, .empty⟩
  | .stc o =>
    ⟨if accepts s o.cpNum (encodeCdt 0 o) then physAll s.psr.mode (baseWritten (cdtAddr s o) o.rn) else [], .none,
      ⟨(cdtAddr s o).addr, 4 * offeredCount s o.cpNum (encodeCdt 0 o), forcedTran o.p o.w⟩⟩
  | .cdp _ => .empty
  | .mcr o => if accepts s o.cpNum (encodeCrt 1 o) then resultWrites s o.rd (decide (o.rd = 15)) .none else .empty
  | .mrc _ => .empty
  | .swi _ => .empty

/-- The write set that counts: nothing where the condition fails (R14). -/
def effectiveWrites (s : State) (i : Instr) : WriteSet := if condPassed i.cond s.psr then writeSet s i else .empty

/-! ### What a cut leaves -/

/-- A free word in each of some registers. -/
def State.anyRegs (s : State) : List PhysReg → State
  | [] => s
  | p :: ps => (({ s with regs := s.regs.set p (s.freeWord 0) } : State).drawn 1).anyRegs ps

/-- Free bits in some flags. -/
def State.anyFlags (s : State) : FlagSet → State
  | .none => s
  | .nzc => ({ s with psr := { s.psr with n := s.freeBit 0, z := s.freeBit 1, c := s.freeBit 2 } } : State).drawn 3
  | .nzcv =>
    ({ s with psr := { s.psr with n := s.freeBit 0, z := s.freeBit 1, c := s.freeBit 2, v := s.freeBit 3 } } : State).drawn 4

/-- The next `k` free words. -/
def State.freeWords (s : State) (k : Nat) : List Word := (List.range k).map s.freeWord

/-- Free bytes where an instruction stores; a cycle the memory manager aborts changes nothing (R83). -/
def State.anyStored (s : State) (m : StoreSet) : State :=
  if m.size = 1 then ((s.drawn 1).writeByte m.forced m.addr (field (s.freeWord 0) 0 8)).state
  else ((s.drawn (m.size / 4)).writeWords m.forced m.addr 0 (s.freeWords (m.size / 4))).state

/-- What is left when RES cuts an instruction: ANY32 in every register and every memory word of its write set (R462). The spec names
registers and memory words alone: that the flags it writes are free too, and that an attached coprocessor is as before it, are
DESIGN CHOICES (log entries 14, 27). -/
def State.cutShort (s : State) (i : Instr) : State :=
  let w := effectiveWrites s i
  (((s.anyStored w.store).anyRegs w.regs).anyFlags w.flags).abandon

/-- The instruction, or what is left of it when RES cuts it; one that has no meaning stops by its name all the same, and one that waits
for a coprocessor waits no longer. -/
def execOrCut (cut : ResCut) (i : Instr) (s : State) : Result :=
  if cut = .no then exec i s
  else match exec i s with
    | .refused r => .refused r
    | .fault _ => .next (s.cutShort i)
    | .next _ => .next (s.cutShort i)

/-- The prefetch abort, or what is left of it: the R14_svc it writes is written by the reset entry too. -/
def State.prefetchAbortOrCut (s : State) (cut : ResCut) : State := if cut = .no then s.prefetchAbort else s.abandon

end Sys2Proof.Machine
end

