-- ==== Sys2Proof/Machine/Step.lean ====
section
/-! DEFINITION. One step: a boundary event if one is due, else the fetch, decode and execution of the instruction at the pc. -/

namespace Sys2Proof.Machine

/-- One step (R422, R424): reset, FIRQ or IRQ first; then the prefetch abort (R404), the two refusals that come of the prefetch (R91)
and the settling window (R470, R471), and the instruction itself, unless RES cuts it (R462). The spec gives no precedence between
an aborted fetch (R404) and an overwritten word (R91): that the abort comes first is a DESIGN CHOICE (log entry 15). -/
def step (s : State) : Host.Outcome State Fault Refusal :=
  match boundary s with
  | some t => .next t
  | none =>
    match fetch s with
    | none => .next (s.beginInstr.prefetchAbortOrCut s.pins.cut)
    | some w =>
      if s.pipe.stale0 then .refused .stalePrefetch
      else if hazardBlocks s (decodeWord w) then .refused .bankedRegisterTooSoon
      else execOrCut s.pins.cut (decodeWord w) s.beginInstr

/-- The state with the opcode table's bits `w` as the word at the pc, which the very next step fetches and runs. -/
def State.withFetchWord (s : State) (nbits w : Nat) : State := s.placeAtPc (BitVec.ofNat 32 (w % 2 ^ nbits))

end Sys2Proof.Machine
end

