-- ==== Sys2Proof/Safety.lean ====
section
/-! DEFINITION. What counts as a sound state and a safe run, in the terms the statements use. -/

namespace Sys2Proof.Machine

/-- The invariant of the model: memory has its canonical form; between instructions only two words are prefetched (R40), so that the
third flag of the pipeline is clear; and the settling window of a user-bank load is open in a non-user mode only (R471). -/
def Sound (s : State) : Prop :=
  s.mem.wf = true ∧ s.pipe.stale2 = false ∧ (s.hazard = .userBankLoaded → s.psr.mode ≠ .user)

/-- The step has a next state. -/
def Completes (s : State) : Prop := ∃ t, step s = .next t

/-- The first `k` steps have next states. -/
def RunsFor (k : Nat) (s : State) : Prop := ∃ t, Sys2Proof.core.run k s = .next t

/-- Nothing stands between a state and its instruction, and nothing cuts it: no reset, no request that is not masked, no settling
window (R424, R462, R470). -/
def Ready (s : State) : Prop :=
  s.pins.res = false ∧ s.pins.cut = .no ∧ s.inReset = false ∧ (s.pins.firq = true → s.psr.f = true) ∧
    (s.pins.irq = true → s.psr.i = true) ∧ s.hazard = .clear ∧ s.pipe.stale0 = false

/-- No rule of the memory manager: `AbortOracle` never aborts (D4). -/
def NoAborts (s : State) : Prop := s.aborts = []

/-! ### What stays -/

/-- Every physical register stays, but those the numbers `is` name in the bank of mode `m` (R22, R23). -/
def KeepsRegs (m : Mode) (is : List RegNum) (s t : State) : Prop :=
  ∀ p, (∀ i ∈ is, phys m i ≠ some p) → t.regs.get p = s.regs.get p

/-- Every byte of memory stays. -/
def KeepsMemory (s t : State) : Prop := ∀ a, t.byteAt a = s.byteAt a

/-- What memory holds stays, and where memory is: for a step, after which the reads of an address without memory are another
instruction's and so may give another byte. -/
def KeepsCells (s t : State) : Prop := t.memMap = s.memMap ∧ ∀ a, t.cellAt a = s.cellAt a

/-- Every byte of memory stays, but the `n` bytes from `a` on, as the bus addresses them. -/
def KeepsMemoryOutside (a : Word) (n : Nat) (s t : State) : Prop :=
  ∀ x, (∀ k, k < n → s.bus x ≠ s.bus (a + BitVec.ofNat 32 k)) → t.byteAt x = s.byteAt x

/-- The request inputs, the memory manager's rules, the memory map, the count of instructions and the reset latch stay: no
instruction reaches them. -/
def KeepsInputs (s t : State) : Prop :=
  t.pins = s.pins ∧ t.pinSchedule = s.pinSchedule ∧ t.inReset = s.inReset ∧ t.aborts = s.aborts ∧
    t.memMap = s.memMap ∧ t.begun = s.begun

/-- The inputs, the coprocessors, the settling window and the draws stay. -/
def KeepsRest (s t : State) : Prop :=
  KeepsInputs s t ∧ t.coprocs = s.coprocs ∧ t.hazard = s.hazard ∧ t.draws = s.draws

/-- The advance to the next instruction: the mark of each prefetched word goes with it, and nothing is marked (R40, R91). -/
def PrefetchCarried (s t : State) : Prop := t.pipe = ⟨s.pipe.stale1, s.pipe.stale2, false⟩

/-! ### Taking an exception -/

/-- An exception has been entered (R410), each thing it writes said outright: the R14 it saves into, the word address
saved there with the old PSR, the vector, the mode and the F bit; every other register stays, and so do the flags. -/
def TrapTaken (s t : State) (link : PhysReg) (ret vector : PcWord) (mode : Mode) (f : Bool) : Prop :=
  t.regs.get link = s.psr.r15 ret ∧ (∀ p, p ≠ link → t.regs.get p = s.regs.get p) ∧
    t.psr = { s.psr with i := true, f := f, mode := mode } ∧ t.pc = vector ∧
    t.pipe = Pipeline.fresh ∧ t.hazard = .clear

/-- What an exception entry leaves alone besides: what memory holds, the inputs but for their next sample, the coprocessors. -/
def KeepsForTrap (s t : State) : Prop :=
  KeepsCells s t ∧ t.inReset = s.inReset ∧ t.aborts = s.aborts ∧ t.coprocs = s.coprocs ∧ t.draws = s.draws

/-- An entry that RES has cut holds the processor in reset, and has changed no register but the R14 it saves into, no flag and nothing that
memory holds (R462). -/
def EntryCut (s t : State) (link : PhysReg) : Prop :=
  t.inReset = true ∧ (∀ p, p ≠ link → t.regs.get p = s.regs.get p) ∧
    (t.psr.n = s.psr.n ∧ t.psr.z = s.psr.z ∧ t.psr.c = s.psr.c ∧ t.psr.v = s.psr.v) ∧ KeepsCells s t

/-! ### Data processing, as plain arithmetic -/

/-- A bitwise operation: C from the shifter, V as it was (R170). -/
def bitwise (g : Word → Word → Word) : AluFn := fun p a b sco => ⟨g a b, sco, p.v⟩

/-- A sum: C when it does not fit 32 unsigned bits, V when operands of one sign give a result of the other (R169). -/
def plainSum (a b : Word) (carry : Bool) : AluOut :=
  let r := a + b + (if carry then 1 else 0)
  ⟨r, decide (2 ^ 32 ≤ a.toNat + b.toNat + carry.toNat), (a.msb == b.msb) && (r.msb != a.msb)⟩

/-- A difference, less one more where `carry` is clear: C when nothing is borrowed, V when operands of different sign
give a result whose sign is not the minuend's (R169). -/
def plainDifference (a b : Word) (carry : Bool) : AluOut :=
  let r := a - b - (if carry then 0 else 1)
  ⟨r, decide (b.toNat + (!carry).toNat ≤ a.toNat), (a.msb != b.msb) && (r.msb != a.msb)⟩

/-- A result-producing opcode: its three rows and what it computes. -/
structure ResultRow where
  imm      : Dp ImmOp → Instr
  reg      : Dp RegOp → Instr
  regShift : Dp RegShiftOp → Instr
  fn       : AluFn

/-- The twelve result-producing opcodes (R180 to R187, R192 to R195). -/
def resultRows : List ResultRow := [
  ⟨.andImm, .andReg, .andRegShift, bitwise fun a b => a &&& b⟩,
  ⟨.eorImm, .eorReg, .eorRegShift, bitwise fun a b => a ^^^ b⟩,
  ⟨.subImm, .subReg, .subRegShift, fun _ a b _ => plainDifference a b true⟩,
  ⟨.rsbImm, .rsbReg, .rsbRegShift, fun _ a b _ => plainDifference b a true⟩,
  ⟨.addImm, .addReg, .addRegShift, fun _ a b _ => plainSum a b false⟩,
  ⟨.adcImm, .adcReg, .adcRegShift, fun p a b _ => plainSum a b p.c⟩,
  ⟨.sbcImm, .sbcReg, .sbcRegShift, fun p a b _ => plainDifference a b p.c⟩,
  ⟨.rscImm, .rscReg, .rscRegShift, fun p a b _ => plainDifference b a p.c⟩,
  ⟨.orrImm, .orrReg, .orrRegShift, bitwise fun a b => a ||| b⟩,
  ⟨.movImm, .movReg, .movRegShift, bitwise fun _ b => b⟩,
  ⟨.bicImm, .bicReg, .bicRegShift, bitwise fun a b => a &&& ~~~b⟩,
  ⟨.mvnImm, .mvnReg, .mvnRegShift, bitwise fun _ b => ~~~b⟩]

/-- A test opcode: its three rows and what it computes. -/
structure TestRow where
  imm      : Test ImmOp → Instr
  reg      : Test RegOp → Instr
  regShift : Test RegShiftOp → Instr
  fn       : AluFn

/-- The four test opcodes (R188 to R191). -/
def testRows : List TestRow := [
  ⟨.tstImm, .tstReg, .tstRegShift, bitwise fun a b => a &&& b⟩,
  ⟨.teqImm, .teqReg, .teqRegShift, bitwise fun a b => a ^^^ b⟩,
  ⟨.cmpImm, .cmpReg, .cmpRegShift, fun _ a b _ => plainDifference a b true⟩,
  ⟨.cmnImm, .cmnReg, .cmnRegShift, fun _ a b _ => plainSum a b false⟩]

/-- N, Z, C and V from a result, the other bits of the PSR as they were (R170, R171). -/
def flagsOf (p : Psr) (r : AluOut) : Psr := { p with n := r.value.msb, z := decide (r.value = 0), c := r.c, v := r.v }

/-- An operation has written `r` to Rd, its flags if `setFlags`, and nothing else (R160). -/
def ResultWritten (setFlags : Bool) (rd : RegNum) (r : AluOut) (s t : State) : Prop :=
  t.x rd = r.value ∧ t.psr = (if setFlags then flagsOf s.psr r else s.psr) ∧ t.pc = s.pc + 1 ∧
    KeepsRegs s.psr.mode [rd] s t ∧ KeepsMemory s t ∧ KeepsRest s t ∧ PrefetchCarried s t

/-- An operation has written the PC from `r`, the PSR too if `setFlags`, and nothing else (R172, R174). -/
def PcWritten (setFlags : Bool) (r : Word) (s t : State) : Prop :=
  t.pc = field r 2 24 ∧ t.psr = (if setFlags then s.psr.write r else s.psr) ∧ t.pipe = Pipeline.fresh ∧
    t.regs = s.regs ∧ KeepsMemory s t ∧ KeepsRest s t

/-! ### Single transfers -/

/-- The base an auto-indexed transfer leaves: the modified one in Rn, or in the PC field when Rn is 15 (R242, R246). -/
def BaseLeft {α : Type} (o : Sdt α) (a : SdtAddr) (s t : State) : Prop :=
  (a.wb = true → o.rn ≠ 15 → t.x o.rn = a.modified) ∧
    t.pc = (if a.wb = true ∧ o.rn = 15 then field a.modified 2 24 else s.pc + 1)

/-- The registers a transfer with this base update may write besides Rd. -/
def baseRegs {α : Type} (o : Sdt α) (a : SdtAddr) : List RegNum := if a.wb then [o.rn] else []

/-- A load has written `v` to Rd, after the base (R243, R245), and nothing else; a base written back to the PC refills the pipeline, and the
marks on the prefetched words go on otherwise (R40). -/
def Loaded {α : Type} (o : Sdt α) (a : SdtAddr) (v : Word) (s t : State) : Prop :=
  t.x o.rd = v ∧ (o.rn ≠ o.rd → BaseLeft o a s t) ∧ (o.rn = o.rd → t.pc = s.pc + 1) ∧
    KeepsRegs s.psr.mode (o.rd :: baseRegs o a) s t ∧ t.psr = s.psr ∧ KeepsMemory s t ∧ KeepsRest s t ∧
    (¬ (a.wb = true ∧ o.rn = 15) → PrefetchCarried s t) ∧ (a.wb = true → o.rn = 15 → t.pipe = Pipeline.fresh)

/-- A load with Rd = 15 has written the PC's 24 bits from `v`, and the base unless that is R15 too (R246). -/
def LoadedPc {α : Type} (o : Sdt α) (a : SdtAddr) (v : Word) (s t : State) : Prop :=
  t.pc = field v 2 24 ∧ (a.wb = true → o.rn ≠ 15 → t.x o.rn = a.modified) ∧ t.pipe = Pipeline.fresh ∧
    KeepsRegs s.psr.mode (baseRegs o a) s t ∧ t.psr = s.psr ∧ KeepsMemory s t ∧ KeepsRest s t

/-- Some of the `n` bytes from `a` on lies in the word `k` words ahead of the instruction (R91). -/
def ReachesWordAhead (s : State) (a : Word) (n : Nat) (k : PcWord) : Prop :=
  ∃ j, j < n ∧ field (s.bus (a + BitVec.ofNat 32 j)) 2 30 = field (s.bus (s.pcv k)) 2 30

/-- After a store of `n` bytes from `a` on and the advance, a prefetched word is marked when the store reached it or it was marked before (R91). -/
def PrefetchMarked (s t : State) (a : Word) (n : Nat) : Prop :=
  (t.pipe.stale0 = true ↔ s.pipe.stale1 = true ∨ ReachesWordAhead s a n 1) ∧
    (t.pipe.stale1 = true ↔ s.pipe.stale2 = true ∨ ReachesWordAhead s a n 2) ∧ t.pipe.stale2 = false

/-- A store of `n` bytes has written the base if it is to, and no other register and no status bit; it has marked the prefetched words
it reached, unless it wrote the PC, which refills the pipeline (R40, R91). -/
def StoreLeft {α : Type} (o : Sdt α) (a : SdtAddr) (n : Nat) (s t : State) : Prop :=
  BaseLeft o a s t ∧ KeepsRegs s.psr.mode (baseRegs o a) s t ∧ t.psr = s.psr ∧ KeepsRest s t ∧
    (¬ (a.wb = true ∧ o.rn = 15) → PrefetchMarked s t a.addr n) ∧ (a.wb = true → o.rn = 15 → t.pipe = Pipeline.fresh)

/-- The byte at `a` is `b` after a store of `b` where RAM answers, and as it was where ROM or nothing does. -/
def HoldsByte (s t : State) (a : Word) (b : Byte) : Prop := t.byteAt a = if s.kindOf a = .ram then b else s.byteAt a

/-- The four bytes at `a` are those of `v`, the most significant first, where RAM answers (R64, R70). -/
def HoldsWord (s t : State) (a v : Word) : Prop :=
  HoldsByte s t a (field v 24 8) ∧ HoldsByte s t (a + 1) (field v 16 8) ∧ HoldsByte s t (a + 2) (field v 8 8) ∧
    HoldsByte s t (a + 3) (field v 0 8)

/-- How many addresses the bus tells apart: MSBLOW leaves 24 bits (R63). -/
def busSize (s : State) : Nat := if s.memMap.msblow then 2 ^ 24 else 2 ^ 32

/-- A bus cycle of a word store at `a` is aborted: the one at `a`, or the second one of an unaligned store (R71, R84). -/
def wordStoreAborts (s : State) (forced : Bool) (a : Word) : Bool :=
  s.aborted (s.dataCycle .write false forced a)
    || (!aligned a && s.aborted (s.dataCycle .write false forced (nextWord a)))

/-! ### Block transfers -/

/-- The mode whose bank a block transfer uses (R287). -/
def bankMode (userBank : Bool) (s : State) : Mode := if userBank then .user else s.psr.mode

/-- How many registers a list names. -/
def listCount (o : Bdt) : Nat := (listedRegs o.list).length

/-- The read of the `k`-th word of a block transfer aborts (R83, R281). -/
def blockReadAborts (s : State) (o : Bdt) (k : Nat) : Bool :=
  s.aborted (s.dataCycle .read false false (wordAddr (blockFirst s o) k))

/-- The write of the `k`-th word of a block transfer aborts (R83, R281). -/
def blockWriteAborts (s : State) (o : Bdt) (k : Nat) : Bool :=
  s.aborted (s.dataCycle .write false false (wordAddr (blockFirst s o) k))

/-- The words of a load multiple are in their registers, and the base is written unless it was loaded (R288, R295). -/
def BlockLoaded (s t : State) (o : Bdt) (bank : Mode) : Prop :=
  (∀ k r, (listedRegs o.list)[k]? = some r → r ≠ 15 →
      t.regs.read bank r = s.wordAt (wordAddr (blockFirst s o) k)) ∧
    (blockWb o = true → o.list.getLsbD o.rn.toNat = false → t.regs.read bank o.rn = blockFinal s o) ∧
    KeepsRegs bank (if blockWb o then o.rn :: listedRegs o.list else listedRegs o.list) s t ∧ KeepsMemory s t

/-- The word a store multiple sends for register `r` at place `k` (R288, R289, R292). -/
def BlockSends (s : State) (o : Bdt) (k : Nat) (r : RegNum) (v : Word) : Prop :=
  if r = 15 then v = s.psr.r15 (s.pc + 3)
  else if r = o.rn ∧ o.w = true ∧ 0 < k then v = blockFinal s o
  else v = s.regs.read (bankMode (storesUserBank s o) s) r

/-! ### Coprocessor transfers -/

/-- The encoding of an instruction lies in coprocessor `cp`'s accepted words and it is attached and ready (R343, R345). -/
def AcceptedBy (s : State) (cpNum : BitVec 4) (i : Instr) (cp : Coproc) (count : Nat) : Prop :=
  offer s cpNum (encode i) = .accepted cp count ∧ cp.busy = false

/-- Every coprocessor but one stays. -/
def KeepsOtherCoprocs (cpNum : BitVec 4) (s t : State) : Prop :=
  ∀ k : Fin 16, k ≠ cpNum.toFin → t.coprocs[k] = s.coprocs[k]

/-- A register transfer or a data operation with a coprocessor has left these alone. -/
def KeepsForCoproc (s t : State) : Prop :=
  t.pc = s.pc + 1 ∧ KeepsMemory s t ∧ KeepsInputs s t ∧ t.hazard = s.hazard ∧ PrefetchCarried s t

/-- The base of an LDC or STC is written back if it is to be, and no other register changes (R354). -/
def CoprocBase (o : Cdt) (a : SdtAddr) (s t : State) : Prop :=
  (a.wb = true → t.x o.rn = a.modified) ∧ KeepsRegs s.psr.mode (if a.wb then [o.rn] else []) s t ∧ t.psr = s.psr

end Sys2Proof.Machine
end

