-- ==== Sys2Proof/Certificates/Slice0/Obligations.lean ====
section
/-! DEFINITION. The statements about the model: encodings, the step, whole-machine rules, and what each instruction does and leaves alone. -/

open Sys2Proof Sys2Proof.Machine

/-! ### Encoding -/

/-- Every well-formed instruction is what its word decodes to (R102 to R115). -/
def Obligations.DecodeEncodeRoundTrip : Prop := ∀ i : Instr, WellFormed i → decodeWord (encode i) = i

/-- Every word decodes to a well-formed instruction whose word it is: no bit is dropped (R100, R103, R123). -/
def Obligations.EncodeDecodeRoundTrip : Prop := ∀ w : Word, WellFormed (decodeWord w) ∧ encode (decodeWord w) = w

/-- Words the spec prints (R127, and R354 and R361 for LDC and MRC), one or more of each format, and what they stand for. -/
def Obligations.SampleWordsDecode : Prop :=
  decodeWord 0x00842005 = .addReg ⟨.eq, false, 4, 2, ⟨0, .lsl, 5⟩⟩ ∧
  decodeWord 0xE0454237 = .subRegShift ⟨.al, false, 5, 4, ⟨2, .lsr, 7⟩⟩ ∧
  decodeWord 0xE33FF000 = .teqImm ⟨.al, 15, 15, ⟨0, 0⟩⟩ ∧
  decodeWord 0x00314392 = .mla ⟨.eq, true, 1, 4, 3, 2⟩ ∧
  decodeWord 0xE69591C0 = .ldrReg ⟨.al, false, true, false, 5, 9, ⟨3, .asr, 0⟩⟩ ∧
  decodeWord 0xE8BD0007 = .ldm ⟨.al, false, true, false, true, 13, 0x0007⟩ ∧
  decodeWord 0xEAFFFFFE = .b ⟨.al, 0xFFFFFE⟩ ∧
  decodeWord 0x1F000000 = .swi ⟨.ne, 0⟩ ∧
  decodeWord 0xEEA71102 = .cdp ⟨.al, 10, 7, 1, 1, 0, 2⟩ ∧
  decodeWord 0x0EA21253 = .mrc ⟨.eq, 5, 2, 1, 2, 2, 3⟩ ∧
  decodeWord 0x0DB52103 = .ldc ⟨.eq, true, true, false, true, 5, 2, 1, 3⟩

/-- The two undefined regions (R118), the multiplies and the unallocated words (R103, R119), each by its bits alone. -/
def Obligations.ReservedRegionsDecode : Prop := ∀ w : Word,
  ((∃ o, decodeWord w = .undefined1 o) ↔ field w 24 4 = 0b0001 ∧ bitAt w 7 = true ∧ bitAt w 4 = true) ∧
  ((∃ o, decodeWord w = .undefined2 o) ↔ field w 25 3 = 0b011 ∧ bitAt w 4 = true) ∧
  ((∃ o, decodeWord w = .mul o ∨ decodeWord w = .mla o) ↔ field w 22 6 = 0 ∧ field w 4 4 = 0b1001) ∧
  ((∃ o, decodeWord w = .unallocatedA o ∨ decodeWord w = .unallocatedB o ∨ decodeWord w = .unallocatedC o ∨
      decodeWord w = .unallocatedD o) ↔
    field w 24 4 = 0 ∧ bitAt w 7 = true ∧ bitAt w 4 = true ∧ (field w 22 2 ≠ 0 ∨ field w 5 2 ≠ 0))

/-! ### The step -/

/-- When nothing stands before the instruction at the pc, the fetch is not aborted and its four bytes decode to `i`, the step is
`exec i`, in a state that differs from `s` only in the next sample of the inputs (the head of the schedule; the same levels where it is
empty, log entry 13) and in the count of instructions begun. -/
def Obligations.StepRunsDecodedInstruction : Prop := ∀ (s : State) (i : Instr),
  Ready s → s.aborted (fetchCycle s) = false → WellFormed i →
  decode [s.byteAt (s.pcv 0), s.byteAt (s.pcv 0 + 1), s.byteAt (s.pcv 0 + 2), s.byteAt (s.pcv 0 + 3)] = .ok (i, []) →
  ∃ u : State, step s = exec i u ∧
    u = { s with pins := u.pins, pinSchedule := u.pinSchedule, begun := s.begun + 1 } ∧
    (s.pinSchedule = u.pins :: u.pinSchedule ∨ s.pinSchedule = [] ∧ u.pins = s.pins ∧ u.pinSchedule = [])

/-- A FIRQ that F does not mask, and that RES does not cut, is taken before the instruction at N, with N + 4 saved (R420, R422, R424).
That it sets F is decision D8 of the spec. -/
def Obligations.FirqTaken : Prop := ∀ s : State,
  s.pins.res = false → s.pins.cut ≠ .atOnce → s.inReset = false → s.pins.firq = true → s.psr.f = false →
  ∃ t, step s = .next t ∧ TrapTaken s t (.fiq 6) (s.pc + 1) 7 .firq true ∧ KeepsForTrap s t

/-- An IRQ that I does not mask, and that RES does not cut, is taken before the instruction at N unless a FIRQ is, with N + 4 saved
(R421, R422, R424). -/
def Obligations.IrqTaken : Prop := ∀ s : State,
  s.pins.res = false → s.pins.cut ≠ .atOnce → s.inReset = false → (s.pins.firq = true → s.psr.f = true) →
  s.pins.irq = true → s.psr.i = false →
  ∃ t, step s = .next t ∧ TrapTaken s t (.irq 1) (s.pc + 1) 6 .irq s.psr.f ∧ KeepsForTrap s t

/-- An aborted fetch that comes to execution, and that RES does not cut, takes the prefetch abort, whatever the word holds and whatever window is
open (R404). That a word marked overwritten takes it too, and does not stop the step, is the model's choice (log entry 15). -/
def Obligations.PrefetchAbortTaken : Prop := ∀ s : State,
  boundary s = none → s.pins.cut = .no → s.aborted (fetchCycle s) = true →
  ∃ t, step s = .next t ∧ TrapTaken s t (.svc 1) (s.pc + 1) 3 .svc s.psr.f ∧ KeepsForTrap s t

/-- While RES is high a step changes no processor state; when it has gone low the reset entry leaves PC 0, Supervisor mode and
I = F = 1, and every register but R14_svc and the flags as they were (R460). An instruction that RES cuts leaves every register, flag and
byte outside its write set as it was, and holds the processor in reset; so does a FIRQ, an IRQ or a prefetch abort entry, whose write set is
one R14 (R462). Nothing is said of what is in the write set. That flags are in it, and what a cut entry leaves, is the model's choice (log
entry 14). -/
def Obligations.ResetHeldAndLeft : Prop := ∀ s : State,
  (s.pins.res = true → ∃ t, step s = .next t ∧ t.inReset = true ∧ t.regs = s.regs ∧ t.pc = s.pc ∧ t.psr = s.psr ∧
    KeepsMemory s t) ∧
  (s.pins.res = false → s.inReset = true → ∃ t, step s = .next t ∧ t.inReset = false ∧ t.pc = 0 ∧
    t.psr = { s.psr with i := true, f := true, mode := .svc } ∧
    (∀ p, p ≠ .svc 1 → t.regs.get p = s.regs.get p) ∧ KeepsMemory s t) ∧
  (∀ w, boundary s = none → fetch s = some w → s.pipe.stale0 = false → hazardBlocks s (decodeWord w) = false →
    s.pins.cut ≠ .no → (∀ r, exec (decodeWord w) s.beginInstr ≠ .refused r) →
    let m := effectiveWrites s.beginInstr (decodeWord w)
    ∃ t, step s = .next t ∧ t.inReset = true ∧ (∀ p, p ∉ m.regs → t.regs.get p = s.regs.get p) ∧
      t.psr = { s.psr with n := t.psr.n, z := t.psr.z, c := t.psr.c, v := t.psr.v } ∧ (m.flags = .none → t.psr = s.psr) ∧
      (m.flags = .nzc → t.psr.v = s.psr.v) ∧ t.memMap = s.memMap ∧
      (s.mem.wf = true → ∀ x, (∀ k, k < m.store.size → s.bus x ≠ s.bus (m.store.addr + BitVec.ofNat 32 k)) →
        t.cellAt x = s.cellAt x)) ∧
  (s.pins.res = false → s.inReset = false → s.pins.cut = .atOnce → s.pins.firq = true → s.psr.f = false →
    ∃ t, step s = .next t ∧ EntryCut s t (.fiq 6)) ∧
  (s.pins.res = false → s.inReset = false → s.pins.cut = .atOnce → (s.pins.firq = true → s.psr.f = true) →
    s.pins.irq = true → s.psr.i = false → ∃ t, step s = .next t ∧ EntryCut s t (.irq 1)) ∧
  (boundary s = none → s.aborted (fetchCycle s) = true → s.pins.cut ≠ .no →
    ∃ t, step s = .next t ∧ EntryCut s t (.svc 1))

/-- A stale prefetched word stops the step (R91); right after a mode change an instruction that passes its condition and
names R8 to R14 stops it, one that does not runs (R470); after a user-bank load only a read of R8 to R14 does (R471). In either window
an instruction whose condition fails runs. What runs is not cut by RES. Which register fields an instruction uses is deduced (log entry 16). -/
def Obligations.HazardsRefused : Prop := ∀ (s : State) (w : Word),
  boundary s = none → fetch s = some w →
  (s.pipe.stale0 = true → step s = .refused .stalePrefetch) ∧
  (s.pipe.stale0 = false → condPassed (decodeWord w).cond s.psr = true →
    ((s.hazard = .modeChanged →
        (∃ r ∈ regsRead s (decodeWord w) ++ regsWritten s (decodeWord w), 8 ≤ r.toNat ∧ r.toNat ≤ 14) →
        step s = .refused .bankedRegisterTooSoon) ∧
      (s.hazard = .userBankLoaded → (∃ r ∈ regsRead s (decodeWord w), 8 ≤ r.toNat ∧ r.toNat ≤ 14) →
        step s = .refused .bankedRegisterTooSoon) ∧
      (s.hazard = .modeChanged →
        (∀ r ∈ regsRead s (decodeWord w) ++ regsWritten s (decodeWord w), r.toNat < 8 ∨ r = 15) → s.pins.cut = .no →
        step s = exec (decodeWord w) s.beginInstr) ∧
      (s.hazard = .userBankLoaded → (∀ r ∈ regsRead s (decodeWord w), r.toNat < 8 ∨ r = 15) →
        s.pins.cut = .no → step s = exec (decodeWord w) s.beginInstr))) ∧
  (s.pipe.stale0 = false → condPassed (decodeWord w).cond s.psr = false → s.pins.cut = .no →
    step s = exec (decodeWord w) s.beginInstr)

/-! ### Invariants and rules of the whole machine -/

/-- The state after reset: PC 0, Supervisor mode, I = F = 1, nothing prefetched is stale, no window is open, and no
coprocessor, memory manager or request (R46, D3, D4). That all of memory is RAM and MSBLOW low is the model's choice, as D14 leaves it
(log entries 3, 23). -/
def Obligations.ResetState : Prop :=
  State.reset.pc = 0 ∧ State.reset.psr.mode = .svc ∧ State.reset.psr.i = true ∧ State.reset.psr.f = true ∧
  State.reset.pipe = Pipeline.fresh ∧ State.reset.hazard = .clear ∧
  (∀ k : Fin 16, State.reset.coprocs[k] = none) ∧ NoAborts State.reset ∧ State.reset.memMap = MemMap.flat ∧
  Ready State.reset

/-- The invariant holds after reset. -/
def Obligations.SoundAtReset : Prop := Sound State.reset

/-- Every step keeps the invariant: memory in its canonical form, two words prefetched between instructions (R40), a
user-bank window in a non-user mode only (R471). -/
def Obligations.SoundKeptByStep : Prop := ∀ s t : State, Sound s → step s = .next t → Sound t

/-- In User mode a step leaves I, F and the mode alone, or enters an exception: a non-user mode with I set, at a vector (R36, R407). -/
def Obligations.UserModeIsProtected : Prop := ∀ s t : State,
  s.psr.mode = .user → step s = .next t →
  (t.psr.mode = .user ∧ t.psr.i = s.psr.i ∧ t.psr.f = s.psr.f) ∨
  (t.psr.mode = .svc ∧ t.psr.i = true ∧ t.pc = 0 ∧ t.psr.f = true) ∨
  (t.psr.mode = .svc ∧ t.psr.i = true ∧ (t.pc = 1 ∨ t.pc = 2 ∨ t.pc = 3 ∨ t.pc = 4) ∧ t.psr.f = s.psr.f) ∨
  (t.psr.mode = .irq ∧ t.psr.i = true ∧ t.pc = 6 ∧ t.psr.f = s.psr.f) ∨
  (t.psr.mode = .firq ∧ t.psr.i = true ∧ t.pc = 7 ∧ t.psr.f = true)

/-- A step changes no register that the mode does not see, but the R14 of the mode it ends in (which an exception entry writes),
and user registers by a block transfer with S: an LDM without R15, or the write-back of an STM (R24, R292, R293). -/
def Obligations.HiddenBanksKept : Prop := ∀ (s t : State) (p : PhysReg),
  step s = .next t → (∀ i, phys s.psr.mode i ≠ some p) → p ≠ linkReg t.psr.mode →
  t.regs.get p = s.regs.get p ∨
  ((∃ k, p = .usr k) ∧ ∃ w o, fetch s = some w ∧ o.s = true ∧
    (decodeWord w = .ldm o ∧ o.list.getLsbD 15 = false ∨ decodeWord w = .stm o ∧ o.w = true))

/-- Only STR, STRB, STM and STC change what memory holds. -/
def Obligations.OnlyStoresChangeMemory : Prop := ∀ s t : State,
  step s = .next t →
  KeepsCells s t ∨ ∃ w, fetch s = some w ∧ condPassed (decodeWord w).cond s.psr = true ∧
    ((∃ o, decodeWord w = .strImm o) ∨ (∃ o, decodeWord w = .strReg o) ∨ (∃ o, decodeWord w = .strbImm o) ∨
      (∃ o, decodeWord w = .strbReg o) ∨ (∃ o, decodeWord w = .stm o) ∨ (∃ o, decodeWord w = .stc o))

/-- The instructions that never change N, Z, C and V, in a state an abort or a trap enters as well (R33). -/
def Obligations.TransfersKeepFlags : Prop := ∀ (i : Instr) (s t : State),
  (∃ o, i = .b o) ∨ (∃ o, i = .bl o) ∨ (∃ o, i = .ldrImm o) ∨ (∃ o, i = .ldrReg o) ∨ (∃ o, i = .ldrbImm o) ∨
    (∃ o, i = .ldrbReg o) ∨ (∃ o, i = .strImm o) ∨ (∃ o, i = .strReg o) ∨ (∃ o, i = .strbImm o) ∨
    (∃ o, i = .strbReg o) ∨ (∃ o, i = .stm o) ∨ (∃ o, i = .swi o) ∨ (∃ o, i = .ldc o) ∨ (∃ o, i = .stc o) ∨
    (∃ o, i = .cdp o) ∨ (∃ o, i = .mrc o) ∨ (∃ o, i = .undefined1 o) ∨ (∃ o, i = .undefined2 o) →
  exec i s = .next t →
  t.psr.n = s.psr.n ∧ t.psr.z = s.psr.z ∧ t.psr.c = s.psr.c ∧ t.psr.v = s.psr.v

/-! ### Conditions -/

/-- When each condition is true (R140). -/
def Obligations.ConditionTable : Prop := ∀ p : Psr,
  (condPassed (.ofBits 0) p = true ↔ p.z = true) ∧ (condPassed (.ofBits 1) p = true ↔ p.z = false) ∧
  (condPassed (.ofBits 2) p = true ↔ p.c = true) ∧ (condPassed (.ofBits 3) p = true ↔ p.c = false) ∧
  (condPassed (.ofBits 4) p = true ↔ p.n = true) ∧ (condPassed (.ofBits 5) p = true ↔ p.n = false) ∧
  (condPassed (.ofBits 6) p = true ↔ p.v = true) ∧ (condPassed (.ofBits 7) p = true ↔ p.v = false) ∧
  (condPassed (.ofBits 8) p = true ↔ p.c = true ∧ p.z = false) ∧
  (condPassed (.ofBits 9) p = true ↔ p.c = false ∨ p.z = true) ∧
  (condPassed (.ofBits 10) p = true ↔ p.n = p.v) ∧ (condPassed (.ofBits 11) p = true ↔ p.n ≠ p.v) ∧
  (condPassed (.ofBits 12) p = true ↔ p.z = false ∧ p.n = p.v) ∧
  (condPassed (.ofBits 13) p = true ↔ p.z = true ∨ p.n ≠ p.v) ∧
  condPassed (.ofBits 14) p = true ∧ condPassed (.ofBits 15) p = false

/-- An instruction of any row whose condition fails completes and has no effect but the advance to A + 4 (R142); the marks on the prefetched
words go on with it (R91). -/
def Obligations.FailedConditionIsNoOp : Prop := ∀ (i : Instr) (s : State),
  condPassed i.cond s.psr = false →
  ∃ t, exec i s = .next t ∧ t.pc = s.pc + 1 ∧ t.regs = s.regs ∧ t.psr = s.psr ∧ KeepsMemory s t ∧ KeepsRest s t ∧
    PrefetchCarried s t

/-- A test with S = 0 (R175) and an unallocated word (R326) stop, each by its own name, when their condition passes. -/
def Obligations.MeaninglessWordsRefused : Prop := ∀ (o : Raw) (s : State),
  condPassed o.cond s.psr = true →
  exec (.unspecifiedTestS0Imm o) s = .refused .testWithoutS ∧ exec (.unspecifiedTestS0Reg o) s = .refused .testWithoutS ∧
  exec (.unspecifiedTestS0RegShift o) s = .refused .testWithoutS ∧
  exec (.unallocatedA o) s = .refused .unallocated ∧ exec (.unallocatedB o) s = .refused .unallocated ∧
  exec (.unallocatedC o) s = .refused .unallocated ∧ exec (.unallocatedD o) s = .refused .unallocated

/-! ### R15 -/

/-- Where the status bits, the program counter and the mode stand in R15, and what reading it without the PSR leaves (R10, R27, R35). -/
def Obligations.R15Layout : Prop := ∀ (s : State) (k : PcWord),
  (bitAt (s.r15v k) 31 = s.psr.n ∧ bitAt (s.r15v k) 30 = s.psr.z ∧ bitAt (s.r15v k) 29 = s.psr.c ∧
    bitAt (s.r15v k) 28 = s.psr.v ∧ bitAt (s.r15v k) 27 = s.psr.i ∧ bitAt (s.r15v k) 26 = s.psr.f ∧
    field (s.r15v k) 2 24 = s.pc + k ∧
    (field (s.r15v k) 0 2 = 0 ↔ s.psr.mode = .user) ∧ (field (s.r15v k) 0 2 = 1 ↔ s.psr.mode = .irq) ∧
    (field (s.r15v k) 0 2 = 2 ↔ s.psr.mode = .firq) ∧ (field (s.r15v k) 0 2 = 3 ↔ s.psr.mode = .svc)) ∧
  (field (s.pcv k) 26 6 = 0 ∧ field (s.pcv k) 2 24 = s.pc + k ∧ field (s.pcv k) 0 2 = 0)

/-- What a write of the PSR changes: N, Z, C and V in every mode, I, F and the mode bits in a non-user mode only (R36). -/
def Obligations.PsrWriteProtection : Prop := ∀ (p : Psr) (v : Word),
  (p.write v).n = bitAt v 31 ∧ (p.write v).z = bitAt v 30 ∧ (p.write v).c = bitAt v 29 ∧ (p.write v).v = bitAt v 28 ∧
  (p.mode = .user → (p.write v).i = p.i ∧ (p.write v).f = p.f ∧ (p.write v).mode = .user) ∧
  (p.mode ≠ .user → (p.write v).i = bitAt v 27 ∧ (p.write v).f = bitAt v 26 ∧ (p.write v).mode.bits = field v 0 2)

/-! ### Operand 2 -/

/-- The rotated immediate: an 8-bit value turned right by twice the field, bit by bit; its carry out is C for a field of 0 and bit
31 of the value otherwise, which is the spec's decision D9. -/
def Obligations.RotatedImmediate : Prop := ∀ (c : Bool) (o : ImmOp),
  (∀ j, j < 32 → bitAt (immOperand c o).value j =
    (o.imm8.setWidth 32 : Word).getLsbD ((j + 2 * o.rotate.toNat) % 32)) ∧
  (o.rotate = 0 → (immOperand c o).carry = c) ∧
  (o.rotate ≠ 0 → (immOperand c o).carry = bitAt (immOperand c o).value 31)

/-- A shift by an amount in the instruction, bit by bit: 1 to 31 for each type, and what a field of 0 means: LSL 0, LSR 32, ASR 32
and RRX (R162 to R165). -/
def Obligations.ShiftByConstant : Prop := ∀ (rm : Word) (n : BitVec 5) (c : Bool),
  (shiftByField .lsl rm 0 c = ⟨rm, c⟩ ∧ shiftByField .lsr rm 0 c = ⟨0, bitAt rm 31⟩ ∧
    shiftByField .asr rm 0 c = ⟨if bitAt rm 31 then 0xFFFFFFFF else 0, bitAt rm 31⟩ ∧
    (shiftByField .ror rm 0 c).carry = bitAt rm 0 ∧ bitAt (shiftByField .ror rm 0 c).value 31 = c ∧
    (∀ j, j < 31 → bitAt (shiftByField .ror rm 0 c).value j = bitAt rm (j + 1))) ∧
  (n ≠ 0 →
    ((shiftByField .lsl rm n c).carry = bitAt rm (32 - n.toNat) ∧ (shiftByField .lsr rm n c).carry = bitAt rm (n.toNat - 1) ∧
      (shiftByField .asr rm n c).carry = bitAt rm (n.toNat - 1) ∧ (shiftByField .ror rm n c).carry = bitAt rm (n.toNat - 1)) ∧
    (∀ j, j < 32 →
      bitAt (shiftByField .lsl rm n c).value j = (decide (n.toNat ≤ j) && bitAt rm (j - n.toNat)) ∧
      bitAt (shiftByField .lsr rm n c).value j = bitAt rm (j + n.toNat) ∧
      bitAt (shiftByField .asr rm n c).value j = bitAt rm (min (j + n.toNat) 31) ∧
      bitAt (shiftByField .ror rm n c).value j = bitAt rm ((j + n.toNat) % 32)))

/-- A shift by the low byte of a register: 0 changes nothing for every type, 1 to 31 is the shift by that constant, 32 to 255
are the table of R167, and no other bit of the register counts. -/
def Obligations.ShiftByRegister : Prop := ∀ (rm : Word) (n : Nat) (c : Bool) (kind : ShiftKind),
  (∀ (s : State) (o : RegShiftOp), o.rm ≠ 15 → o.rs ≠ 15 →
    regShiftOperand s o = shiftByReg o.kind (s.x o.rm) ((s.x o.rs).toNat % 256) s.psr.c) ∧
  shiftByReg kind rm 0 c = ⟨rm, c⟩ ∧
  (1 ≤ n → n ≤ 31 → shiftByReg kind rm n c = shiftByField kind rm (BitVec.ofNat 5 n) c) ∧
  (shiftByReg .lsl rm 32 c = ⟨0, bitAt rm 0⟩ ∧ shiftByReg .lsr rm 32 c = ⟨0, bitAt rm 31⟩ ∧
    shiftByReg .ror rm 32 c = ⟨rm, bitAt rm 31⟩) ∧
  (33 ≤ n → n ≤ 255 → shiftByReg .lsl rm n c = ⟨0, false⟩ ∧ shiftByReg .lsr rm n c = ⟨0, false⟩ ∧
    shiftByReg .ror rm n c = shiftByReg .ror rm (n - 32) c) ∧
  (32 ≤ n → n ≤ 255 → shiftByReg .asr rm n c = ⟨if bitAt rm 31 then 0xFFFFFFFF else 0, bitAt rm 31⟩)

/-- What a register operand is when it is not 15 and when it is: the PC alone or with the PSR, and 8 or 12 bytes ahead (R166). -/
def Obligations.R15AsOperand : Prop := ∀ (s : State) (i : RegNum) (k : PcWord) (o : RegOp) (r : RegShiftOp),
  (i ≠ 15 → s.operandPc i k = s.x i ∧ s.operandR15 i k = s.x i) ∧
  (i = 15 → s.operandPc i k = s.pcv k ∧ s.operandR15 i k = s.r15v k) ∧
  (o.rm = 15 → regOperand s o = shiftByField o.kind (s.r15v 2) o.amount s.psr.c) ∧
  (o.rm ≠ 15 → regOperand s o = shiftByField o.kind (s.x o.rm) o.amount s.psr.c) ∧
  (r.rm = 15 → r.rs = 15 → regShiftOperand s r = shiftByReg r.kind (s.r15v 3) ((s.pcv 2).toNat % 256) s.psr.c) ∧
  (r.rm = 15 → r.rs ≠ 15 → regShiftOperand s r = shiftByReg r.kind (s.r15v 3) ((s.x r.rs).toNat % 256) s.psr.c) ∧
  (r.rm ≠ 15 → r.rs = 15 → regShiftOperand s r = shiftByReg r.kind (s.x r.rm) ((s.pcv 2).toNat % 256) s.psr.c) ∧
  (r.rm ≠ 15 → r.rs ≠ 15 → regShiftOperand s r = shiftByReg r.kind (s.x r.rm) ((s.x r.rs).toNat % 256) s.psr.c)

/-! ### Data processing -/

/-- The twelve result-producing opcodes with an immediate: Rd, the flags if S, A + 4, and nothing else; the marks on the prefetched words go
on (R160, R170, R171; R91). -/
def Obligations.ResultOfImmediate : Prop := ∀ r ∈ resultRows, ∀ (o : Dp ImmOp) (s : State),
  condPassed o.cond s.psr = true → o.rd ≠ 15 →
  ∃ t, exec (r.imm o) s = .next t ∧
    ResultWritten o.s o.rd (r.fn s.psr (s.operandPc o.rn 2) (immOperand s.psr.c o.op2).value (immOperand s.psr.c o.op2).carry) s t

/-- The twelve result-producing opcodes with a register shifted by a constant. -/
def Obligations.ResultOfRegister : Prop := ∀ r ∈ resultRows, ∀ (o : Dp RegOp) (s : State),
  condPassed o.cond s.psr = true → o.rd ≠ 15 →
  ∃ t, exec (r.reg o) s = .next t ∧
    ResultWritten o.s o.rd (r.fn s.psr (s.operandPc o.rn 2) (regOperand s o.op2).value (regOperand s o.op2).carry) s t

/-- The twelve result-producing opcodes with a register shifted by a register; Rn = 15 is 12 bytes ahead (R166). -/
def Obligations.ResultOfShiftedRegister : Prop := ∀ r ∈ resultRows, ∀ (o : Dp RegShiftOp) (s : State),
  condPassed o.cond s.psr = true → o.rd ≠ 15 →
  ∃ t, exec (r.regShift o) s = .next t ∧
    ResultWritten o.s o.rd (r.fn s.psr (s.operandPc o.rn 3) (regShiftOperand s o.op2).value (regShiftOperand s o.op2).carry) s t

/-- The twelve result-producing opcodes into R15: the PC's 24 bits alone with S = 0, the PSR from the result as well with S = 1,
under the mode's protection (R172, R174). -/
def Obligations.ResultIntoR15 : Prop := ∀ r ∈ resultRows, ∀ s : State,
  (∀ o : Dp ImmOp, condPassed o.cond s.psr = true → o.rd = 15 → ∃ t, exec (r.imm o) s = .next t ∧
    PcWritten o.s (r.fn s.psr (s.operandPc o.rn 2) (immOperand s.psr.c o.op2).value (immOperand s.psr.c o.op2).carry).value s t) ∧
  (∀ o : Dp RegOp, condPassed o.cond s.psr = true → o.rd = 15 → ∃ t, exec (r.reg o) s = .next t ∧
    PcWritten o.s (r.fn s.psr (s.operandPc o.rn 2) (regOperand s o.op2).value (regOperand s o.op2).carry).value s t) ∧
  (∀ o : Dp RegShiftOp, condPassed o.cond s.psr = true → o.rd = 15 → ∃ t, exec (r.regShift o) s = .next t ∧
    PcWritten o.s (r.fn s.psr (s.operandPc o.rn 3) (regShiftOperand s o.op2).value (regShiftOperand s o.op2).carry).value s t)

/-- The four tests in their three forms: the flags of the result, A + 4, and nothing else; the marks on the prefetched words go on (R170,
R171, R188 to R191; R91). -/
def Obligations.TestsSetFlags : Prop := ∀ r ∈ testRows, ∀ s : State,
  (∀ o : Test ImmOp, condPassed o.cond s.psr = true → o.rd ≠ 15 → ∃ t, exec (r.imm o) s = .next t ∧
    t.psr = flagsOf s.psr (r.fn s.psr (s.operandPc o.rn 2) (immOperand s.psr.c o.op2).value (immOperand s.psr.c o.op2).carry) ∧
    t.pc = s.pc + 1 ∧ t.regs = s.regs ∧ KeepsMemory s t ∧ KeepsRest s t ∧ PrefetchCarried s t) ∧
  (∀ o : Test RegOp, condPassed o.cond s.psr = true → o.rd ≠ 15 → ∃ t, exec (r.reg o) s = .next t ∧
    t.psr = flagsOf s.psr (r.fn s.psr (s.operandPc o.rn 2) (regOperand s o.op2).value (regOperand s o.op2).carry) ∧
    t.pc = s.pc + 1 ∧ t.regs = s.regs ∧ KeepsMemory s t ∧ KeepsRest s t ∧ PrefetchCarried s t) ∧
  (∀ o : Test RegShiftOp, condPassed o.cond s.psr = true → o.rd ≠ 15 → ∃ t, exec (r.regShift o) s = .next t ∧
    t.psr = flagsOf s.psr (r.fn s.psr (s.operandPc o.rn 3) (regShiftOperand s o.op2).value (regShiftOperand s o.op2).carry) ∧
    t.pc = s.pc + 1 ∧ t.regs = s.regs ∧ KeepsMemory s t ∧ KeepsRest s t ∧ PrefetchCarried s t)

/-- A test with Rd = 15 writes the PSR from its result, not the PC (R173); a mode it changes opens the settling window (R470); the marks on the
prefetched words go on (R91). -/
def Obligations.TestsWritePsr : Prop := ∀ r ∈ testRows, ∀ s : State,
  (∀ o : Test ImmOp, condPassed o.cond s.psr = true → o.rd = 15 → ∃ t, exec (r.imm o) s = .next t ∧
    t.psr = s.psr.write
      (r.fn s.psr (s.operandPc o.rn 2) (immOperand s.psr.c o.op2).value (immOperand s.psr.c o.op2).carry).value ∧
    (t.psr.mode ≠ s.psr.mode → t.hazard = .modeChanged) ∧ (t.psr.mode = s.psr.mode → t.hazard = s.hazard) ∧
    t.pc = s.pc + 1 ∧ t.regs = s.regs ∧ KeepsMemory s t ∧ KeepsInputs s t ∧ t.coprocs = s.coprocs ∧ PrefetchCarried s t) ∧
  (∀ o : Test RegOp, condPassed o.cond s.psr = true → o.rd = 15 → ∃ t, exec (r.reg o) s = .next t ∧
    t.psr = s.psr.write (r.fn s.psr (s.operandPc o.rn 2) (regOperand s o.op2).value (regOperand s o.op2).carry).value ∧
    (t.psr.mode ≠ s.psr.mode → t.hazard = .modeChanged) ∧ (t.psr.mode = s.psr.mode → t.hazard = s.hazard) ∧
    t.pc = s.pc + 1 ∧ t.regs = s.regs ∧ KeepsMemory s t ∧ KeepsInputs s t ∧ t.coprocs = s.coprocs ∧ PrefetchCarried s t) ∧
  (∀ o : Test RegShiftOp, condPassed o.cond s.psr = true → o.rd = 15 → ∃ t, exec (r.regShift o) s = .next t ∧
    t.psr = s.psr.write (r.fn s.psr (s.operandPc o.rn 3) (regShiftOperand s o.op2).value (regShiftOperand s o.op2).carry).value ∧
    (t.psr.mode ≠ s.psr.mode → t.hazard = .modeChanged) ∧ (t.psr.mode = s.psr.mode → t.hazard = s.hazard) ∧
    t.pc = s.pc + 1 ∧ t.regs = s.regs ∧ KeepsMemory s t ∧ KeepsInputs s t ∧ t.coprocs = s.coprocs ∧ PrefetchCarried s t)

/-! ### Multiply -/

/-- MUL and MLA into a register other than R15 and Rm: the low 32 bits, N and Z of them if S, V as it was; C is a free bit
then, of which nothing is said (R221, R222, R224, R226). -/
def Obligations.MultiplyResult : Prop := ∀ (o : Mul) (s : State),
  condPassed o.cond s.psr = true → o.rd ≠ 15 → o.rd ≠ o.rm →
  (∃ t, exec (.mul o) s = .next t ∧ t.x o.rd = s.operandR15 o.rm 3 * s.operandPc o.rs 2 ∧
    t.psr = (if o.s then { s.psr with n := (t.x o.rd).msb, z := decide (t.x o.rd = 0), c := t.psr.c } else s.psr) ∧
    t.pc = s.pc + 1 ∧ KeepsRegs s.psr.mode [o.rd] s t ∧ KeepsMemory s t ∧ KeepsInputs s t ∧ t.coprocs = s.coprocs ∧
    t.hazard = s.hazard ∧ PrefetchCarried s t) ∧
  (∃ t, exec (.mla o) s = .next t ∧ t.x o.rd = s.operandR15 o.rm 3 * s.operandPc o.rs 2 + s.operandR15 o.rn 2 ∧
    t.psr = (if o.s then { s.psr with n := (t.x o.rd).msb, z := decide (t.x o.rd = 0), c := t.psr.c } else s.psr) ∧
    t.pc = s.pc + 1 ∧ KeepsRegs s.psr.mode [o.rd] s t ∧ KeepsMemory s t ∧ KeepsInputs s t ∧ t.coprocs = s.coprocs ∧
    t.hazard = s.hazard ∧ PrefetchCarried s t)

/-- MUL with Rd = Rm writes 0, with N clear and Z set if S; MLA with Rd = Rm completes with a free value in Rd, of which nothing is
said, and leaves V, I, F, the mode and everything else (R223). -/
def Obligations.MultiplyOntoRm : Prop := ∀ (o : Mul) (s : State),
  condPassed o.cond s.psr = true → o.rd ≠ 15 → o.rd = o.rm →
  (∃ t, exec (.mul o) s = .next t ∧ t.x o.rd = 0 ∧
    t.psr = (if o.s then { s.psr with n := false, z := true, c := t.psr.c } else s.psr) ∧
    t.pc = s.pc + 1 ∧ KeepsRegs s.psr.mode [o.rd] s t ∧ KeepsMemory s t ∧ KeepsInputs s t ∧ t.coprocs = s.coprocs ∧
    t.hazard = s.hazard ∧ PrefetchCarried s t) ∧
  (∃ t, exec (.mla o) s = .next t ∧
    t.psr = (if o.s then { s.psr with n := t.psr.n, z := t.psr.z, c := t.psr.c } else s.psr) ∧
    t.pc = s.pc + 1 ∧ KeepsRegs s.psr.mode [o.rd] s t ∧ KeepsMemory s t ∧ KeepsInputs s t ∧ t.coprocs = s.coprocs ∧
    t.hazard = s.hazard ∧ PrefetchCarried s t)

/-- MUL and MLA with Rd = 15 write no register and go on at A + 4; I, F and the mode stay, and with S = 0 the flags too (R223). -/
def Obligations.MultiplyIntoR15 : Prop := ∀ (o : Mul) (s : State) (i : Instr),
  condPassed o.cond s.psr = true → o.rd = 15 → i = .mul o ∨ i = .mla o →
  ∃ t, exec i s = .next t ∧ t.regs = s.regs ∧ t.pc = s.pc + 1 ∧
    t.psr = (if o.s then { s.psr with n := t.psr.n, z := t.psr.z, c := t.psr.c, v := t.psr.v } else s.psr) ∧
    KeepsMemory s t ∧ KeepsInputs s t ∧ t.coprocs = s.coprocs ∧ t.hazard = s.hazard ∧ PrefetchCarried s t

/-! ### Single data transfer -/

/-- The address of a single transfer, its modified base and its write-back, for an immediate and a register offset alike (R242, R246,
R247); an immediate offset is zero-extended (R241). -/
def Obligations.TransferAddress : Prop := ∀ (o : Sdt (BitVec 12)) (q : Sdt RegOp) (off : Word) (s : State),
  (immOffset o.offset).toNat = o.offset.toNat ∧
  (sdtAddr s o off =
    let base := if o.rn = 15 then s.pcv 2 else s.x o.rn
    let modified := if o.u then base + off else base - off
    ⟨if o.p then modified else base, modified, !o.p || o.w⟩) ∧
  (sdtAddr s q off =
    let base := if q.rn = 15 then s.pcv 2 else s.x q.rn
    let modified := if q.u then base + off else base - off
    ⟨if q.p then modified else base, modified, !q.p || q.w⟩)

/-- LDR into a register: the big-endian word at the address, aligned or not, wins over the written-back base (R67, R68, R243, R245,
R260). -/
def Obligations.LoadWord : Prop := ∀ s : State,
  (∀ o : Sdt (BitVec 12), condPassed o.cond s.psr = true → o.rd ≠ 15 →
    let a := sdtAddr s o (immOffset o.offset)
    s.readAborts (forcedTran o.p o.w) a.addr = false →
    ∃ t, exec (.ldrImm o) s = .next t ∧ Loaded o a
      (s.byteAt a.addr ++ s.byteAt (a.addr + 1) ++ s.byteAt (a.addr + 2) ++ s.byteAt (a.addr + 3)) s t) ∧
  (∀ o : Sdt RegOp, condPassed o.cond s.psr = true → o.rd ≠ 15 →
    let a := sdtAddr s o (regOperand s o.offset).value
    s.readAborts (forcedTran o.p o.w) a.addr = false →
    ∃ t, exec (.ldrReg o) s = .next t ∧ Loaded o a
      (s.byteAt a.addr ++ s.byteAt (a.addr + 1) ++ s.byteAt (a.addr + 2) ++ s.byteAt (a.addr + 3)) s t)

/-- LDRB into a register: the byte at the address, zero-extended (R66, R243, R245, R261). -/
def Obligations.LoadByte : Prop := ∀ s : State,
  (∀ o : Sdt (BitVec 12), condPassed o.cond s.psr = true → o.rd ≠ 15 →
    let a := sdtAddr s o (immOffset o.offset)
    s.aborted (s.dataCycle .read true (forcedTran o.p o.w) a.addr) = false →
    ∃ t, exec (.ldrbImm o) s = .next t ∧ Loaded o a (0#24 ++ s.byteAt a.addr) s t) ∧
  (∀ o : Sdt RegOp, condPassed o.cond s.psr = true → o.rd ≠ 15 →
    let a := sdtAddr s o (regOperand s o.offset).value
    s.aborted (s.dataCycle .read true (forcedTran o.p o.w) a.addr) = false →
    ∃ t, exec (.ldrbReg o) s = .next t ∧ Loaded o a (0#24 ++ s.byteAt a.addr) s t)

/-- LDR and LDRB with Rd = 15 change the PC alone, and the PSR not at all (R246, R260, R261). -/
def Obligations.LoadIntoR15 : Prop := ∀ s : State,
  (∀ o : Sdt (BitVec 12), condPassed o.cond s.psr = true → o.rd = 15 →
    let a := sdtAddr s o (immOffset o.offset)
    (s.readAborts (forcedTran o.p o.w) a.addr = false →
      ∃ t, exec (.ldrImm o) s = .next t ∧ LoadedPc o a (s.wordAt a.addr) s t) ∧
    (s.aborted (s.dataCycle .read true (forcedTran o.p o.w) a.addr) = false →
      ∃ t, exec (.ldrbImm o) s = .next t ∧ LoadedPc o a (0#24 ++ s.byteAt a.addr) s t)) ∧
  (∀ o : Sdt RegOp, condPassed o.cond s.psr = true → o.rd = 15 →
    let a := sdtAddr s o (regOperand s o.offset).value
    (s.readAborts (forcedTran o.p o.w) a.addr = false →
      ∃ t, exec (.ldrReg o) s = .next t ∧ LoadedPc o a (s.wordAt a.addr) s t) ∧
    (s.aborted (s.dataCycle .read true (forcedTran o.p o.w) a.addr) = false →
      ∃ t, exec (.ldrbReg o) s = .next t ∧ LoadedPc o a (0#24 ++ s.byteAt a.addr) s t))

/-- STR: the four bytes of Rd, or of R15 12 bytes ahead, at the address, aligned or not, where RAM answers, and no other byte; and the marks
on the prefetched words (R70, R71, R91, R246, R262). -/
def Obligations.StoreWord : Prop := ∀ s : State, s.mem.wf = true →
  (∀ o : Sdt (BitVec 12), condPassed o.cond s.psr = true →
    let a := sdtAddr s o (immOffset o.offset)
    (a.wb = true → o.rd ≠ o.rn) → wordStoreAborts s (forcedTran o.p o.w) a.addr = false →
    ∃ t, exec (.strImm o) s = .next t ∧ HoldsWord s t a.addr (if o.rd = 15 then s.r15v 3 else s.x o.rd) ∧
      KeepsMemoryOutside a.addr 4 s t ∧ StoreLeft o a 4 s t) ∧
  (∀ o : Sdt RegOp, condPassed o.cond s.psr = true →
    let a := sdtAddr s o (regOperand s o.offset).value
    (a.wb = true → o.rd ≠ o.rn) → wordStoreAborts s (forcedTran o.p o.w) a.addr = false →
    ∃ t, exec (.strReg o) s = .next t ∧ HoldsWord s t a.addr (if o.rd = 15 then s.r15v 3 else s.x o.rd) ∧
      KeepsMemoryOutside a.addr 4 s t ∧ StoreLeft o a 4 s t)

/-- STRB: the low byte of Rd, or of R15 12 bytes ahead, at the address, where RAM answers, and no other byte; and the marks on the
prefetched words (R69, R91, R246, R263). -/
def Obligations.StoreByte : Prop := ∀ s : State, s.mem.wf = true →
  (∀ o : Sdt (BitVec 12), condPassed o.cond s.psr = true →
    let a := sdtAddr s o (immOffset o.offset)
    (a.wb = true → o.rd ≠ o.rn) → s.aborted (s.dataCycle .write true (forcedTran o.p o.w) a.addr) = false →
    ∃ t, exec (.strbImm o) s = .next t ∧ HoldsByte s t a.addr (field (if o.rd = 15 then s.r15v 3 else s.x o.rd) 0 8) ∧
      KeepsMemoryOutside a.addr 1 s t ∧ StoreLeft o a 1 s t) ∧
  (∀ o : Sdt RegOp, condPassed o.cond s.psr = true →
    let a := sdtAddr s o (regOperand s o.offset).value
    (a.wb = true → o.rd ≠ o.rn) → s.aborted (s.dataCycle .write true (forcedTran o.p o.w) a.addr) = false →
    ∃ t, exec (.strbReg o) s = .next t ∧ HoldsByte s t a.addr (field (if o.rd = 15 then s.r15v 3 else s.x o.rd) 0 8) ∧
      KeepsMemoryOutside a.addr 1 s t ∧ StoreLeft o a 1 s t)

/-- An LDR of which a bus cycle aborts, and an LDRB, STR or STRB whose first one does, takes the data abort as though it had not
executed: no register, no base and no byte of memory changes (R252, R405). That the first cycle of an unaligned STR then writes
nothing is log entry 8. -/
def Obligations.TransferAborts : Prop := ∀ s : State,
  (∀ o : Sdt (BitVec 12), condPassed o.cond s.psr = true →
    let a := sdtAddr s o (immOffset o.offset)
    let cycle := fun kind byte => s.aborted (s.dataCycle kind byte (forcedTran o.p o.w) a.addr)
    let traps := fun i => ∃ t, exec i s = .next t ∧ TrapTaken s t (.svc 1) (s.pc + 2) 4 .svc s.psr.f ∧
      KeepsForTrap s t ∧ KeepsInputs s t
    (s.readAborts (forcedTran o.p o.w) a.addr = true → traps (.ldrImm o)) ∧ (cycle .read true = true → traps (.ldrbImm o)) ∧
    ((a.wb = true → o.rd ≠ o.rn) →
      (cycle .write false = true → traps (.strImm o)) ∧ (cycle .write true = true → traps (.strbImm o)))) ∧
  (∀ o : Sdt RegOp, condPassed o.cond s.psr = true →
    let a := sdtAddr s o (regOperand s o.offset).value
    let cycle := fun kind byte => s.aborted (s.dataCycle kind byte (forcedTran o.p o.w) a.addr)
    let traps := fun i => ∃ t, exec i s = .next t ∧ TrapTaken s t (.svc 1) (s.pc + 2) 4 .svc s.psr.f ∧
      KeepsForTrap s t ∧ KeepsInputs s t
    (s.readAborts (forcedTran o.p o.w) a.addr = true → traps (.ldrReg o)) ∧ (cycle .read true = true → traps (.ldrbReg o)) ∧
    ((a.wb = true → o.rd ≠ o.rn) →
      (cycle .write false = true → traps (.strReg o)) ∧ (cycle .write true = true → traps (.strbReg o))))

/-- An unaligned STR, in both offset forms, whose second bus cycle alone aborts takes the data abort, with the bytes below the word
boundary written where RAM answers and no other byte changed, and without write-back (R71, R84). The address of the second cycle is read from
R71 (log entry 7). -/
def Obligations.SecondStoreCycleAborts : Prop := ∀ s : State, s.mem.wf = true →
  (∀ o : Sdt (BitVec 12), condPassed o.cond s.psr = true →
    let a := sdtAddr s o (immOffset o.offset)
    let v := if o.rd = 15 then s.r15v 3 else s.x o.rd
    let below := 4 - a.addr.toNat % 4
    (a.wb = true → o.rd ≠ o.rn) → a.addr.toNat % 4 ≠ 0 →
    s.aborted (s.dataCycle .write false (forcedTran o.p o.w) a.addr) = false →
    s.aborted (s.dataCycle .write false (forcedTran o.p o.w) (nextWord a.addr)) = true →
    ∃ t, exec (.strImm o) s = .next t ∧ TrapTaken s t (.svc 1) (s.pc + 2) 4 .svc s.psr.f ∧
      (∀ k, k < below → HoldsByte s t (a.addr + BitVec.ofNat 32 k) (v.extractLsb' (24 - 8 * k) 8)) ∧
      KeepsMemoryOutside a.addr below s t ∧ KeepsInputs s t ∧ t.coprocs = s.coprocs ∧ t.draws = s.draws) ∧
  (∀ o : Sdt RegOp, condPassed o.cond s.psr = true →
    let a := sdtAddr s o (regOperand s o.offset).value
    let v := if o.rd = 15 then s.r15v 3 else s.x o.rd
    let below := 4 - a.addr.toNat % 4
    (a.wb = true → o.rd ≠ o.rn) → a.addr.toNat % 4 ≠ 0 →
    s.aborted (s.dataCycle .write false (forcedTran o.p o.w) a.addr) = false →
    s.aborted (s.dataCycle .write false (forcedTran o.p o.w) (nextWord a.addr)) = true →
    ∃ t, exec (.strReg o) s = .next t ∧ TrapTaken s t (.svc 1) (s.pc + 2) 4 .svc s.psr.f ∧
      (∀ k, k < below → HoldsByte s t (a.addr + BitVec.ofNat 32 k) (v.extractLsb' (24 - 8 * k) 8)) ∧
      KeepsMemoryOutside a.addr below s t ∧ KeepsInputs s t ∧ t.coprocs = s.coprocs ∧ t.draws = s.draws)

/-! ### Block data transfer -/

/-- The lowest address and the write-back value of each of the four stacking modes, for a list of `n` registers, and the listed
registers in rising order (R280, R281, R290). -/
def Obligations.BlockAddresses : Prop := ∀ (o : Bdt) (s : State),
  let base := if o.rn = 15 then s.r15v 2 else s.x o.rn
  let size : Word := BitVec.ofNat 32 (4 * listCount o)
  (o.p = false → o.u = true → blockFirst s o = base ∧ blockFinal s o = base + size) ∧
  (o.p = true → o.u = true → blockFirst s o = base + 4 ∧ blockFinal s o = base + size) ∧
  (o.p = false → o.u = false → blockFirst s o = base - size + 4 ∧ blockFinal s o = base - size) ∧
  (o.p = true → o.u = false → blockFirst s o = base - size ∧ blockFinal s o = base - size) ∧
  (listedRegs o.list).Pairwise (fun a b => a.toNat < b.toNat) ∧
  (∀ r : RegNum, r ∈ listedRegs o.list ↔ o.list.getLsbD r.toNat = true)

/-- LDM without R15 in the list: each register gets its word, in the bank the S bit and the mode select, the base is written back
unless loaded, no flag changes (R287, R288, R293, R295). -/
def Obligations.LoadMultiple : Prop := ∀ (o : Bdt) (s : State),
  condPassed o.cond s.psr = true → o.list ≠ 0 → o.list.getLsbD 15 = false → field (blockFirst s o) 0 2 = 0 →
  (∀ k, k < listCount o → blockReadAborts s o k = false) →
  ∃ t, exec (.ldm o) s = .next t ∧
    BlockLoaded s t o (if o.s = true ∧ s.psr.mode ≠ .user then .user else s.psr.mode) ∧
    t.pc = s.pc + 1 ∧ t.psr = s.psr ∧ KeepsInputs s t ∧ t.coprocs = s.coprocs ∧ t.draws = s.draws ∧
    t.hazard = (if o.s = true ∧ s.psr.mode ≠ .user then .userBankLoaded else s.hazard) ∧ PrefetchCarried s t

/-- LDM with R15 in the list: the others go to the bank of the mode at the start, the PC gets bits 25:2 of the last word, and with S
the PSR gets its status bits under the mode's protection (R287, R291). -/
def Obligations.LoadMultipleIntoR15 : Prop := ∀ (o : Bdt) (s : State),
  condPassed o.cond s.psr = true → o.list.getLsbD 15 = true → field (blockFirst s o) 0 2 = 0 →
  (∀ k, k < listCount o → blockReadAborts s o k = false) →
  let v := s.wordAt (wordAddr (blockFirst s o) (listCount o - 1))
  ∃ t, exec (.ldm o) s = .next t ∧ BlockLoaded s t o s.psr.mode ∧
    t.pc = field v 2 24 ∧ t.psr = (if o.s then s.psr.write v else s.psr) ∧ t.pipe = Pipeline.fresh ∧ KeepsRest s t

/-- LDM that first aborts at word `k`: the registers two or more places before it are loaded, the base ends as the modified one or as
it was, no other register but R14_svc changes, and the data abort is taken (R287, R293, R297). In which bank the base ends for a user-bank load,
the user bank with write-back and the current bank without, is deduced (log entry 9): R297 names no bank. -/
def Obligations.LoadMultipleAborts : Prop := ∀ (o : Bdt) (s : State) (k : Nat),
  condPassed o.cond s.psr = true → field (blockFirst s o) 0 2 = 0 →
  k < listCount o → blockReadAborts s o k = true → (∀ j, j < k → blockReadAborts s o j = false) →
  let bank := bankMode (loadsUserBank s o) s
  ∃ t, exec (.ldm o) s = .next t ∧
    (∀ j r, j + 2 ≤ k → (listedRegs o.list)[j]? = some r → r ≠ o.rn → phys bank r ≠ some (.svc 1) →
      t.regs.read bank r = s.wordAt (wordAddr (blockFirst s o) j)) ∧
    (blockWb o = true → phys bank o.rn ≠ some (.svc 1) → t.regs.read bank o.rn = blockFinal s o) ∧
    (blockWb o = false → o.rn ≠ 15 → phys s.psr.mode o.rn ≠ some (.svc 1) → t.regs.read s.psr.mode o.rn = s.x o.rn) ∧
    (∀ p, p ≠ .svc 1 → (∀ j r, j + 2 ≤ k → (listedRegs o.list)[j]? = some r → phys bank r ≠ some p) →
      (blockWb o = true → phys bank o.rn ≠ some p) → t.regs.get p = s.regs.get p) ∧
    t.regs.get (.svc 1) = s.psr.r15 (s.pc + 2) ∧ t.psr = { s.psr with i := true, mode := .svc } ∧ t.pc = 4 ∧
    t.pipe = Pipeline.fresh ∧ t.hazard = .clear ∧ KeepsMemory s t ∧ KeepsInputs s t ∧ t.coprocs = s.coprocs ∧ t.draws = s.draws

/-- STM: each listed register's word at its address, R15 as R15v(12), the base unchanged if it comes first and modified after; no
other byte; the base written back; no flag; and the marks on the prefetched words (R91, R287, R288, R289, R292, R296). -/
def Obligations.StoreMultiple : Prop := ∀ (o : Bdt) (s : State),
  s.mem.wf = true → condPassed o.cond s.psr = true → o.list ≠ 0 → field (blockFirst s o) 0 2 = 0 →
  (∀ k, k < listCount o → blockWriteAborts s o k = false) →
  let bank := bankMode (storesUserBank s o) s
  ∃ t, exec (.stm o) s = .next t ∧
    (∀ k r, (listedRegs o.list)[k]? = some r → ∃ v, BlockSends s o k r v ∧ HoldsWord s t (wordAddr (blockFirst s o) k) v) ∧
    KeepsMemoryOutside (blockFirst s o) (4 * listCount o) s t ∧
    (blockWb o = true → t.regs.read bank o.rn = blockFinal s o) ∧
    KeepsRegs bank (if blockWb o then [o.rn] else []) s t ∧ t.psr = s.psr ∧ t.pc = s.pc + 1 ∧ KeepsRest s t ∧
    PrefetchMarked s t (blockFirst s o) (4 * listCount o)

/-- STM of which some write aborts: every write that does not abort reaches memory, one that does changes nothing, the base is
written back all the same, and the data abort is taken (R298). That a user-bank store writes its base back in the user bank then too is
deduced (log entry 26). -/
def Obligations.StoreMultipleAborts : Prop := ∀ (o : Bdt) (s : State) (j : Nat),
  s.mem.wf = true → condPassed o.cond s.psr = true → field (blockFirst s o) 0 2 = 0 →
  j < listCount o → blockWriteAborts s o j = true →
  let bank := bankMode (storesUserBank s o) s
  ∃ t, exec (.stm o) s = .next t ∧
    (∀ k r, (listedRegs o.list)[k]? = some r → blockWriteAborts s o k = false →
      ∃ v, BlockSends s o k r v ∧ HoldsWord s t (wordAddr (blockFirst s o) k) v) ∧
    (∀ k, k < listCount o → blockWriteAborts s o k = true →
      t.wordAt (wordAddr (blockFirst s o) k) = s.wordAt (wordAddr (blockFirst s o) k)) ∧
    KeepsMemoryOutside (blockFirst s o) (4 * listCount o) s t ∧
    (blockWb o = true → phys bank o.rn ≠ some (.svc 1) → t.regs.read bank o.rn = blockFinal s o) ∧
    (∀ p, p ≠ .svc 1 → (blockWb o = true → phys bank o.rn ≠ some p) → t.regs.get p = s.regs.get p) ∧
    t.regs.get (.svc 1) = s.psr.r15 (s.pc + 2) ∧ t.psr = { s.psr with i := true, mode := .svc } ∧ t.pc = 4 ∧
    t.pipe = Pipeline.fresh ∧ t.hazard = .clear ∧ KeepsInputs s t ∧ t.coprocs = s.coprocs ∧ t.draws = s.draws

/-- A store whose data register is the base it writes back (R245), a block transfer of no register (R285) and one from a first address
that is no multiple of 4 (R286) stop, each by its own name. -/
def Obligations.TransfersRefused : Prop := ∀ s : State,
  (∀ o : Sdt (BitVec 12), condPassed o.cond s.psr = true → o.rd = o.rn → (o.p = false ∨ o.w = true) →
    exec (.strImm o) s = .refused .storeOfWrittenBackBase ∧ exec (.strbImm o) s = .refused .storeOfWrittenBackBase) ∧
  (∀ o : Sdt RegOp, condPassed o.cond s.psr = true → o.rd = o.rn → (o.p = false ∨ o.w = true) →
    exec (.strReg o) s = .refused .storeOfWrittenBackBase ∧ exec (.strbReg o) s = .refused .storeOfWrittenBackBase) ∧
  (∀ o : Bdt, condPassed o.cond s.psr = true →
    (o.list = 0 → exec (.ldm o) s = .refused .emptyRegisterList ∧ exec (.stm o) s = .refused .emptyRegisterList) ∧
    (o.list ≠ 0 → (blockFirst s o).toNat % 4 ≠ 0 →
      exec (.ldm o) s = .refused .unalignedBlock ∧ exec (.stm o) s = .refused .unalignedBlock))

/-! ### Branches and exceptions -/

/-- B and BL go to A + 8 plus the signed word offset, modulo 2^26; BL leaves the PSR and A + 4 in R14 of the current bank, B no
register changed (R145, R146). -/
def Obligations.Branches : Prop := ∀ (o : Br) (s : State), condPassed o.cond s.psr = true →
  (∃ t, exec (.b o) s = .next t ∧ t.pc = s.pc + 2 + o.offset24 ∧ t.regs = s.regs ∧ t.psr = s.psr ∧
    t.pipe = Pipeline.fresh ∧ KeepsMemory s t ∧ KeepsRest s t) ∧
  (∃ t, exec (.bl o) s = .next t ∧ t.pc = s.pc + 2 + o.offset24 ∧ t.x 14 = s.r15v 1 ∧
    KeepsRegs s.psr.mode [14] s t ∧ t.psr = s.psr ∧ t.pipe = Pipeline.fresh ∧ KeepsMemory s t ∧ KeepsRest s t)

/-- SWI enters Supervisor mode at 0x08 and the two undefined instructions at 0x04, from any mode, with the old PSR and A + 4 in R14_svc,
I set and F and the flags as they were (R320, R324, R410). -/
def Obligations.SwiAndUndefinedTrap : Prop := ∀ s : State,
  (∀ o : Swi, condPassed o.cond s.psr = true → ∃ t, exec (.swi o) s = .next t ∧
    TrapTaken s t (.svc 1) (s.pc + 1) 2 .svc s.psr.f ∧ KeepsForTrap s t ∧ KeepsInputs s t) ∧
  (∀ (o : Raw) (i : Instr), condPassed o.cond s.psr = true → i = .undefined1 o ∨ i = .undefined2 o →
    ∃ t, exec i s = .next t ∧ TrapTaken s t (.svc 1) (s.pc + 1) 1 .svc s.psr.f ∧ KeepsForTrap s t ∧ KeepsInputs s t)

/-- The return sequences of R430 undo the entries: MOVS PC, R14 after an undefined instruction or SWI goes on at A + 4, SUBS PC, R14, 4
after a prefetch abort, IRQ or FIRQ at A or N, and SUBS PC, R14, 8 after a data abort at A, each with the old PSR. The subtractions
are said for the addresses whose saved PC field is at least the constant. -/
def Obligations.ReturnsUndoEntries : Prop := ∀ s : State,
  (∀ e, e = Trap.undefinedInstruction ∨ e = Trap.softwareInterrupt →
    ∃ u, exec (decodeWord 0xE1B0F00E) (s.enter e (s.pc + 1)) = .next u ∧ u.pc = s.pc + 1 ∧ u.psr = s.psr ∧
      ∀ p, p ≠ linkReg e.mode → u.regs.get p = s.regs.get p) ∧
  (∀ e, e = Trap.prefetchAbort ∨ e = Trap.irq ∨ e = Trap.firq → 1 ≤ (s.pc + 1).toNat →
    ∃ u, exec (decodeWord 0xE25EF004) (s.enter e (s.pc + 1)) = .next u ∧ u.pc = s.pc ∧ u.psr = s.psr ∧
      ∀ p, p ≠ linkReg e.mode → u.regs.get p = s.regs.get p) ∧
  (2 ≤ (s.pc + 2).toNat →
    ∃ u, exec (decodeWord 0xE25EF008) (s.enter .dataAbort (s.pc + 2)) = .next u ∧ u.pc = s.pc ∧ u.psr = s.psr ∧
      ∀ p, p ≠ .svc 1 → u.regs.get p = s.regs.get p)

/-! ### Coprocessor instructions -/

/-- A coprocessor instruction that no coprocessor accepts takes the undefined instruction trap with nothing else changed: no transfer
and no write-back (R344). -/
def Obligations.CoprocessorAbsentTraps : Prop := ∀ (s : State) (i : Instr) (cpNum : BitVec 4),
  (∃ o, i = .cdp o ∧ cpNum = o.cpNum) ∨ (∃ o, i = .ldc o ∧ cpNum = o.cpNum) ∨ (∃ o, i = .stc o ∧ cpNum = o.cpNum) ∨
    (∃ o, i = .mcr o ∧ cpNum = o.cpNum) ∨ (∃ o, i = .mrc o ∧ cpNum = o.cpNum) →
  condPassed i.cond s.psr = true → offer s cpNum (encode i) = .absent →
  ∃ t, exec i s = .next t ∧ TrapTaken s t (.svc 1) (s.pc + 1) 1 .svc s.psr.f ∧ KeepsForTrap s t ∧ KeepsInputs s t

/-- CDP accepted: the coprocessor is handed the instruction and the processor changes nothing but the pc; MRC accepted: it is handed Rd,
or R15 with the PC 8 or 12 bytes ahead, and nothing else of the processor changes (R346, R360). What becomes of the coprocessor is the model's
choice (log entry 10): a record of what it was handed, with its queue and its rules as they were. -/
def Obligations.CoprocessorReceives : Prop := ∀ (s : State) (cp : Coproc) (n : Nat),
  (∀ o : Cdo, condPassed o.cond s.psr = true → AcceptedBy s o.cpNum (.cdp o) cp n →
    ∃ t, exec (.cdp o) s = .next t ∧ t.regs = s.regs ∧ t.psr = s.psr ∧ KeepsForCoproc s t ∧
      t.coprocs[o.cpNum.toFin] = some { cp with received := .dataOp (encode (.cdp o)) :: cp.received } ∧
      KeepsOtherCoprocs o.cpNum s t) ∧
  (∀ o : Crt, condPassed o.cond s.psr = true → AcceptedBy s o.cpNum (.mrc o) cp n →
    ∃ t v, exec (.mrc o) s = .next t ∧ t.regs = s.regs ∧ t.psr = s.psr ∧ KeepsForCoproc s t ∧
      (o.rd ≠ 15 → v = s.x o.rd) ∧ (o.rd = 15 → v = s.r15v 2 ∨ v = s.r15v 3) ∧
      t.coprocs[o.cpNum.toFin] = some { cp with received := .fromAprm (encode (.mrc o)) v :: cp.received } ∧
      KeepsOtherCoprocs o.cpNum s t)

/-- MCR accepted: the word the coprocessor supplies goes to Rd, or with Rd = 15 its bits 31:28 to N, Z, C and V alone, in every mode
(R358, R359). What a coprocessor supplies and keeps a record of, its queue, a free word where that is empty, is the model's choice
(log entry 10). -/
def Obligations.CoprocessorToRegister : Prop := ∀ (s : State) (cp : Coproc) (n : Nat) (o : Crt),
  condPassed o.cond s.psr = true → AcceptedBy s o.cpNum (.mcr o) cp n →
  ∃ t v, exec (.mcr o) s = .next t ∧ (∀ w, cp.outgoing.head? = some w → v = w) ∧
    (o.rd ≠ 15 → t.x o.rd = v ∧ t.psr = s.psr) ∧
    (o.rd = 15 → t.psr = { s.psr with n := bitAt v 31, z := bitAt v 30, c := bitAt v 29, v := bitAt v 28 }) ∧
    KeepsRegs s.psr.mode [o.rd] s t ∧ KeepsForCoproc s t ∧
    t.coprocs[o.cpNum.toFin] =
      some { cp with outgoing := cp.outgoing.drop 1, received := .toAprm (encode (.mcr o)) v :: cp.received } ∧
    KeepsOtherCoprocs o.cpNum s t

/-- LDC accepted: the coprocessor is handed the words at rising addresses from the first one, and the base is written back (R351,
R354). That it keeps a record of them and nothing else of it changes is the model's choice (log entry 10). -/
def Obligations.CoprocessorLoads : Prop := ∀ (s : State) (cp : Coproc) (n : Nat) (o : Cdt),
  condPassed o.cond s.psr = true → AcceptedBy s o.cpNum (.ldc o) cp n →
  let a := cdtAddr s o
  (a.wb = true → o.rn ≠ 15) → field a.addr 0 2 = 0 →
  (∀ k, k < n → s.aborted (s.dataCycle .read false (forcedTran o.p o.w) (wordAddr a.addr k)) = false) →
  ∃ t, exec (.ldc o) s = .next t ∧ CoprocBase o a s t ∧ KeepsForCoproc s t ∧
    t.coprocs[o.cpNum.toFin] = some { cp with
      received := .loaded (encode (.ldc o)) ((List.range n).map fun k => s.wordAt (wordAddr a.addr k)) :: cp.received } ∧
    KeepsOtherCoprocs o.cpNum s t

/-- STC accepted: the words the coprocessor supplies go to rising addresses from the first one and to no other byte, and the base is
written back (R351, R354); and the marks on the prefetched words (R91). What the coprocessor supplies, its queue and a free word where that
is short, and the record it keeps are the model's choice (log entry 10). -/
def Obligations.CoprocessorStores : Prop := ∀ (s : State) (cp : Coproc) (n : Nat) (o : Cdt),
  s.mem.wf = true → condPassed o.cond s.psr = true → AcceptedBy s o.cpNum (.stc o) cp n →
  let a := cdtAddr s o
  (a.wb = true → o.rn ≠ 15) → field a.addr 0 2 = 0 →
  (∀ k, k < n → s.aborted (s.dataCycle .write false (forcedTran o.p o.w) (wordAddr a.addr k)) = false) →
  ∃ t ws, exec (.stc o) s = .next t ∧ ws.length = n ∧ (∀ k v, k < n → cp.outgoing[k]? = some v → ws[k]? = some v) ∧
    (4 * n ≤ busSize s → ∀ k v, ws[k]? = some v → HoldsWord s t (wordAddr a.addr k) v) ∧
    KeepsMemoryOutside a.addr (4 * n) s t ∧ CoprocBase o a s t ∧ t.pc = s.pc + 1 ∧ KeepsInputs s t ∧
    t.hazard = s.hazard ∧ PrefetchMarked s t a.addr (4 * n) ∧
    t.coprocs[o.cpNum.toFin] = some { cp with
      outgoing := cp.outgoing.drop n, received := .stored (encode (.stc o)) ws :: cp.received } ∧
    KeepsOtherCoprocs o.cpNum s t

/-- An accepted LDC or STC of which an access aborts writes its base back, keeps every other register and takes the data abort (R355).
That the coprocessor is as before it is the model's choice (log entry 12). -/
def Obligations.CoprocessorTransferAborts : Prop := ∀ (s : State) (cp : Coproc) (n j : Nat) (o : Cdt) (i : Instr) (kind : CycleKind),
  (i = .ldc o ∧ kind = .read) ∨ (i = .stc o ∧ kind = .write) →
  condPassed o.cond s.psr = true → AcceptedBy s o.cpNum i cp n →
  let a := cdtAddr s o
  (a.wb = true → o.rn ≠ 15) → field a.addr 0 2 = 0 → j < n →
  s.aborted (s.dataCycle kind false (forcedTran o.p o.w) (wordAddr a.addr j)) = true →
  ∃ t, exec i s = .next t ∧
    (a.wb = true → phys s.psr.mode o.rn ≠ some (.svc 1) → t.regs.read s.psr.mode o.rn = a.modified) ∧
    (∀ p, p ≠ .svc 1 → (a.wb = true → phys s.psr.mode o.rn ≠ some p) → t.regs.get p = s.regs.get p) ∧
    t.regs.get (.svc 1) = s.psr.r15 (s.pc + 2) ∧ t.psr = { s.psr with i := true, mode := .svc } ∧ t.pc = 4 ∧
    t.pipe = Pipeline.fresh ∧ t.hazard = .clear ∧ KeepsInputs s t ∧ t.coprocs = s.coprocs ∧ (kind = .read → KeepsMemory s t) ∧ (kind = .write → s.mem.wf = true →
      KeepsMemoryOutside a.addr (4 * n) s t)

/-- Where an accepted coprocessor instruction stops: one that never becomes ready makes the processor wait for ever (R343), an LDC or STC
that would write R15 back (R352) or that starts at no multiple of 4 (R74) has no meaning. -/
def Obligations.CoprocessorStops : Prop := ∀ (s : State) (cp : Coproc) (n : Nat),
  (∀ (i : Instr) (cpNum : BitVec 4),
    (∃ o, i = .cdp o ∧ cpNum = o.cpNum) ∨ (∃ o, i = .ldc o ∧ cpNum = o.cpNum) ∨ (∃ o, i = .stc o ∧ cpNum = o.cpNum) ∨
      (∃ o, i = .mcr o ∧ cpNum = o.cpNum) ∨ (∃ o, i = .mrc o ∧ cpNum = o.cpNum) →
    condPassed i.cond s.psr = true → offer s cpNum (encode i) = .accepted cp n → cp.busy = true →
    exec i s = .fault .coprocessorNeverReady) ∧
  (∀ (o : Cdt) (i : Instr), i = .ldc o ∨ i = .stc o → condPassed o.cond s.psr = true → AcceptedBy s o.cpNum i cp n →
    ((o.rn = 15 → (o.p = false ∨ o.w = true) → exec i s = .refused .coprocessorBaseR15WriteBack) ∧
      ((o.rn = 15 → o.p = true ∧ o.w = false) → (cdtAddr s o).addr.toNat % 4 ≠ 0 →
        exec i s = .refused .unalignedBlock)))
end

