-- ==== Sys2Proof/Laws/State.lean ====
section
/-! SUPPORT. One lemma per field per update of the state, so that no proof unfolds a record update. -/

namespace Sys2Proof.Machine

section
variable (s : State)

@[simp] theorem State.setX_regs (i : RegNum) (v : Word) : (s.setX i v).regs = s.regs.write s.psr.mode i v := rfl
@[simp] theorem State.setX_pc (i : RegNum) (v : Word) : (s.setX i v).pc = s.pc := rfl
@[simp] theorem State.setX_psr (i : RegNum) (v : Word) : (s.setX i v).psr = s.psr := rfl
@[simp] theorem State.setX_mem (i : RegNum) (v : Word) : (s.setX i v).mem = s.mem := rfl
@[simp] theorem State.setX_memMap (i : RegNum) (v : Word) : (s.setX i v).memMap = s.memMap := rfl
@[simp] theorem State.setX_pipe (i : RegNum) (v : Word) : (s.setX i v).pipe = s.pipe := rfl
@[simp] theorem State.setX_hazard (i : RegNum) (v : Word) : (s.setX i v).hazard = s.hazard := rfl
@[simp] theorem State.setX_pins (i : RegNum) (v : Word) : (s.setX i v).pins = s.pins := rfl
@[simp] theorem State.setX_pinSchedule (i : RegNum) (v : Word) : (s.setX i v).pinSchedule = s.pinSchedule := rfl
@[simp] theorem State.setX_inReset (i : RegNum) (v : Word) : (s.setX i v).inReset = s.inReset := rfl
@[simp] theorem State.setX_aborts (i : RegNum) (v : Word) : (s.setX i v).aborts = s.aborts := rfl
@[simp] theorem State.setX_coprocs (i : RegNum) (v : Word) : (s.setX i v).coprocs = s.coprocs := rfl
@[simp] theorem State.setX_draws (i : RegNum) (v : Word) : (s.setX i v).draws = s.draws := rfl
@[simp] theorem State.setX_begun (i : RegNum) (v : Word) : (s.setX i v).begun = s.begun := rfl

@[simp] theorem State.setXIn_regs (b : Bool) (i : RegNum) (v : Word) : (s.setXIn b i v).regs = s.regs.write (if b then .user else s.psr.mode) i v := rfl
@[simp] theorem State.setXIn_pc (b : Bool) (i : RegNum) (v : Word) : (s.setXIn b i v).pc = s.pc := rfl
@[simp] theorem State.setXIn_psr (b : Bool) (i : RegNum) (v : Word) : (s.setXIn b i v).psr = s.psr := rfl
@[simp] theorem State.setXIn_mem (b : Bool) (i : RegNum) (v : Word) : (s.setXIn b i v).mem = s.mem := rfl
@[simp] theorem State.setXIn_memMap (b : Bool) (i : RegNum) (v : Word) : (s.setXIn b i v).memMap = s.memMap := rfl
@[simp] theorem State.setXIn_pipe (b : Bool) (i : RegNum) (v : Word) : (s.setXIn b i v).pipe = s.pipe := rfl
@[simp] theorem State.setXIn_hazard (b : Bool) (i : RegNum) (v : Word) : (s.setXIn b i v).hazard = s.hazard := rfl
@[simp] theorem State.setXIn_pins (b : Bool) (i : RegNum) (v : Word) : (s.setXIn b i v).pins = s.pins := rfl
@[simp] theorem State.setXIn_pinSchedule (b : Bool) (i : RegNum) (v : Word) : (s.setXIn b i v).pinSchedule = s.pinSchedule := rfl
@[simp] theorem State.setXIn_inReset (b : Bool) (i : RegNum) (v : Word) : (s.setXIn b i v).inReset = s.inReset := rfl
@[simp] theorem State.setXIn_aborts (b : Bool) (i : RegNum) (v : Word) : (s.setXIn b i v).aborts = s.aborts := rfl
@[simp] theorem State.setXIn_coprocs (b : Bool) (i : RegNum) (v : Word) : (s.setXIn b i v).coprocs = s.coprocs := rfl
@[simp] theorem State.setXIn_draws (b : Bool) (i : RegNum) (v : Word) : (s.setXIn b i v).draws = s.draws := rfl
@[simp] theorem State.setXIn_begun (b : Bool) (i : RegNum) (v : Word) : (s.setXIn b i v).begun = s.begun := rfl

@[simp] theorem State.advance_regs : (s.advance).regs = s.regs := rfl
@[simp] theorem State.advance_pc : (s.advance).pc = s.pc + 1 := rfl
@[simp] theorem State.advance_psr : (s.advance).psr = s.psr := rfl
@[simp] theorem State.advance_mem : (s.advance).mem = s.mem := rfl
@[simp] theorem State.advance_memMap : (s.advance).memMap = s.memMap := rfl
@[simp] theorem State.advance_pipe : (s.advance).pipe = s.pipe.shift := rfl
@[simp] theorem State.advance_hazard : (s.advance).hazard = s.hazard := rfl
@[simp] theorem State.advance_pins : (s.advance).pins = s.pins := rfl
@[simp] theorem State.advance_pinSchedule : (s.advance).pinSchedule = s.pinSchedule := rfl
@[simp] theorem State.advance_inReset : (s.advance).inReset = s.inReset := rfl
@[simp] theorem State.advance_aborts : (s.advance).aborts = s.aborts := rfl
@[simp] theorem State.advance_coprocs : (s.advance).coprocs = s.coprocs := rfl
@[simp] theorem State.advance_draws : (s.advance).draws = s.draws := rfl
@[simp] theorem State.advance_begun : (s.advance).begun = s.begun := rfl

@[simp] theorem State.branchTo_regs (t : Word) : (s.branchTo t).regs = s.regs := rfl
@[simp] theorem State.branchTo_pc (t : Word) : (s.branchTo t).pc = pcField t := rfl
@[simp] theorem State.branchTo_psr (t : Word) : (s.branchTo t).psr = s.psr := rfl
@[simp] theorem State.branchTo_mem (t : Word) : (s.branchTo t).mem = s.mem := rfl
@[simp] theorem State.branchTo_memMap (t : Word) : (s.branchTo t).memMap = s.memMap := rfl
@[simp] theorem State.branchTo_pipe (t : Word) : (s.branchTo t).pipe = Pipeline.fresh := rfl
@[simp] theorem State.branchTo_hazard (t : Word) : (s.branchTo t).hazard = s.hazard := rfl
@[simp] theorem State.branchTo_pins (t : Word) : (s.branchTo t).pins = s.pins := rfl
@[simp] theorem State.branchTo_pinSchedule (t : Word) : (s.branchTo t).pinSchedule = s.pinSchedule := rfl
@[simp] theorem State.branchTo_inReset (t : Word) : (s.branchTo t).inReset = s.inReset := rfl
@[simp] theorem State.branchTo_aborts (t : Word) : (s.branchTo t).aborts = s.aborts := rfl
@[simp] theorem State.branchTo_coprocs (t : Word) : (s.branchTo t).coprocs = s.coprocs := rfl
@[simp] theorem State.branchTo_draws (t : Word) : (s.branchTo t).draws = s.draws := rfl
@[simp] theorem State.branchTo_begun (t : Word) : (s.branchTo t).begun = s.begun := rfl

@[simp] theorem State.writePsr_regs (v : Word) : (s.writePsr v).regs = s.regs := rfl
@[simp] theorem State.writePsr_pc (v : Word) : (s.writePsr v).pc = s.pc := rfl
@[simp] theorem State.writePsr_psr (v : Word) : (s.writePsr v).psr = s.psr.write v := rfl
@[simp] theorem State.writePsr_mem (v : Word) : (s.writePsr v).mem = s.mem := rfl
@[simp] theorem State.writePsr_memMap (v : Word) : (s.writePsr v).memMap = s.memMap := rfl
@[simp] theorem State.writePsr_pipe (v : Word) : (s.writePsr v).pipe = s.pipe := rfl
@[simp] theorem State.writePsr_hazard (v : Word) : (s.writePsr v).hazard = s.hazard := rfl
@[simp] theorem State.writePsr_pins (v : Word) : (s.writePsr v).pins = s.pins := rfl
@[simp] theorem State.writePsr_pinSchedule (v : Word) : (s.writePsr v).pinSchedule = s.pinSchedule := rfl
@[simp] theorem State.writePsr_inReset (v : Word) : (s.writePsr v).inReset = s.inReset := rfl
@[simp] theorem State.writePsr_aborts (v : Word) : (s.writePsr v).aborts = s.aborts := rfl
@[simp] theorem State.writePsr_coprocs (v : Word) : (s.writePsr v).coprocs = s.coprocs := rfl
@[simp] theorem State.writePsr_draws (v : Word) : (s.writePsr v).draws = s.draws := rfl
@[simp] theorem State.writePsr_begun (v : Word) : (s.writePsr v).begun = s.begun := rfl

@[simp] theorem State.writePsrOnly_regs (v : Word) : (s.writePsrOnly v).regs = s.regs := rfl
@[simp] theorem State.writePsrOnly_pc (v : Word) : (s.writePsrOnly v).pc = s.pc := rfl
@[simp] theorem State.writePsrOnly_psr (v : Word) : (s.writePsrOnly v).psr = s.psr.write v := rfl
@[simp] theorem State.writePsrOnly_mem (v : Word) : (s.writePsrOnly v).mem = s.mem := rfl
@[simp] theorem State.writePsrOnly_memMap (v : Word) : (s.writePsrOnly v).memMap = s.memMap := rfl
@[simp] theorem State.writePsrOnly_pipe (v : Word) : (s.writePsrOnly v).pipe = s.pipe := rfl
@[simp] theorem State.writePsrOnly_hazard (v : Word) : (s.writePsrOnly v).hazard = if (s.psr.write v).mode = s.psr.mode then s.hazard else .modeChanged := rfl
@[simp] theorem State.writePsrOnly_pins (v : Word) : (s.writePsrOnly v).pins = s.pins := rfl
@[simp] theorem State.writePsrOnly_pinSchedule (v : Word) : (s.writePsrOnly v).pinSchedule = s.pinSchedule := rfl
@[simp] theorem State.writePsrOnly_inReset (v : Word) : (s.writePsrOnly v).inReset = s.inReset := rfl
@[simp] theorem State.writePsrOnly_aborts (v : Word) : (s.writePsrOnly v).aborts = s.aborts := rfl
@[simp] theorem State.writePsrOnly_coprocs (v : Word) : (s.writePsrOnly v).coprocs = s.coprocs := rfl
@[simp] theorem State.writePsrOnly_draws (v : Word) : (s.writePsrOnly v).draws = s.draws := rfl
@[simp] theorem State.writePsrOnly_begun (v : Word) : (s.writePsrOnly v).begun = s.begun := rfl

@[simp] theorem State.setFlags_regs (r : AluOut) : (s.setFlags r).regs = s.regs := rfl
@[simp] theorem State.setFlags_pc (r : AluOut) : (s.setFlags r).pc = s.pc := rfl
@[simp] theorem State.setFlags_psr (r : AluOut) : (s.setFlags r).psr = s.psr.withResult r := rfl
@[simp] theorem State.setFlags_mem (r : AluOut) : (s.setFlags r).mem = s.mem := rfl
@[simp] theorem State.setFlags_memMap (r : AluOut) : (s.setFlags r).memMap = s.memMap := rfl
@[simp] theorem State.setFlags_pipe (r : AluOut) : (s.setFlags r).pipe = s.pipe := rfl
@[simp] theorem State.setFlags_hazard (r : AluOut) : (s.setFlags r).hazard = s.hazard := rfl
@[simp] theorem State.setFlags_pins (r : AluOut) : (s.setFlags r).pins = s.pins := rfl
@[simp] theorem State.setFlags_pinSchedule (r : AluOut) : (s.setFlags r).pinSchedule = s.pinSchedule := rfl
@[simp] theorem State.setFlags_inReset (r : AluOut) : (s.setFlags r).inReset = s.inReset := rfl
@[simp] theorem State.setFlags_aborts (r : AluOut) : (s.setFlags r).aborts = s.aborts := rfl
@[simp] theorem State.setFlags_coprocs (r : AluOut) : (s.setFlags r).coprocs = s.coprocs := rfl
@[simp] theorem State.setFlags_draws (r : AluOut) : (s.setFlags r).draws = s.draws := rfl
@[simp] theorem State.setFlags_begun (r : AluOut) : (s.setFlags r).begun = s.begun := rfl

@[simp] theorem State.drawn_regs (k : Nat) : (s.drawn k).regs = s.regs := rfl
@[simp] theorem State.drawn_pc (k : Nat) : (s.drawn k).pc = s.pc := rfl
@[simp] theorem State.drawn_psr (k : Nat) : (s.drawn k).psr = s.psr := rfl
@[simp] theorem State.drawn_mem (k : Nat) : (s.drawn k).mem = s.mem := rfl
@[simp] theorem State.drawn_memMap (k : Nat) : (s.drawn k).memMap = s.memMap := rfl
@[simp] theorem State.drawn_pipe (k : Nat) : (s.drawn k).pipe = s.pipe := rfl
@[simp] theorem State.drawn_hazard (k : Nat) : (s.drawn k).hazard = s.hazard := rfl
@[simp] theorem State.drawn_pins (k : Nat) : (s.drawn k).pins = s.pins := rfl
@[simp] theorem State.drawn_pinSchedule (k : Nat) : (s.drawn k).pinSchedule = s.pinSchedule := rfl
@[simp] theorem State.drawn_inReset (k : Nat) : (s.drawn k).inReset = s.inReset := rfl
@[simp] theorem State.drawn_aborts (k : Nat) : (s.drawn k).aborts = s.aborts := rfl
@[simp] theorem State.drawn_coprocs (k : Nat) : (s.drawn k).coprocs = s.coprocs := rfl
@[simp] theorem State.drawn_draws (k : Nat) : (s.drawn k).draws = s.draws + k := rfl
@[simp] theorem State.drawn_begun (k : Nat) : (s.drawn k).begun = s.begun := rfl

@[simp] theorem State.enter_regs (e : Trap) (ret : PcWord) : (s.enter e ret).regs = s.regs.set (linkReg e.mode) (s.savedWord e ret) := rfl
@[simp] theorem State.enter_pc (e : Trap) (ret : PcWord) : (s.enter e ret).pc = e.vector := rfl
@[simp] theorem State.enter_psr (e : Trap) (ret : PcWord) : (s.enter e ret).psr = s.psr.enter e := rfl
@[simp] theorem State.enter_mem (e : Trap) (ret : PcWord) : (s.enter e ret).mem = s.mem := rfl
@[simp] theorem State.enter_memMap (e : Trap) (ret : PcWord) : (s.enter e ret).memMap = s.memMap := rfl
@[simp] theorem State.enter_pipe (e : Trap) (ret : PcWord) : (s.enter e ret).pipe = Pipeline.fresh := rfl
@[simp] theorem State.enter_hazard (e : Trap) (ret : PcWord) : (s.enter e ret).hazard = .clear := rfl
@[simp] theorem State.enter_pins (e : Trap) (ret : PcWord) : (s.enter e ret).pins = s.pins := rfl
@[simp] theorem State.enter_pinSchedule (e : Trap) (ret : PcWord) : (s.enter e ret).pinSchedule = s.pinSchedule := rfl
@[simp] theorem State.enter_inReset (e : Trap) (ret : PcWord) : (s.enter e ret).inReset = s.inReset := rfl
@[simp] theorem State.enter_aborts (e : Trap) (ret : PcWord) : (s.enter e ret).aborts = s.aborts := rfl
@[simp] theorem State.enter_coprocs (e : Trap) (ret : PcWord) : (s.enter e ret).coprocs = s.coprocs := rfl
@[simp] theorem State.enter_draws (e : Trap) (ret : PcWord) : (s.enter e ret).draws = match e with | .reset => s.draws + 1 | _ => s.draws := rfl
@[simp] theorem State.enter_begun (e : Trap) (ret : PcWord) : (s.enter e ret).begun = s.begun := rfl

@[simp] theorem State.returnTo_regs (v : Word) : (s.returnTo v).regs = s.regs := rfl
@[simp] theorem State.returnTo_pc (v : Word) : (s.returnTo v).pc = pcField v := rfl
@[simp] theorem State.returnTo_psr (v : Word) : (s.returnTo v).psr = s.psr.write v := rfl
@[simp] theorem State.returnTo_mem (v : Word) : (s.returnTo v).mem = s.mem := rfl
@[simp] theorem State.returnTo_memMap (v : Word) : (s.returnTo v).memMap = s.memMap := rfl
@[simp] theorem State.returnTo_pipe (v : Word) : (s.returnTo v).pipe = Pipeline.fresh := rfl
@[simp] theorem State.returnTo_hazard (v : Word) : (s.returnTo v).hazard = s.hazard := rfl
@[simp] theorem State.returnTo_pins (v : Word) : (s.returnTo v).pins = s.pins := rfl
@[simp] theorem State.returnTo_pinSchedule (v : Word) : (s.returnTo v).pinSchedule = s.pinSchedule := rfl
@[simp] theorem State.returnTo_inReset (v : Word) : (s.returnTo v).inReset = s.inReset := rfl
@[simp] theorem State.returnTo_aborts (v : Word) : (s.returnTo v).aborts = s.aborts := rfl
@[simp] theorem State.returnTo_coprocs (v : Word) : (s.returnTo v).coprocs = s.coprocs := rfl
@[simp] theorem State.returnTo_draws (v : Word) : (s.returnTo v).draws = s.draws := rfl
@[simp] theorem State.returnTo_begun (v : Word) : (s.returnTo v).begun = s.begun := rfl

@[simp] theorem State.storeByte_regs (a : Word) (b : Byte) : (s.storeByte a b).regs = s.regs := rfl
@[simp] theorem State.storeByte_pc (a : Word) (b : Byte) : (s.storeByte a b).pc = s.pc := rfl
@[simp] theorem State.storeByte_psr (a : Word) (b : Byte) : (s.storeByte a b).psr = s.psr := rfl
@[simp] theorem State.storeByte_mem (a : Word) (b : Byte) : (s.storeByte a b).mem = if s.kindOf a = .ram then s.mem.write (s.bus a).toNat b else s.mem := rfl
@[simp] theorem State.storeByte_memMap (a : Word) (b : Byte) : (s.storeByte a b).memMap = s.memMap := rfl
@[simp] theorem State.storeByte_pipe (a : Word) (b : Byte) : (s.storeByte a b).pipe = s.notePrefetch a := rfl
@[simp] theorem State.storeByte_hazard (a : Word) (b : Byte) : (s.storeByte a b).hazard = s.hazard := rfl
@[simp] theorem State.storeByte_pins (a : Word) (b : Byte) : (s.storeByte a b).pins = s.pins := rfl
@[simp] theorem State.storeByte_pinSchedule (a : Word) (b : Byte) : (s.storeByte a b).pinSchedule = s.pinSchedule := rfl
@[simp] theorem State.storeByte_inReset (a : Word) (b : Byte) : (s.storeByte a b).inReset = s.inReset := rfl
@[simp] theorem State.storeByte_aborts (a : Word) (b : Byte) : (s.storeByte a b).aborts = s.aborts := rfl
@[simp] theorem State.storeByte_coprocs (a : Word) (b : Byte) : (s.storeByte a b).coprocs = s.coprocs := rfl
@[simp] theorem State.storeByte_draws (a : Word) (b : Byte) : (s.storeByte a b).draws = s.draws := rfl
@[simp] theorem State.storeByte_begun (a : Word) (b : Byte) : (s.storeByte a b).begun = s.begun := rfl

@[simp] theorem State.setMulFlags_regs (r : Word) : (s.setMulFlags r).regs = s.regs := rfl
@[simp] theorem State.setMulFlags_pc (r : Word) : (s.setMulFlags r).pc = s.pc := rfl
@[simp] theorem State.setMulFlags_psr (r : Word) : (s.setMulFlags r).psr = { s.psr with n := r.msb, z := r == 0, c := s.freeBit 0 } := rfl
@[simp] theorem State.setMulFlags_mem (r : Word) : (s.setMulFlags r).mem = s.mem := rfl
@[simp] theorem State.setMulFlags_memMap (r : Word) : (s.setMulFlags r).memMap = s.memMap := rfl
@[simp] theorem State.setMulFlags_pipe (r : Word) : (s.setMulFlags r).pipe = s.pipe := rfl
@[simp] theorem State.setMulFlags_hazard (r : Word) : (s.setMulFlags r).hazard = s.hazard := rfl
@[simp] theorem State.setMulFlags_pins (r : Word) : (s.setMulFlags r).pins = s.pins := rfl
@[simp] theorem State.setMulFlags_pinSchedule (r : Word) : (s.setMulFlags r).pinSchedule = s.pinSchedule := rfl
@[simp] theorem State.setMulFlags_inReset (r : Word) : (s.setMulFlags r).inReset = s.inReset := rfl
@[simp] theorem State.setMulFlags_aborts (r : Word) : (s.setMulFlags r).aborts = s.aborts := rfl
@[simp] theorem State.setMulFlags_coprocs (r : Word) : (s.setMulFlags r).coprocs = s.coprocs := rfl
@[simp] theorem State.setMulFlags_draws (r : Word) : (s.setMulFlags r).draws = s.draws + 1 := rfl
@[simp] theorem State.setMulFlags_begun (r : Word) : (s.setMulFlags r).begun = s.begun := rfl

@[simp] theorem State.noteUserLoad_regs (b : Bool) : (s.noteUserLoad b).regs = s.regs := rfl
@[simp] theorem State.noteUserLoad_pc (b : Bool) : (s.noteUserLoad b).pc = s.pc := rfl
@[simp] theorem State.noteUserLoad_psr (b : Bool) : (s.noteUserLoad b).psr = s.psr := rfl
@[simp] theorem State.noteUserLoad_mem (b : Bool) : (s.noteUserLoad b).mem = s.mem := rfl
@[simp] theorem State.noteUserLoad_memMap (b : Bool) : (s.noteUserLoad b).memMap = s.memMap := rfl
@[simp] theorem State.noteUserLoad_pipe (b : Bool) : (s.noteUserLoad b).pipe = s.pipe := rfl
@[simp] theorem State.noteUserLoad_hazard (b : Bool) : (s.noteUserLoad b).hazard = if b then .userBankLoaded else s.hazard := rfl
@[simp] theorem State.noteUserLoad_pins (b : Bool) : (s.noteUserLoad b).pins = s.pins := rfl
@[simp] theorem State.noteUserLoad_pinSchedule (b : Bool) : (s.noteUserLoad b).pinSchedule = s.pinSchedule := rfl
@[simp] theorem State.noteUserLoad_inReset (b : Bool) : (s.noteUserLoad b).inReset = s.inReset := rfl
@[simp] theorem State.noteUserLoad_aborts (b : Bool) : (s.noteUserLoad b).aborts = s.aborts := rfl
@[simp] theorem State.noteUserLoad_coprocs (b : Bool) : (s.noteUserLoad b).coprocs = s.coprocs := rfl
@[simp] theorem State.noteUserLoad_draws (b : Bool) : (s.noteUserLoad b).draws = s.draws := rfl
@[simp] theorem State.noteUserLoad_begun (b : Bool) : (s.noteUserLoad b).begun = s.begun := rfl

@[simp] theorem State.setCoproc_regs (k : BitVec 4) (c : Coproc) : (s.setCoproc k c).regs = s.regs := rfl
@[simp] theorem State.setCoproc_pc (k : BitVec 4) (c : Coproc) : (s.setCoproc k c).pc = s.pc := rfl
@[simp] theorem State.setCoproc_psr (k : BitVec 4) (c : Coproc) : (s.setCoproc k c).psr = s.psr := rfl
@[simp] theorem State.setCoproc_mem (k : BitVec 4) (c : Coproc) : (s.setCoproc k c).mem = s.mem := rfl
@[simp] theorem State.setCoproc_memMap (k : BitVec 4) (c : Coproc) : (s.setCoproc k c).memMap = s.memMap := rfl
@[simp] theorem State.setCoproc_pipe (k : BitVec 4) (c : Coproc) : (s.setCoproc k c).pipe = s.pipe := rfl
@[simp] theorem State.setCoproc_hazard (k : BitVec 4) (c : Coproc) : (s.setCoproc k c).hazard = s.hazard := rfl
@[simp] theorem State.setCoproc_pins (k : BitVec 4) (c : Coproc) : (s.setCoproc k c).pins = s.pins := rfl
@[simp] theorem State.setCoproc_pinSchedule (k : BitVec 4) (c : Coproc) : (s.setCoproc k c).pinSchedule = s.pinSchedule := rfl
@[simp] theorem State.setCoproc_inReset (k : BitVec 4) (c : Coproc) : (s.setCoproc k c).inReset = s.inReset := rfl
@[simp] theorem State.setCoproc_aborts (k : BitVec 4) (c : Coproc) : (s.setCoproc k c).aborts = s.aborts := rfl
@[simp] theorem State.setCoproc_coprocs (k : BitVec 4) (c : Coproc) : (s.setCoproc k c).coprocs = s.coprocs.set k.toFin (some c) := rfl
@[simp] theorem State.setCoproc_draws (k : BitVec 4) (c : Coproc) : (s.setCoproc k c).draws = s.draws := rfl
@[simp] theorem State.setCoproc_begun (k : BitVec 4) (c : Coproc) : (s.setCoproc k c).begun = s.begun := rfl

@[simp] theorem State.abandon_regs : (s.abandon).regs = s.regs := rfl
@[simp] theorem State.abandon_pc : (s.abandon).pc = s.pc := rfl
@[simp] theorem State.abandon_psr : (s.abandon).psr = s.psr := rfl
@[simp] theorem State.abandon_mem : (s.abandon).mem = s.mem := rfl
@[simp] theorem State.abandon_memMap : (s.abandon).memMap = s.memMap := rfl
@[simp] theorem State.abandon_pins : (s.abandon).pins = s.pins := rfl
@[simp] theorem State.abandon_pinSchedule : (s.abandon).pinSchedule = s.pinSchedule := rfl
@[simp] theorem State.abandon_aborts : (s.abandon).aborts = s.aborts := rfl
@[simp] theorem State.abandon_begun : (s.abandon).begun = s.begun := rfl
@[simp] theorem State.abandon_coprocs : (s.abandon).coprocs = s.coprocs := rfl
@[simp] theorem State.abandon_draws : (s.abandon).draws = s.draws := rfl
@[simp] theorem State.abandon_pipe : (s.abandon).pipe = Pipeline.fresh := rfl
@[simp] theorem State.abandon_hazard : (s.abandon).hazard = .clear := rfl
@[simp] theorem State.abandon_inReset : (s.abandon).inReset = true := rfl

end

/-! The boundary's updates, whose pins come from the schedule. -/

@[simp] theorem State.nextPins_regs (s : State) : s.nextPins.regs = s.regs := by
  unfold State.nextPins; split <;> rfl
@[simp] theorem State.nextPins_pc (s : State) : s.nextPins.pc = s.pc := by
  unfold State.nextPins; split <;> rfl
@[simp] theorem State.nextPins_psr (s : State) : s.nextPins.psr = s.psr := by
  unfold State.nextPins; split <;> rfl
@[simp] theorem State.nextPins_mem (s : State) : s.nextPins.mem = s.mem := by
  unfold State.nextPins; split <;> rfl
@[simp] theorem State.nextPins_memMap (s : State) : s.nextPins.memMap = s.memMap := by
  unfold State.nextPins; split <;> rfl
@[simp] theorem State.nextPins_begun (s : State) : s.nextPins.begun = s.begun := by
  unfold State.nextPins; split <;> rfl
@[simp] theorem State.nextPins_pipe (s : State) : s.nextPins.pipe = s.pipe := by
  unfold State.nextPins; split <;> rfl
@[simp] theorem State.nextPins_hazard (s : State) : s.nextPins.hazard = s.hazard := by
  unfold State.nextPins; split <;> rfl
@[simp] theorem State.nextPins_inReset (s : State) : s.nextPins.inReset = s.inReset := by
  unfold State.nextPins; split <;> rfl
@[simp] theorem State.nextPins_aborts (s : State) : s.nextPins.aborts = s.aborts := by
  unfold State.nextPins; split <;> rfl
@[simp] theorem State.nextPins_coprocs (s : State) : s.nextPins.coprocs = s.coprocs := by
  unfold State.nextPins; split <;> rfl
@[simp] theorem State.nextPins_draws (s : State) : s.nextPins.draws = s.draws := by
  unfold State.nextPins; split <;> rfl

@[simp] theorem State.beginInstr_regs (s : State) : s.beginInstr.regs = s.regs := s.nextPins_regs
@[simp] theorem State.beginInstr_pc (s : State) : s.beginInstr.pc = s.pc := s.nextPins_pc
@[simp] theorem State.beginInstr_psr (s : State) : s.beginInstr.psr = s.psr := s.nextPins_psr
@[simp] theorem State.beginInstr_mem (s : State) : s.beginInstr.mem = s.mem := s.nextPins_mem
@[simp] theorem State.beginInstr_memMap (s : State) : s.beginInstr.memMap = s.memMap := s.nextPins_memMap
@[simp] theorem State.beginInstr_pipe (s : State) : s.beginInstr.pipe = s.pipe := s.nextPins_pipe
@[simp] theorem State.beginInstr_hazard (s : State) : s.beginInstr.hazard = .clear := rfl
@[simp] theorem State.beginInstr_pins (s : State) : s.beginInstr.pins = s.nextPins.pins := rfl
@[simp] theorem State.beginInstr_pinSchedule (s : State) : s.beginInstr.pinSchedule = s.nextPins.pinSchedule := rfl
@[simp] theorem State.beginInstr_inReset (s : State) : s.beginInstr.inReset = s.inReset := s.nextPins_inReset
@[simp] theorem State.beginInstr_aborts (s : State) : s.beginInstr.aborts = s.aborts := s.nextPins_aborts
@[simp] theorem State.beginInstr_coprocs (s : State) : s.beginInstr.coprocs = s.coprocs := s.nextPins_coprocs
@[simp] theorem State.beginInstr_draws (s : State) : s.beginInstr.draws = s.draws := s.nextPins_draws
@[simp] theorem State.beginInstr_begun (s : State) : s.beginInstr.begun = s.begun + 1 := rfl

/-! The fields of the PSR after its updates. -/

@[simp] theorem Psr.withResult_n (p : Psr) (r : AluOut) : (p.withResult r).n = r.value.msb := rfl
@[simp] theorem Psr.withResult_z (p : Psr) (r : AluOut) : (p.withResult r).z = (r.value == 0) := rfl
@[simp] theorem Psr.withResult_c (p : Psr) (r : AluOut) : (p.withResult r).c = r.c := rfl
@[simp] theorem Psr.withResult_v (p : Psr) (r : AluOut) : (p.withResult r).v = r.v := rfl
@[simp] theorem Psr.withResult_i (p : Psr) (r : AluOut) : (p.withResult r).i = p.i := rfl
@[simp] theorem Psr.withResult_f (p : Psr) (r : AluOut) : (p.withResult r).f = p.f := rfl
@[simp] theorem Psr.withResult_mode (p : Psr) (r : AluOut) : (p.withResult r).mode = p.mode := rfl
@[simp] theorem Psr.writeFlags_i (p : Psr) (v : Word) : (p.writeFlags v).i = p.i := rfl
@[simp] theorem Psr.writeFlags_f (p : Psr) (v : Word) : (p.writeFlags v).f = p.f := rfl
@[simp] theorem Psr.writeFlags_mode (p : Psr) (v : Word) : (p.writeFlags v).mode = p.mode := rfl
@[simp] theorem Psr.enter_n (p : Psr) (e : Trap) : (p.enter e).n = p.n := rfl
@[simp] theorem Psr.enter_z (p : Psr) (e : Trap) : (p.enter e).z = p.z := rfl
@[simp] theorem Psr.enter_c (p : Psr) (e : Trap) : (p.enter e).c = p.c := rfl
@[simp] theorem Psr.enter_v (p : Psr) (e : Trap) : (p.enter e).v = p.v := rfl
@[simp] theorem Psr.enter_i (p : Psr) (e : Trap) : (p.enter e).i = true := rfl
@[simp] theorem Psr.enter_f (p : Psr) (e : Trap) : (p.enter e).f = (p.f || e.setsF) := rfl
@[simp] theorem Psr.enter_mode (p : Psr) (e : Trap) : (p.enter e).mode = e.mode := rfl

/-- In User mode a PSR write is a write of the flags (R36). -/
theorem Psr.write_user (p : Psr) (v : Word) (h : p.mode = .user) : p.write v = p.writeFlags v := by
  unfold Psr.write; rw [h]

/-- In the other modes it writes every status bit (R36). -/
theorem Psr.write_nonUser (p : Psr) (v : Word) (h : p.mode ≠ .user) :
    p.write v = { p.writeFlags v with i := bitAt v 27, f := bitAt v 26, mode := .ofBits (field v 0 2) } := by
  unfold Psr.write; split <;> first | contradiction | rfl

@[simp] theorem Pipeline.shift_stale2 (p : Pipeline) : p.shift.stale2 = false := rfl
@[simp] theorem Pipeline.fresh_stale2 : Pipeline.fresh.stale2 = false := rfl

end Sys2Proof.Machine
end

