-- ==== Sys2Proof/Laws/Memory.lean ====
section
/-! SUPPORT. Memory: reading after writing, the canonical form, and what a multi-byte store changes. -/

namespace Sys2Proof.Machine

/-! ### One byte -/

theorem Memory.read_cons (m : Memory) (a x : Nat) (b : Byte) (h : Memory.read m a = Config.unwrittenByte) :
    Memory.read (Memory.cons a b m) x = if x = a then b else Memory.read m x := by
  unfold Memory.cons
  split
  · next e => split
              · next e2 => rw [e2, h, e]
              · rfl
  · simp only [Memory.read]
    split
    · next e => simp [e]
    · next e => rw [if_neg (Ne.symm e)]

/-- The canonical form of a list that is not empty. -/
theorem Memory.wfFrom_iff (lo k : Nat) (v : Byte) (t : Memory) : Memory.wfFrom lo ((k, v) :: t) = true ↔
    ((lo ≤ k ∧ k < 2 ^ 32) ∧ v ≠ Config.unwrittenByte) ∧ Memory.wfFrom (k + 1) t = true := by
  simp only [Memory.wfFrom, Bool.and_eq_true, decide_eq_true_eq]

/-- Below the first address nothing is listed. -/
theorem Memory.read_below (m : Memory) (lo a : Nat) (h : Memory.wfFrom lo m = true) (ha : a < lo) :
    Memory.read m a = Config.unwrittenByte := by
  induction m generalizing lo with
  | nil => rfl
  | cons c t ih =>
    obtain ⟨k, v⟩ := c
    simp only [Memory.wfFrom, Bool.and_eq_true, decide_eq_true_eq] at h
    simp only [Memory.read]
    rw [if_neg (by omega)]
    exact ih (k + 1) h.2 (by omega)

/-- A form that holds from one bound holds from every lower one. -/
theorem Memory.wfFrom_lower (m : Memory) (lo lo' : Nat) (h : Memory.wfFrom lo m = true) (hl : lo' ≤ lo) :
    Memory.wfFrom lo' m = true := by
  cases m with
  | nil => rfl
  | cons c t =>
    obtain ⟨k, v⟩ := c
    simp only [Memory.wfFrom, Bool.and_eq_true, decide_eq_true_eq] at h ⊢
    exact ⟨⟨⟨by omega, h.1.1.2⟩, h.1.2⟩, h.2⟩

/-- Read after write, on a canonical memory. -/
theorem Memory.read_write (m : Memory) (lo a x : Nat) (b : Byte) (h : Memory.wfFrom lo m = true) :
    Memory.read (Memory.write m a b) x = if x = a then b else Memory.read m x := by
  induction m generalizing lo with
  | nil => exact Memory.read_cons [] a x b rfl
  | cons c t ih =>
    obtain ⟨k, v⟩ := c
    have hwf := h
    simp only [Memory.wfFrom, Bool.and_eq_true, decide_eq_true_eq] at h
    simp only [Memory.write]
    split
    · next hk => exact Memory.read_cons _ a x b (Memory.read_below _ k a ((Memory.wfFrom_iff ..).2 ⟨⟨⟨Nat.le_refl _, h.1.1.2⟩, h.1.2⟩, h.2⟩) hk)
    · next hk =>
      split
      · next e =>
        subst e
        rw [Memory.read_cons t a x b (Memory.read_below t (a + 1) a h.2 (by omega))]
        simp only [Memory.read]
        split
        · rfl
        · next hx => rw [if_neg (Ne.symm hx)]
      · next e =>
        simp only [Memory.read]
        rw [ih (k + 1) h.2]
        split
        · next hx => rw [if_neg (by omega)]
        · rfl

theorem Memory.wfFrom_cons (m : Memory) (lo a : Nat) (b : Byte) (hm : Memory.wfFrom (a + 1) m = true) (hl : lo ≤ a)
    (ha : a < 2 ^ 32) : Memory.wfFrom lo (Memory.cons a b m) = true := by
  unfold Memory.cons
  split
  · exact Memory.wfFrom_lower m (a + 1) lo hm (by omega)
  · next h =>
    simp only [Memory.wfFrom, Bool.and_eq_true, decide_eq_true_eq]
    exact ⟨⟨⟨hl, ha⟩, h⟩, hm⟩

theorem Memory.wfFrom_write (m : Memory) (lo a : Nat) (b : Byte) (h : Memory.wfFrom lo m = true) (hl : lo ≤ a)
    (ha : a < 2 ^ 32) : Memory.wfFrom lo (Memory.write m a b) = true := by
  induction m generalizing lo with
  | nil => exact Memory.wfFrom_cons [] lo a b rfl hl ha
  | cons c t ih =>
    obtain ⟨k, v⟩ := c
    simp only [Memory.wfFrom, Bool.and_eq_true, decide_eq_true_eq] at h
    simp only [Memory.write]
    split
    · next hk =>
      refine Memory.wfFrom_cons _ lo a b ?_ hl ha
      simp only [Memory.wfFrom, Bool.and_eq_true, decide_eq_true_eq]
      exact ⟨⟨⟨by omega, h.1.1.2⟩, h.1.2⟩, h.2⟩
    · split
      · next e => subst e; exact Memory.wfFrom_cons t lo a b h.2 hl ha
      · next hk e =>
        simp only [Memory.wfFrom, Bool.and_eq_true, decide_eq_true_eq]
        exact ⟨h.1, ih (k + 1) h.2 (by omega)⟩

/-- A write keeps the canonical form. -/
theorem Memory.wf_write (m : Memory) (a : Word) (b : Byte) (h : m.wf = true) : (m.write a.toNat b).wf = true :=
  Memory.wfFrom_write m 0 a.toNat b h (Nat.zero_le _) a.isLt

theorem Memory.wf_writeList (m : Memory) (a : Word) (bs : List Byte) (h : m.wf = true) : (m.writeList a bs).wf = true := by
  induction bs generalizing m a with
  | nil => exact h
  | cons b bs ih => exact ih _ _ (Memory.wf_write m a b h)

theorem State.reset_memory_wf : State.reset.mem.wf = true := rfl

/-- Two canonical memories that read alike from a bound are equal: the form is canonical. -/
theorem Memory.eq_of_read (m m' : Memory) (lo : Nat) (h : Memory.wfFrom lo m = true) (h' : Memory.wfFrom lo m' = true)
    (e : ∀ a, Memory.read m a = Memory.read m' a) : m = m' := by
  induction m generalizing m' lo with
  | nil =>
    cases m' with
    | nil => rfl
    | cons c t =>
      obtain ⟨k, v⟩ := c
      simp only [Memory.wfFrom, Bool.and_eq_true, decide_eq_true_eq] at h'
      have := e k
      simp only [Memory.read, if_true] at this
      exact absurd this.symm h'.1.2
  | cons c t ih =>
    obtain ⟨k, v⟩ := c
    have hw := h
    simp only [Memory.wfFrom, Bool.and_eq_true, decide_eq_true_eq] at h
    cases m' with
    | nil =>
      have := e k
      simp only [Memory.read, if_true] at this
      exact absurd this h.1.2
    | cons c' t' =>
      obtain ⟨k', v'⟩ := c'
      have hw' := h'
      simp only [Memory.wfFrom, Bool.and_eq_true, decide_eq_true_eq] at h'
      have hk : k = k' := by
        rcases Nat.lt_trichotomy k k' with hlt | heq | hgt
        · have hb : Memory.read ((k', v') :: t') k = Config.unwrittenByte :=
            Memory.read_below _ k' k ((Memory.wfFrom_iff ..).2 ⟨⟨⟨Nat.le_refl _, h'.1.1.2⟩, h'.1.2⟩, h'.2⟩) hlt
          have := e k; rw [hb] at this; simp only [Memory.read, if_true] at this
          exact absurd this h.1.2
        · exact heq
        · have hb : Memory.read ((k, v) :: t) k' = Config.unwrittenByte :=
            Memory.read_below _ k k' ((Memory.wfFrom_iff ..).2 ⟨⟨⟨Nat.le_refl _, h.1.1.2⟩, h.1.2⟩, h.2⟩) hgt
          have := e k'; rw [hb] at this; simp only [Memory.read, if_true] at this
          exact absurd this.symm h'.1.2
      subst hk
      have hv : v = v' := by have := e k; simpa only [Memory.read, if_true] using this
      subst hv
      rw [ih t' (k + 1) h.2 h'.2 fun a => ?_]
      by_cases ha : k = a
      · subst ha
        rw [Memory.read_below t (k + 1) k h.2 (by omega), Memory.read_below t' (k + 1) k h'.2 (by omega)]
      · have := e a; simpa only [Memory.read, if_neg ha] using this

/-! ### The state's bytes -/

theorem State.cellAt_of_eq {s t : State} (hm : t.mem = s.mem) (hp : t.memMap = s.memMap) (a : Word) : t.cellAt a = s.cellAt a := by
  simp only [State.cellAt, State.bus, hm, hp]

/-- A byte reads alike where memory, its map and the place among the bus cycles are alike. -/
theorem State.byteAt_of_eq {s t : State} (hm : t.mem = s.mem) (hp : t.memMap = s.memMap) (hb : t.begun = s.begun) (a : Word) :
    t.byteAt a = s.byteAt a := by
  cases s; cases t; subst hm; subst hp; subst hb; rfl

/-- A byte reads alike where memory holds the same. -/
theorem State.byteAt_of_cellAt {s t : State} {a : Word} (hp : t.memMap = s.memMap) (hb : t.begun = s.begun)
    (h : t.cellAt a = s.cellAt a) : t.byteAt a = s.byteAt a := by
  have hk : t.kindOf a = s.kindOf a := by rw [State.kindOf, State.kindOf, State.bus, State.bus, hp]
  have hbus : t.bus a = s.bus a := by rw [State.bus, State.bus, hp]
  rw [State.byteAt, State.byteAt, hk, hb, h, hbus]

theorem State.cellAt_storeByte (s : State) (a x : Word) (b : Byte) (h : s.mem.wf = true) :
    (s.storeByte a b).cellAt x = if s.bus x = s.bus a ∧ s.kindOf a = .ram then b else s.cellAt x := by
  show Memory.read (s.storeByte a b).mem (s.bus x).toNat = _
  rw [State.storeByte_mem]
  by_cases hk : s.kindOf a = .ram
  · simp only [hk, if_true, and_true]
    rw [Memory.read_write s.mem 0 _ _ b h]
    simp only [BitVec.toNat_inj]
    rfl
  · simp only [hk, if_false, and_false]
    rfl

theorem State.byteAt_storeByte (s : State) (a x : Word) (b : Byte) (h : s.mem.wf = true) :
    (s.storeByte a b).byteAt x = if s.bus x = s.bus a ∧ s.kindOf a = .ram then b else s.byteAt x := by
  have hk : (s.storeByte a b).kindOf x = s.kindOf x := rfl
  simp only [State.byteAt, hk, s.cellAt_storeByte a x b h]
  by_cases hx : s.bus x = s.bus a ∧ s.kindOf a = .ram
  · have : s.kindOf x = .ram := by rw [← hx.2]; simp only [State.kindOf, hx.1]
    simp [hx, this]
  · rw [if_neg hx, if_neg hx]
    rfl

theorem State.storeByte_wf (s : State) (a : Word) (b : Byte) (h : s.mem.wf = true) : (s.storeByte a b).mem.wf = true := by
  rw [State.storeByte_mem]
  split
  · exact Memory.wf_write s.mem _ b h
  · exact h

theorem State.storeBytes_wf (s : State) (a : Word) (bs : List Byte) (h : s.mem.wf = true) :
    (s.storeBytes a bs).mem.wf = true := by
  induction bs generalizing s a with
  | nil => exact h
  | cons b bs ih => exact ih _ _ (s.storeByte_wf a b h)

/-- Storing bytes changes memory and the marks on the prefetched words, nothing else. -/
theorem State.storeBytes_frame (s : State) (a : Word) (bs : List Byte) :
    ∃ m p, s.storeBytes a bs = { s with mem := m, pipe := p } ∧ p.stale0 = s.pipe.stale0 := by
  induction bs generalizing s a with
  | nil => exact ⟨s.mem, s.pipe, rfl, rfl⟩
  | cons b bs ih =>
    obtain ⟨m, p, e, h⟩ := ih (s.storeByte a b) (a + 1)
    exact ⟨m, p, by rw [State.storeBytes, e]; rfl, h⟩

/-- Memory holds what it held at an address that none of the stored bytes has. -/
theorem State.cellAt_storeBytes_other (s : State) (a x : Word) (bs : List Byte) (h : s.mem.wf = true)
    (hx : ∀ k, k < bs.length → s.bus x ≠ s.bus (a + BitVec.ofNat 32 k)) : (s.storeBytes a bs).cellAt x = s.cellAt x := by
  induction bs generalizing s a with
  | nil => rfl
  | cons b bs ih =>
    rw [State.storeBytes, ih _ _ (s.storeByte_wf a b h) fun k hk => ?_, State.cellAt_storeByte s a x b h]
    · exact if_neg fun e => hx 0 (by simp) (by simp [e.1])
    · intro e
      exact hx (k + 1) (by simpa using hk)
        (Eq.trans (b := s.bus (a + 1 + BitVec.ofNat 32 k)) e (by rw [BitVec.add_assoc, Nat.add_comm k 1, BitVec.ofNat_add]; rfl))

/-- Such an address reads as before. -/
theorem State.byteAt_storeBytes_other (s : State) (a x : Word) (bs : List Byte) (h : s.mem.wf = true)
    (hx : ∀ k, k < bs.length → s.bus x ≠ s.bus (a + BitVec.ofNat 32 k)) : (s.storeBytes a bs).byteAt x = s.byteAt x := by
  obtain ⟨m, p, e, -⟩ := s.storeBytes_frame a bs
  exact State.byteAt_of_cellAt (by rw [e]) (by rw [e]) (s.cellAt_storeBytes_other a x bs h hx)

/-- The bytes of a store mark the prefetched words they lie in (R91). -/
theorem State.storeBytes_pipe (s : State) (a : Word) (bs : List Byte) :
    ((s.storeBytes a bs).pipe.stale1 = true ↔ s.pipe.stale1 = true ∨ ∃ k, k < bs.length ∧ s.inWordAhead (a + BitVec.ofNat 32 k) 1 = true) ∧
    ((s.storeBytes a bs).pipe.stale2 = true ↔ s.pipe.stale2 = true ∨ ∃ k, k < bs.length ∧ s.inWordAhead (a + BitVec.ofNat 32 k) 2 = true) := by
  induction bs generalizing s a with
  | nil => exact ⟨by simp [State.storeBytes], by simp [State.storeBytes]⟩
  | cons b bs ih =>
    have e : ∀ k, a + 1 + BitVec.ofNat 32 k = a + BitVec.ofNat 32 (k + 1) := fun k => by
      rw [BitVec.add_assoc, Nat.add_comm k 1, BitVec.ofNat_add]; rfl
    have split : ∀ q : Word → Bool, (∃ k, k < (b :: bs).length ∧ q (a + BitVec.ofNat 32 k) = true) ↔
        q a = true ∨ ∃ k, k < bs.length ∧ q (a + BitVec.ofNat 32 (k + 1)) = true := fun q =>
      ⟨fun ⟨k, hk, h⟩ => by
        cases k with
        | zero => left; simpa using h
        | succ k => exact .inr ⟨k, by simpa using hk, h⟩,
       fun h => h.elim (fun h => ⟨0, by simp, by simpa using h⟩) fun ⟨k, hk, h⟩ => ⟨k + 1, by simpa using hk, h⟩⟩
    obtain ⟨i1, i2⟩ := ih (s.storeByte a b) (a + 1)
    have hw : ∀ x k, (s.storeByte a b).inWordAhead x k = s.inWordAhead x k := fun _ _ => rfl
    simp only [hw, e] at i1 i2
    rw [State.storeBytes, i1, i2, split (s.inWordAhead · 1), split (s.inWordAhead · 2)]
    simp [State.notePrefetch, or_assoc]

end Sys2Proof.Machine
end

