-- ==== Sys2Proof/Laws/Regs.lean ====
section
/-! SUPPORT. The register file: reading after writing, and which physical register a number names (R22, R23). -/

namespace Sys2Proof.Machine

theorem Regs.get_set_same (r : Regs) (p : PhysReg) (v : Word) : (r.set p v).get p = v := by
  cases p <;> simp [Regs.get, Regs.set]

theorem Regs.get_set_other (r : Regs) (p q : PhysReg) (v : Word) (h : q ≠ p) : (r.set p v).get q = r.get q := by
  cases p <;> cases q <;> simp only [Regs.get, Regs.set] <;>
    (rename_i a b; exact Vector.getElem_set_ne _ _ fun e => h (congrArg _ (Fin.ext e.symm)))

theorem Regs.get_set (r : Regs) (p q : PhysReg) (v : Word) : (r.set p v).get q = if q = p then v else r.get q := by
  split
  · next h => rw [h, Regs.get_set_same]
  · next h => exact Regs.get_set_other r p q v h

/-- R15 alone names none of the 26 physical registers. -/
theorem phys_eq_none (m : Mode) (i : RegNum) : phys m i = none ↔ i = 15 := by
  obtain ⟨k⟩ := i
  cases m <;> (revert k; decide)

theorem phys_isSome (m : Mode) (i : RegNum) (h : i ≠ 15) : ∃ p, phys m i = some p := by
  cases e : phys m i with
  | some p => exact ⟨p, rfl⟩
  | none => exact absurd ((phys_eq_none m i).1 e) h

/-- In one mode two numbers never name the same register. -/
theorem phys_injective (m : Mode) (i j : RegNum) (h : i ≠ 15) : phys m i = phys m j ↔ i = j := by
  obtain ⟨k⟩ := i; obtain ⟨l⟩ := j
  revert h
  cases m <;> (revert k l; decide)

/-- The link register of a mode is its R14 (R21). -/
theorem phys_link (m : Mode) : phys m 14 = some (linkReg m) := by cases m <;> decide

theorem Regs.read_write_same (r : Regs) (m : Mode) (i : RegNum) (v : Word) (h : i ≠ 15) :
    (r.write m i v).read m i = v := by
  obtain ⟨p, e⟩ := phys_isSome m i h
  simp [Regs.read, Regs.write, e, Regs.get_set_same]

theorem Regs.read_write_other (r : Regs) (m : Mode) (i j : RegNum) (v : Word) (h : j ≠ i) :
    (r.write m i v).read m j = r.read m j := by
  unfold Regs.read Regs.write
  cases ei : phys m i with
  | none => rfl
  | some p =>
    cases ej : phys m j with
    | none => rfl
    | some q =>
      refine Regs.get_set_other r p q v fun e => h ?_
      have hj : j ≠ 15 := fun h15 => by rw [(phys_eq_none m j).2 h15] at ej; cases ej
      exact (phys_injective m j i hj).1 (by rw [ei, ej, e])

/-- A write of register `i` leaves every physical register but the one it names. -/
theorem Regs.get_write_other (r : Regs) (m : Mode) (i : RegNum) (v : Word) (p : PhysReg) (h : phys m i ≠ some p) :
    (r.write m i v).get p = r.get p := by
  unfold Regs.write
  cases e : phys m i with
  | none => rfl
  | some q => exact Regs.get_set_other r q p v fun c => h (by rw [e, c])

theorem Regs.get_write_same (r : Regs) (m : Mode) (i : RegNum) (v : Word) (p : PhysReg) (h : phys m i = some p) :
    (r.write m i v).get p = v := by
  simp [Regs.write, h, Regs.get_set_same]

@[simp] theorem State.x_setX_same (s : State) (i : RegNum) (v : Word) (h : i ≠ 15) : (s.setX i v).x i = v :=
  Regs.read_write_same _ _ _ _ h

theorem State.x_setX_other (s : State) (i j : RegNum) (v : Word) (h : j ≠ i) : (s.setX i v).x j = s.x j :=
  Regs.read_write_other _ _ _ _ _ h

/-- The mode codes are one to one (R35). -/
@[simp] theorem Mode.ofBits_bits (m : Mode) : Mode.ofBits m.bits = m := by cases m <;> rfl

@[simp] theorem Mode.bits_ofBits (b : BitVec 2) : (Mode.ofBits b).bits = b := by
  obtain ⟨k⟩ := b
  revert k; decide

end Sys2Proof.Machine
end

