-- ==== Sys2Proof/Laws/Ops.lean ====
section
/-! SUPPORT. What each shared operation can do, said once: the condition test, exception entry, word stores, block loads and stores, the
offer to a coprocessor, the boundary and the step. -/

namespace Sys2Proof.Machine

/-! ### The condition test -/

theorem ifPassed_true (c : Cond) (s : State) (k : Result) (h : condPassed c s.psr = true) : ifPassed c s k = k := by
  simp [ifPassed, h]

theorem ifPassed_false (c : Cond) (s : State) (k : Result) (h : condPassed c s.psr = false) :
    ifPassed c s k = .next s.advance := by simp [ifPassed, h]

/-- A conditional instruction advances, or does what it is for. -/
theorem ifPassed_cases (c : Cond) (s t : State) (k : Result) (h : ifPassed c s k = .next t) :
    (condPassed c s.psr = false ∧ t = s.advance) ∨ (condPassed c s.psr = true ∧ k = .next t) := by
  cases hc : condPassed c s.psr with
  | false => rw [ifPassed_false c s k hc] at h; exact .inl ⟨rfl, by injection h with h; exact h.symm⟩
  | true => rw [ifPassed_true c s k hc] at h; exact .inr ⟨rfl, h⟩

/-! ### What stays -/

theorem KeepsRegs.of_eq {m : Mode} {is : List RegNum} {s t : State} (h : t.regs = s.regs) : KeepsRegs m is s t :=
  fun _ _ => by rw [h]

theorem KeepsMemory.of_eq {s t : State} (h : t.mem = s.mem) (hm : t.memMap = s.memMap) (hb : t.begun = s.begun) : KeepsMemory s t :=
  State.byteAt_of_eq h hm hb

theorem KeepsCells.of_eq {s t : State} (h : t.mem = s.mem) (hm : t.memMap = s.memMap) : KeepsCells s t :=
  ⟨hm, State.cellAt_of_eq h hm⟩

theorem KeepsRest.of_eq {s t : State} (h1 : t.pins = s.pins) (h2 : t.pinSchedule = s.pinSchedule) (h3 : t.inReset = s.inReset)
    (h4 : t.aborts = s.aborts) (h5 : t.coprocs = s.coprocs) (h6 : t.hazard = s.hazard) (h7 : t.draws = s.draws)
    (h8 : t.memMap = s.memMap) (h9 : t.begun = s.begun) : KeepsRest s t :=
  ⟨⟨h1, h2, h3, h4, h8, h9⟩, h5, h6, h7⟩

/-- A register write keeps every register that none of the numbers `is` names, when it is of one of them. -/
theorem KeepsRegs.of_write {m : Mode} {is : List RegNum} {s t : State} {i : RegNum} {v : Word} (h : t.regs = s.regs.write m i v)
    (hi : i ∈ is) : KeepsRegs m is s t := fun p hp => by rw [h]; exact Regs.get_write_other _ _ _ _ _ (hp i hi)

theorem KeepsRegs.trans {m : Mode} {is : List RegNum} {s t u : State} (h : KeepsRegs m is s t) (k : KeepsRegs m is t u) :
    KeepsRegs m is s u := fun p hp => (k p hp).trans (h p hp)

theorem KeepsRegs.mono {m : Mode} {is js : List RegNum} {s t : State} (h : KeepsRegs m is s t) (hs : ∀ i ∈ is, i ∈ js) :
    KeepsRegs m js s t := fun p hp => h p fun i hi => hp i (hs i hi)

/-- Reading a register that was kept. -/
theorem KeepsRegs.read {m n : Mode} {is : List RegNum} {s t : State} (h : KeepsRegs m is s t) (i : RegNum)
    (hi : ∀ p, phys n i = some p → ∀ j ∈ is, phys m j ≠ some p) : t.regs.read n i = s.regs.read n i := by
  unfold Regs.read
  cases e : phys n i with
  | none => rfl
  | some p => exact h p (hi p e)

/-! ### Taking an exception -/

theorem State.enter_link (s : State) (e : Trap) (ret : PcWord) (h : e ≠ .reset) :
    (s.enter e ret).regs.get (linkReg e.mode) = s.psr.r15 ret := by
  rw [State.enter_regs, Regs.get_set_same]
  cases e <;> first | rfl | exact absurd rfl h

theorem State.enter_other (s : State) (e : Trap) (ret : PcWord) (p : PhysReg) (h : p ≠ linkReg e.mode) :
    (s.enter e ret).regs.get p = s.regs.get p := by
  rw [State.enter_regs, Regs.get_set_other _ _ _ _ h]

/-- Every entry but the reset one, in the terms of R410. -/
theorem State.enter_spec (s : State) (e : Trap) (ret : PcWord) (h : e ≠ .reset) :
    TrapTaken s (s.enter e ret) (linkReg e.mode) ret e.vector e.mode (s.psr.f || e.setsF) :=
  ⟨s.enter_link e ret h, fun p hp => s.enter_other e ret p hp, rfl, rfl, rfl, rfl⟩

/-- What an entry leaves alone besides. -/
theorem State.enter_keeps (s : State) (e : Trap) (ret : PcWord) (h : e ≠ .reset) : KeepsForTrap s (s.enter e ret) :=
  ⟨KeepsCells.of_eq rfl rfl, rfl, rfl, rfl, by cases e <;> first | rfl | exact absurd rfl h⟩

/-! ### The bus -/

theorem State.bus_toNat (s : State) (a : Word) : (s.bus a).toNat = a.toNat % busSize s := by
  have ha := a.isLt
  unfold State.bus busSize
  split
  · rw [BitVec.toNat_and]
    exact Nat.and_two_pow_sub_one_eq_mod a.toNat 24
  · exact (Nat.mod_eq_of_lt ha).symm

/-- Addresses that lie less than a round of the bus apart are told apart. -/
theorem State.bus_add_inj (s : State) (a : Word) (j k : Nat) (hj : j < busSize s) (hk : k < busSize s)
    (h : s.bus (a + BitVec.ofNat 32 j) = s.bus (a + BitVec.ofNat 32 k)) : j = k := by
  have h := congrArg BitVec.toNat h
  have ha := a.isLt
  rw [State.bus_toNat, State.bus_toNat, BitVec.toNat_add, BitVec.toNat_add, BitVec.toNat_ofNat, BitVec.toNat_ofNat] at h
  unfold busSize at h hj hk
  split at h <;> simp_all <;> omega

/-! ### Word stores -/

theorem State.storeBytes_mem_wf_aborts (s : State) (a : Word) (bs : List Byte) :
    (s.storeBytes a bs).aborts = s.aborts ∧ (s.storeBytes a bs).psr = s.psr ∧ (s.storeBytes a bs).regs = s.regs ∧
      (s.storeBytes a bs).pc = s.pc := by
  obtain ⟨m, p, e, -⟩ := s.storeBytes_frame a bs
  rw [e]; exact ⟨rfl, rfl, rfl, rfl⟩

/-- The `k`-th stored byte, when the bytes do not run over themselves. -/
theorem State.holdsByte_storeBytes (s : State) (a : Word) (bs : List Byte) (k : Nat) (b : Byte) (h : s.mem.wf = true)
    (hl : bs.length ≤ busSize s) (hk : bs[k]? = some b) : HoldsByte s (s.storeBytes a bs) (a + BitVec.ofNat 32 k) b := by
  induction bs generalizing s a k with
  | nil => simp at hk
  | cons c cs ih =>
    rw [State.storeBytes]
    simp only [List.length_cons] at hl
    cases k with
    | zero =>
      simp only [List.getElem?_cons_zero, Option.some.injEq] at hk
      subst hk
      unfold HoldsByte
      rw [State.byteAt_storeBytes_other _ _ _ _ (s.storeByte_wf a c h) fun k hk e => ?_, State.byteAt_storeByte s a _ c h]
      · simp
      · have e : s.bus (a + BitVec.ofNat 32 0) = s.bus (a + BitVec.ofNat 32 (k + 1)) := by
          refine Eq.trans (b := s.bus (a + 1 + BitVec.ofNat 32 k)) e ?_
          rw [BitVec.add_assoc, Nat.add_comm k 1, BitVec.ofNat_add]; rfl
        have := s.bus_add_inj a 0 (k + 1) (by omega) (by omega) e
        omega
    | succ k =>
      simp only [List.getElem?_cons_succ] at hk
      have hs : busSize (s.storeByte a c) = busSize s := rfl
      have := ih (s.storeByte a c) (a + 1) k (s.storeByte_wf a c h) (by omega) hk
      rw [BitVec.add_assoc, show (1 + BitVec.ofNat 32 k) = BitVec.ofNat 32 (k + 1) by rw [Nat.add_comm, BitVec.ofNat_add]; rfl] at this
      have hl' : cs[k]? ≠ none := by rw [hk]; simp
      have hk' : k < cs.length := by
        rcases Nat.lt_or_ge k cs.length with h | h
        · exact h
        · exact absurd (List.getElem?_eq_none h) hl'
      have hne : s.bus (a + BitVec.ofNat 32 (k + 1)) ≠ s.bus a := fun e => by
        have := s.bus_add_inj a (k + 1) 0 (by omega) (by omega) (by simpa using e)
        omega
      unfold HoldsByte at this ⊢
      have hb := State.byteAt_storeByte s a (a + BitVec.ofNat 32 (k + 1)) c h
      rw [if_neg fun e => hne e.1] at hb
      rw [this, hb]
      rfl

theorem bytesOfWord_length (v : Word) : (bytesOfWord v).length = 4 := rfl

/-- A word is held when each of its bytes is. -/
theorem holdsWord_iff (s t : State) (a v : Word) :
    HoldsWord s t a v ↔ ∀ k b, (bytesOfWord v)[k]? = some b → HoldsByte s t (a + BitVec.ofNat 32 k) b := by
  refine ⟨fun ⟨h0, h1, h2, h3⟩ k b hk => ?_, fun h => ⟨by simpa using h 0 _ rfl, h 1 _ rfl, h 2 _ rfl, h 3 _ rfl⟩⟩
  match k, hk with
  | 0, hk => cases hk; simpa using h0
  | 1, hk => cases hk; exact h1
  | 2, hk => cases hk; exact h2
  | 3, hk => cases hk; exact h3
  | _ + 4, hk => simp [bytesOfWord] at hk

/-- A byte that only the store of it changes, of all that happens, is held. -/
theorem HoldsByte.trans {s u t t' : State} {a : Word} {b : Byte} (h : HoldsByte u t a b) (hm : u.memMap = s.memMap)
    (hb : u.byteAt a = s.byteAt a) (ht : t'.byteAt a = t.byteAt a) : HoldsByte s t' a b := by
  unfold HoldsByte at *
  rw [ht, h, hb, show u.kindOf a = s.kindOf a by rw [State.kindOf, State.kindOf, State.bus, State.bus, hm]]

/-- The four bytes of a stored word. -/
theorem State.holdsWord_storeBytes (s : State) (a v : Word) (h : s.mem.wf = true) : HoldsWord s (s.storeBytes a (bytesOfWord v)) a v := by
  have key := fun k b => s.holdsByte_storeBytes a (bytesOfWord v) k b h (by unfold busSize; split <;> simp [bytesOfWord])
  refine ⟨?_, key 1 _ rfl, key 2 _ rfl, key 3 _ rfl⟩
  simpa using key 0 _ rfl

theorem reachesWordAhead_iff (s : State) (a : Word) (n : Nat) (k : PcWord) :
    ReachesWordAhead s a n k ↔ ∃ j, j < n ∧ s.inWordAhead (a + BitVec.ofNat 32 j) k = true := by
  simp [ReachesWordAhead, State.inWordAhead]

/-- A store marks the prefetched words it reaches (R91). -/
theorem State.storeBytes_marks (s : State) (a : Word) (bs : List Byte) :
    ((s.storeBytes a bs).pipe.stale1 = true ↔ s.pipe.stale1 = true ∨ ReachesWordAhead s a bs.length 1) ∧
    ((s.storeBytes a bs).pipe.stale2 = true ↔ s.pipe.stale2 = true ∨ ReachesWordAhead s a bs.length 2) := by
  rw [reachesWordAhead_iff, reachesWordAhead_iff]
  exact s.storeBytes_pipe a bs

/-- A store that aborts no cycle writes the four bytes. -/
theorem State.writeWord_ok (s : State) (forced : Bool) (a v : Word) (h : wordStoreAborts s forced a = false) :
    s.writeWord forced a v = ⟨s.storeBytes a (bytesOfWord v), false⟩ := by
  simp only [wordStoreAborts, Bool.or_eq_false_iff] at h
  unfold State.writeWord
  rw [h.1]
  cases e : aligned a with
  | true => simp
  | false => simp only [e, Bool.not_false, Bool.true_and] at h; simp [h.2]

/-- A store changes memory within the word and the marks on the prefetched words, nothing else. -/
theorem State.writeWord_frame (s : State) (forced : Bool) (a v : Word) :
    ∃ m p, (s.writeWord forced a v).state = { s with mem := m, pipe := p } ∧ p.stale0 = s.pipe.stale0 := by
  unfold State.writeWord
  split
  · exact ⟨s.mem, s.pipe, rfl, rfl⟩
  · split
    · exact s.storeBytes_frame _ _
    · split
      · exact s.storeBytes_frame _ _
      · exact s.storeBytes_frame _ _

theorem State.writeWord_wf (s : State) (forced : Bool) (a v : Word) (h : s.mem.wf = true) :
    (s.writeWord forced a v).state.mem.wf = true := by
  unfold State.writeWord
  split
  · exact h
  · split
    · exact s.storeBytes_wf _ _ h
    · split <;> exact s.storeBytes_wf _ _ h

/-- Memory holds what it held outside the stored word. -/
theorem State.writeWord_cellAt (s : State) (forced : Bool) (a v x : Word) (h : s.mem.wf = true)
    (hx : ∀ k, k < 4 → s.bus x ≠ s.bus (a + BitVec.ofNat 32 k)) : (s.writeWord forced a v).state.cellAt x = s.cellAt x := by
  have key : ∀ bs : List Byte, bs.length ≤ 4 → (s.storeBytes a bs).cellAt x = s.cellAt x := fun bs hb =>
    s.cellAt_storeBytes_other a x bs h fun k hk => hx k (by omega)
  unfold State.writeWord
  split
  · rfl
  · split
    · exact key _ (by simp [bytesOfWord])
    · split
      · exact key _ (by rw [List.length_take, bytesOfWord_length]; exact Nat.min_le_right _ _)
      · exact key _ (by simp [bytesOfWord])

theorem State.writeWord_outside (s : State) (forced : Bool) (a v x : Word) (h : s.mem.wf = true)
    (hx : ∀ k, k < 4 → s.bus x ≠ s.bus (a + BitVec.ofNat 32 k)) : (s.writeWord forced a v).state.byteAt x = s.byteAt x := by
  obtain ⟨m, p, e, -⟩ := s.writeWord_frame forced a v
  exact State.byteAt_of_cellAt (by rw [e]) (by rw [e]) (s.writeWord_cellAt forced a v x h hx)

/-! ### Block stores -/

/-- A block store changes memory and the marks on the prefetched words, nothing else. -/
theorem State.writeWords_frame (s : State) (forced : Bool) (first : Word) (i : Nat) (vs : List Word) :
    ∃ m p, (s.writeWords forced first i vs).state = { s with mem := m, pipe := p } ∧ p.stale0 = s.pipe.stale0 := by
  induction vs generalizing s i with
  | nil => exact ⟨s.mem, s.pipe, rfl, rfl⟩
  | cons v vs ih =>
    obtain ⟨m, p, e, h⟩ := s.writeWord_frame forced (wordAddr first i) v
    obtain ⟨m', p', e', h'⟩ := ih (s.writeWord forced (wordAddr first i) v).state (i + 1)
    refine ⟨m', p', ?_, ?_⟩
    · simp only [State.writeWords]; rw [e', e]
    · rw [h', e]; exact h

theorem State.writeWords_wf (s : State) (forced : Bool) (first : Word) (i : Nat) (vs : List Word) (h : s.mem.wf = true) :
    (s.writeWords forced first i vs).state.mem.wf = true := by
  induction vs generalizing s i with
  | nil => exact h
  | cons v vs ih => exact ih _ _ (s.writeWord_wf forced _ v h)

/-- Memory holds what it held where none of the words lies. -/
theorem State.writeWords_cellAt (s : State) (forced : Bool) (first : Word) (i : Nat) (vs : List Word) (x : Word) (h : s.mem.wf = true)
    (hx : ∀ j k, j < vs.length → k < 4 → s.bus x ≠ s.bus (wordAddr first (i + j) + BitVec.ofNat 32 k)) :
    (s.writeWords forced first i vs).state.cellAt x = s.cellAt x := by
  induction vs generalizing s i with
  | nil => rfl
  | cons v vs ih =>
    simp only [State.writeWords]
    obtain ⟨m, p, e, -⟩ := s.writeWord_frame forced (wordAddr first i) v
    have hb : ∀ y, (s.writeWord forced (wordAddr first i) v).state.bus y = s.bus y := fun y => by rw [e]; rfl
    rw [ih _ _ (s.writeWord_wf forced _ v h) fun j k hj hk => ?_,
      s.writeWord_cellAt forced _ v x h fun k hk => by simpa using hx 0 k (by simp) hk]
    have := hx (j + 1) k (by simpa using hj) hk
    rw [hb, hb]
    rwa [show i + (j + 1) = i + 1 + j by omega] at this

/-- A byte that lies in none of the words reads as before. -/
theorem State.writeWords_outside (s : State) (forced : Bool) (first : Word) (i : Nat) (vs : List Word) (x : Word) (h : s.mem.wf = true)
    (hx : ∀ j k, j < vs.length → k < 4 → s.bus x ≠ s.bus (wordAddr first (i + j) + BitVec.ofNat 32 k)) :
    (s.writeWords forced first i vs).state.byteAt x = s.byteAt x := by
  obtain ⟨m, p, e, -⟩ := s.writeWords_frame forced first i vs
  exact State.byteAt_of_cellAt (by rw [e]) (by rw [e]) (s.writeWords_cellAt forced first i vs x h hx)

/-! ### Block loads -/

/-- Reading the words of a list, none of which aborts, gives each register its word. -/
theorem untilAbort_readBlock (s : State) (first : Word) (i : Nat) (rs : List RegNum)
    (h : ∀ k, k < rs.length → s.readWord false (wordAddr first (i + k)) = some (s.wordAt (wordAddr first (i + k)))) :
    untilAbort (readBlock s first i rs) = (rs.mapIdx fun k r => (r, s.wordAt (wordAddr first (i + k))), false) := by
  induction rs generalizing i with
  | nil => rfl
  | cons r rs ih =>
    have h0 := h 0 (by simp)
    simp only [Nat.add_zero] at h0
    simp only [readBlock, h0, untilAbort]
    rw [ih (i + 1) fun k hk => by
      have := h (k + 1) (by simpa using hk)
      rwa [show i + (k + 1) = i + 1 + k by omega] at this]
    simp [List.mapIdx_cons, Nat.add_assoc, Nat.add_comm 1]

/-- Loading registers changes registers of one bank that are listed, nothing else. -/
theorem State.loadRegs_frame (s : State) (u : Bool) (l : List (RegNum × Word)) :
    ∃ r, s.loadRegs u l = { s with regs := r } ∧
      ∀ p, (∀ e ∈ l, phys (bankMode u s) e.1 ≠ some p) → r.get p = s.regs.get p := by
  induction l generalizing s with
  | nil => exact ⟨s.regs, rfl, fun _ _ => rfl⟩
  | cons e l ih =>
    obtain ⟨i, v⟩ := e
    simp only [State.loadRegs]
    split
    · obtain ⟨r, hr, hp⟩ := ih s
      exact ⟨r, hr, fun p h => hp p fun e he => h e (List.mem_cons_of_mem _ he)⟩
    · obtain ⟨r, hr, hp⟩ := ih (s.setXIn u i v)
      refine ⟨r, by rw [hr]; rfl, fun p h => ?_⟩
      rw [hp p fun e he => h e (List.mem_cons_of_mem _ he)]
      exact Regs.get_write_other _ _ _ _ _ (h (i, v) (List.mem_cons_self ..))

/-- A register listed once ends with the word that stands beside it. -/
theorem State.loadRegs_read (s : State) (u : Bool) (l : List (RegNum × Word)) (i : RegNum) (v : Word) (h : i ≠ 15)
    (hm : (i, v) ∈ l) (hn : (l.map (·.1)).Nodup) : (s.loadRegs u l).regs.read (bankMode u s) i = v := by
  induction l generalizing s with
  | nil => simp at hm
  | cons e l ih =>
    obtain ⟨j, w⟩ := e
    simp only [List.map_cons, List.nodup_cons, List.mem_map] at hn
    simp only [State.loadRegs]
    rcases List.mem_cons.1 hm with he | he
    · cases he
      rw [if_neg h]
      obtain ⟨r, hr, hp⟩ := (s.setXIn u i v).loadRegs_frame u l
      rw [hr]
      obtain ⟨p, hpi⟩ := phys_isSome (bankMode u s) i h
      have : r.read (bankMode u s) i = (s.setXIn u i v).regs.read (bankMode u s) i := by
        simp only [Regs.read, hpi]
        refine hp p fun e he c => hn.1 ⟨e, he, ?_⟩
        by_cases h15 : e.1 = 15
        · rw [h15, show phys _ 15 = none from (phys_eq_none _ _).2 rfl] at c; cases c
        · exact ((phys_injective (bankMode u s) e.1 i h15).1 (c.trans hpi.symm))
      show r.read (bankMode u s) i = v
      rw [this]
      exact Regs.read_write_same _ _ _ _ h
    · split
      · exact ih s he hn.2
      · exact ih (s.setXIn u j w) he hn.2

/-! ### The offer to a coprocessor -/

/-- What comes of a coprocessor instruction: the advance, the trap, the endless wait, or its own effect. -/
theorem whenAccepted_cases (c : Cond) (s : State) (n : BitVec 4) (w : Word) (k : Coproc → Nat → Result) :
    (condPassed c s.psr = false ∧ whenAccepted c s n w k = .next s.advance) ∨
    (condPassed c s.psr = true ∧ offer s n w = .absent ∧ whenAccepted c s n w k = .next s.undefinedTrap) ∨
    (∃ cp m, condPassed c s.psr = true ∧ offer s n w = .accepted cp m ∧ cp.busy = true ∧
      whenAccepted c s n w k = .fault .coprocessorNeverReady) ∨
    (∃ cp m, condPassed c s.psr = true ∧ offer s n w = .accepted cp m ∧ cp.busy = false ∧ whenAccepted c s n w k = k cp m) := by
  unfold whenAccepted
  cases hc : condPassed c s.psr with
  | false => exact .inl ⟨rfl, ifPassed_false _ _ _ hc⟩
  | true =>
    rw [ifPassed_true _ _ _ hc]
    cases ho : offer s n w with
    | absent => exact .inr (.inl ⟨rfl, rfl, rfl⟩)
    | accepted cp m =>
      cases hb : cp.busy with
      | true => exact .inr (.inr (.inl ⟨cp, m, rfl, rfl, hb, by simp [hb]⟩))
      | false => exact .inr (.inr (.inr ⟨cp, m, rfl, rfl, hb, by simp [hb]⟩))

/-! ### The boundary and the step -/

/-- The four events a boundary can bring, and none. -/
theorem boundary_cases (s : State) :
    (s.pins.res = true ∧ boundary s = some s.heldInReset) ∨
    (s.pins.res = false ∧ s.inReset = true ∧ boundary s = some s.leaveReset) ∨
    (s.pins.res = false ∧ s.inReset = false ∧ s.pins.firq = true ∧ s.psr.f = false ∧ boundary s = some (s.interrupt .firq)) ∨
    (s.pins.res = false ∧ s.inReset = false ∧ (s.pins.firq = true → s.psr.f = true) ∧ s.pins.irq = true ∧ s.psr.i = false ∧
      boundary s = some (s.interrupt .irq)) ∨
    (s.pins.res = false ∧ s.inReset = false ∧ (s.pins.firq = true → s.psr.f = true) ∧ (s.pins.irq = true → s.psr.i = true) ∧
      boundary s = none) := by
  unfold boundary
  cases s.pins.res <;> cases s.inReset <;> cases s.pins.firq <;> cases s.psr.f <;> cases s.pins.irq <;> cases s.psr.i <;> simp

/-- An interrupt that RES does not cut is the entry. -/
theorem State.interrupt_uncut (s : State) (e : Trap) (h : s.pins.cut ≠ .atOnce) : s.interrupt e = s.enter e (s.pc + 1) := if_neg h

/-- An interrupt writes the R14 it saves into, and the processor is in the mode of that R14 after it. -/
theorem State.interrupt_regs (s : State) (e : Trap) : (s.interrupt e).psr = s.psr.enter e ∧
    (∀ p, p ≠ linkReg e.mode → (s.interrupt e).regs.get p = s.regs.get p) ∧ KeepsCells s (s.interrupt e) := by
  unfold State.interrupt
  simp only []
  split
  · refine ⟨by simp, fun p hp => ?_, KeepsCells.of_eq (by simp) (by simp)⟩
    simp [Regs.get_set_other _ _ _ _ hp]
  · exact ⟨rfl, fun p hp => s.enter_other e _ p hp, KeepsCells.of_eq rfl rfl⟩

/-- What an instruction that RES may cut answers: its own outcome, or what a cut leaves of it. -/
theorem execOrCut_cases (cut : ResCut) (i : Instr) (s t : State) (h : execOrCut cut i s = .next t) :
    (cut = .no ∧ exec i s = .next t) ∨ (cut ≠ .no ∧ (∀ r, exec i s ≠ .refused r) ∧ t = s.cutShort i) := by
  unfold execOrCut at h
  split at h
  · next hc => exact .inl ⟨hc, h⟩
  · next hc =>
    refine .inr ⟨hc, ?_⟩
    cases e : exec i s <;> rw [e] at h <;> cases h <;> exact ⟨nofun, rfl⟩

/-- What a step that answers a next state has done: a boundary event, a prefetch abort, or the decoded instruction, each whole or cut. -/
theorem step_cases (s t : State) (h : step s = .next t) :
    boundary s = some t ∨
    (boundary s = none ∧ fetch s = none ∧ t = s.beginInstr.prefetchAbortOrCut s.pins.cut) ∨
    (∃ w, boundary s = none ∧ fetch s = some w ∧ s.pipe.stale0 = false ∧ hazardBlocks s (decodeWord w) = false ∧
      execOrCut s.pins.cut (decodeWord w) s.beginInstr = .next t) := by
  unfold step at h
  split at h
  · next u hb => injection h with h; exact .inl (by rw [hb, h])
  · next hb =>
    split at h
    · next hf => injection h with h; exact .inr (.inl ⟨hb, hf, h.symm⟩)
    · next w hf =>
      split at h
      · cases h
      · next h0 =>
        split at h
        · cases h
        · next h1 => exact .inr (.inr ⟨w, hb, hf, by simpa using h0, by simpa using h1, h⟩)

end Sys2Proof.Machine
end

