-- ==== Sys2Proof/Laws/Blocks.lean ====
section
/-! SUPPORT. The list of a block transfer, the words it reads and stores, and what LDM, STM, LDC and STC can answer. -/

namespace Sys2Proof.Machine

/-! ### Addresses -/

theorem aligned_eq (a : Word) : aligned a = decide (a.toNat % 4 = 0) := by
  simp only [aligned]
  rw [Bool.eq_iff_iff]
  simp [field, ← BitVec.toNat_inj]

theorem field_two_eq_zero (a : Word) : field a 0 2 = 0 ↔ a.toNat % 4 = 0 := by
  rw [← BitVec.toNat_inj]
  simp [field]

/-- Every word of a block transfer that starts aligned is aligned. -/
theorem wordAddr_aligned (a : Word) (k : Nat) (h : a.toNat % 4 = 0) : (wordAddr a k).toNat % 4 = 0 := by
  simp [wordAddr]
  omega

/-- A byte of the `k`-th word, counted from the first address. -/
theorem wordAddr_add (a : Word) (i k : Nat) : wordAddr a i + BitVec.ofNat 32 k = a + BitVec.ofNat 32 (4 * i + k) := by
  rw [wordAddr, BitVec.add_assoc, BitVec.ofNat_add]

/-- An aligned read is judged by its one cycle (R67). -/
theorem State.readWord_aligned (s : State) (forced : Bool) (a : Word) (h : a.toNat % 4 = 0) :
    s.readWord forced a = if s.aborted (s.dataCycle .read false forced a) then none else some (s.wordAt a) := by
  simp [State.readWord, State.readAborts, aligned_eq, h]

/-! ### The register list -/

theorem listedRegs_pairwise (l : BitVec 16) : (listedRegs l).Pairwise (fun a b => a.toNat < b.toNat) :=
  List.Pairwise.filter _ (by decide)

theorem mem_listedRegs (l : BitVec 16) (r : RegNum) : r ∈ listedRegs l ↔ l.getLsbD r.toNat = true := by
  unfold listedRegs
  rw [List.mem_filter]
  refine ⟨fun h => h.2, fun h => ⟨?_, h⟩⟩
  obtain ⟨k⟩ := r
  clear h
  revert k
  decide

theorem listedRegs_nodup (l : BitVec 16) : (listedRegs l).Nodup :=
  (listedRegs_pairwise l).imp fun h e => by subst e; exact Nat.lt_irrefl _ h

theorem listedRegs_length_le (l : BitVec 16) : (listedRegs l).length ≤ 16 := by
  unfold listedRegs
  exact Nat.le_trans (List.length_filter_le _ _) (by decide)

theorem listedRegs_ne_nil (l : BitVec 16) (h : l ≠ 0) : listedRegs l ≠ [] := by
  intro e
  apply h
  apply BitVec.eq_of_getLsbD_eq
  intro i hi
  have hn : ∀ r : RegNum, r ∉ listedRegs l := by rw [e]; simp
  have := hn (BitVec.ofNat 4 i)
  rw [mem_listedRegs] at this
  simpa [Nat.mod_eq_of_lt hi] using this

/-- R15 comes last. -/
theorem listedRegs_last (l : BitVec 16) (h : l.getLsbD 15 = true) : (listedRegs l)[(listedRegs l).length - 1]? = some 15 := by
  unfold listedRegs
  rw [show ([0, 1, 2, 3, 4, 5, 6, 7, 8, 9, 10, 11, 12, 13, 14, 15] : List RegNum) =
    [0, 1, 2, 3, 4, 5, 6, 7, 8, 9, 10, 11, 12, 13, 14] ++ [15] from rfl, List.filter_append]
  rw [show List.filter (fun r : RegNum => l.getLsbD r.toNat) [15] = [15] by simp [h]]
  simp

/-- No two numbers share a register, in whatever modes. -/
theorem phys_index (m n : Mode) (i j : RegNum) (h : i ≠ 15) : phys m i = phys n j → i = j := by
  obtain ⟨k⟩ := i
  obtain ⟨l⟩ := j
  revert h
  cases m <;> cases n <;> (revert k l; decide)

/-! ### Loads -/

theorem map_fst_mapIdx (l : List RegNum) (f : Nat → Word) : (l.mapIdx fun k r => (r, f k)).map (·.1) = l := by
  apply List.ext_getElem?
  intro i
  simp [List.getElem?_mapIdx]
  cases l[i]? <;> rfl

/-- Reading the words of a list stops at the first abort. -/
theorem untilAbort_readBlock_abort (s : State) (first : Word) (i : Nat) (rs : List RegNum) (k : Nat) (hk : k < rs.length)
    (h : ∀ j, j < k → s.readWord false (wordAddr first (i + j)) = some (s.wordAt (wordAddr first (i + j))))
    (hb : s.readWord false (wordAddr first (i + k)) = none) :
    untilAbort (readBlock s first i rs) = ((rs.take k).mapIdx fun j r => (r, s.wordAt (wordAddr first (i + j))), true) := by
  induction rs generalizing i k with
  | nil => simp at hk
  | cons r rs ih =>
    cases k with
    | zero => simp only [Nat.add_zero] at hb; simp [readBlock, untilAbort, hb]
    | succ k =>
      have h0 := h 0 (by omega)
      simp only [Nat.add_zero] at h0
      simp only [readBlock, h0, untilAbort]
      rw [ih (i + 1) k (by simpa using hk) (fun j hj => by
        have := h (j + 1) (by omega)
        rwa [show i + (j + 1) = i + 1 + j by omega] at this) (by rwa [show i + (k + 1) = i + 1 + k by omega] at hb)]
      simp [List.mapIdx_cons, Nat.add_assoc, Nat.add_comm 1]

theorem loadedR15_eq_none (l : List (RegNum × Word)) (h : ∀ e ∈ l, e.1 ≠ 15) : loadedR15 l = none := by
  induction l with
  | nil => rfl
  | cons e l ih =>
    simp only [loadedR15]
    rw [if_neg (h e (by simp))]
    exact ih fun e he => h e (by simp [he])

theorem loadedR15_eq_some (l : List (RegNum × Word)) (v : Word) (hm : ((15 : RegNum), v) ∈ l) (hn : (l.map (·.1)).Nodup) :
    loadedR15 l = some v := by
  induction l with
  | nil => simp at hm
  | cons e l ih =>
    obtain ⟨i, w⟩ := e
    simp only [List.map_cons, List.nodup_cons, List.mem_map] at hn
    simp only [loadedR15]
    rcases List.mem_cons.1 hm with he | he
    · injection he with h1 h2
      subst h1; subst h2; simp
    · rw [if_neg fun c => hn.1 ⟨_, he, c.symm⟩]
      exact ih he hn.2

/-- What LDM can answer with a next state. -/
theorem execLdm_cases (o : Bdt) (s t : State) (h : execLdm o s = .next t) :
    (condPassed o.cond s.psr = false ∧ t = s.advance) ∨
      (condPassed o.cond s.psr = true ∧ blockRefusal s o = none ∧
        ∃ loads, t = finishLdm s o loads ∨ t = abortLdm s o loads) := by
  rcases ifPassed_cases _ _ _ _ h with h | ⟨hc, h⟩
  · exact .inl h
  · split at h
    · cases h
    · next hr =>
      split at h <;> (injection h with h; exact .inr ⟨hc, hr, _, by first | exact .inl h.symm | exact .inr h.symm⟩)

/-! ### Stores -/

theorem stmValues_length (s : State) (o : Bdt) (i : Nat) (rs : List RegNum) : (stmValues s o i rs).length = rs.length := by
  induction rs generalizing i with
  | nil => rfl
  | cons r rs ih => simp [stmValues, ih]

theorem stmValues_getElem? (s : State) (o : Bdt) (i : Nat) (rs : List RegNum) (k : Nat) :
    (stmValues s o i rs)[k]? = (rs[k]?).map (stmValue s o (i + k)) := by
  induction rs generalizing i k with
  | nil => simp [stmValues]
  | cons r rs ih =>
    cases k with
    | zero => simp [stmValues]
    | succ k => simp [stmValues, ih, show i + 1 + k = i + (k + 1) by omega]

/-- The abort of an aligned store is that of its one cycle. -/
theorem State.writeWord_aligned (s : State) (forced : Bool) (a v : Word) (h : a.toNat % 4 = 0) :
    s.writeWord forced a v =
      if s.aborted (s.dataCycle .write false forced a) then ⟨s, true⟩ else ⟨s.storeBytes a (bytesOfWord v), false⟩ := by
  simp [State.writeWord, aligned_eq, h]

/-- A bus cycle is judged alike where the memory manager, its place in the history, the mode and the map are alike. -/
theorem State.aborted_dataCycle_of_eq {s t : State} (ha : t.aborts = s.aborts) (hb : t.begun = s.begun) (hp : t.psr = s.psr)
    (hm : t.memMap = s.memMap) (kind : CycleKind) (byte forced : Bool) (a : Word) :
    t.aborted (t.dataCycle kind byte forced a) = s.aborted (s.dataCycle kind byte forced a) := by
  simp only [State.aborted, State.dataCycle, State.tran, State.bus, ha, hb, hp, hm]

/-- Two words of a block share no byte of the bus. -/
theorem wordAddr_bus_ne (s : State) (first : Word) (i j k l : Nat) (hij : i ≠ j) (hi : 4 * i + 4 ≤ busSize s)
    (hj : 4 * j + 4 ≤ busSize s) (hk : k < 4) (hl : l < 4) :
    s.bus (wordAddr first i + BitVec.ofNat 32 k) ≠ s.bus (wordAddr first j + BitVec.ofNat 32 l) := by
  rw [wordAddr_add, wordAddr_add]
  intro c
  have := s.bus_add_inj first _ _ (by omega) (by omega) c
  omega

/-- What a block store of aligned words does: it aborts when one of its cycles does, a cycle that does not abort writes its word, and one
that does leaves its word as it was (R83, R298). -/
theorem State.writeWords_spec (forced : Bool) (first : Word) (hal : first.toNat % 4 = 0) (vs : List Word) :
  ∀ (s : State) (i : Nat), s.mem.wf = true → 4 * (i + vs.length) ≤ busSize s →
   let ab := fun k => s.aborted (s.dataCycle .write false forced (wordAddr first k))
   (s.writeWords forced first i vs).aborted = (List.range vs.length).any (fun k => ab (i + k)) ∧
   (∀ k v, vs[k]? = some v → ab (i+k) = false → HoldsWord s (s.writeWords forced first i vs).state (wordAddr first (i+k)) v) ∧
   (∀ k l, k < vs.length → l < 4 → ab (i+k) = true →
     (s.writeWords forced first i vs).state.byteAt (wordAddr first (i+k) + BitVec.ofNat 32 l) =
       s.byteAt (wordAddr first (i+k) + BitVec.ofNat 32 l)) := by
  induction vs with
  | nil => intro s i h1 h2; simp [State.writeWords]
  | cons v vs ih =>
    intro s i hwf hl ab
    simp only [List.length_cons] at hl
    have hw := s.writeWord_aligned forced (wordAddr first i) v (wordAddr_aligned _ _ hal)
    obtain ⟨m, p, hfr, -⟩ := s.writeWord_frame forced (wordAddr first i) v
    have hwf' := s.writeWord_wf forced (wordAddr first i) v hwf
    have hrest : s.writeWords forced first i (v :: vs) =
        ⟨((s.writeWord forced (wordAddr first i) v).state.writeWords forced first (i + 1) vs).state,
          (s.writeWord forced (wordAddr first i) v).aborted ||
            ((s.writeWord forced (wordAddr first i) v).state.writeWords forced first (i + 1) vs).aborted⟩ := rfl
    have hout1 : ∀ k l, k < vs.length → l < 4 →
        (s.writeWord forced (wordAddr first i) v).state.byteAt (wordAddr first (i + 1 + k) + BitVec.ofNat 32 l) =
          s.byteAt (wordAddr first (i + 1 + k) + BitVec.ofNat 32 l) := fun k l hk hl4 =>
      s.writeWord_outside forced _ v _ hwf fun j hj =>
        wordAddr_bus_ne s first (i + 1 + k) i l j (by omega) (by omega) (by omega) hl4 hj
    generalize hu : (s.writeWord forced (wordAddr first i) v).state = u at *
    have hbus : ∀ y, u.bus y = s.bus y := fun y => by rw [hfr]; rfl
    have hmap : u.memMap = s.memMap := by rw [hfr]
    have hsize : busSize u = busSize s := by unfold busSize; rw [hmap]
    have hcyc : ∀ k, u.aborted (u.dataCycle .write false forced (wordAddr first k)) = ab k := fun k =>
      State.aborted_dataCycle_of_eq (by rw [hfr]) (by rw [hfr]) (by rw [hfr]) hmap ..
    obtain ⟨a1, a2, a3⟩ := ih u (i + 1) hwf' (by omega)
    simp only [hcyc] at a1 a2 a3
    have hout : ∀ l, l < 4 → (u.writeWords forced first (i + 1) vs).state.byteAt (wordAddr first i + BitVec.ofNat 32 l) =
        u.byteAt (wordAddr first i + BitVec.ofNat 32 l) := fun l hl4 =>
      u.writeWords_outside forced first (i + 1) vs _ hwf' fun j k hj hk => by
        rw [hbus, hbus]
        exact wordAddr_bus_ne s first i (i + 1 + j) l k (by omega) (by omega) (by omega) hl4 hk
    have e : ∀ k, i + 1 + k = i + (k + 1) := by intro k; omega
    rw [hrest]
    refine ⟨?_, ?_, ?_⟩
    · have h0 : (s.writeWord forced (wordAddr first i) v).aborted = ab i := by
        rw [hw]
        cases hc : ab i with
        | true => rw [if_pos hc]
        | false => rw [if_neg (by simpa only [Bool.not_eq_true] using hc)]
      simp only [a1, h0, e, List.length_cons, List.range_succ_eq_map, List.any_cons, List.any_map]
      rfl
    · intro k w hk hab
      cases k with
      | zero =>
        simp only [List.getElem?_cons_zero, Option.some.injEq] at hk; subst hk
        simp only [Nat.add_zero] at hab ⊢
        have hu2 : u = s.storeBytes (wordAddr first i) (bytesOfWord v) := by
          rw [← hu, hw, if_neg (by simpa only [Bool.not_eq_true] using hab)]
        have hh := (holdsWord_iff ..).1 (s.holdsWord_storeBytes (wordAddr first i) v hwf)
        rw [← hu2] at hh
        refine (holdsWord_iff ..).2 fun k b hkb => (hh k b hkb).trans rfl rfl (hout k ?_)
        rcases Nat.lt_or_ge k 4 with h | h
        · exact h
        · rw [List.getElem?_eq_none h] at hkb; cases hkb
      | succ k =>
        simp only [List.getElem?_cons_succ] at hk
        have hlen : k < vs.length := by
          rcases Nat.lt_or_ge k vs.length with h | h
          · exact h
          · rw [List.getElem?_eq_none h] at hk; cases hk
        have hh := (holdsWord_iff ..).1 (a2 k w hk (by rw [e]; exact hab))
        rw [← e k]
        refine (holdsWord_iff ..).2 fun l b hlb => (hh l b hlb).trans hmap (hout1 k l hlen ?_) rfl
        rcases Nat.lt_or_ge l 4 with h | h
        · exact h
        · rw [List.getElem?_eq_none h] at hlb; cases hlb
    · intro k l hk hl4 hab
      cases k with
      | zero =>
        simp only [Nat.add_zero] at hab ⊢
        rw [hout l hl4, ← hu, hw, if_pos hab]
      | succ k =>
        simp only [List.length_cons] at hk
        rw [← e k]
        rw [a3 k l (by omega) hl4 (by rw [e]; exact hab), hout1 k l (by omega) hl4]

/-- A block store that aborts no cycle marks the prefetched words it reaches (R91). -/
theorem State.writeWords_marks (forced : Bool) (first : Word) (hal : first.toNat % 4 = 0) (vs : List Word) :
  ∀ (s : State) (i : Nat), (∀ k, k < vs.length → s.aborted (s.dataCycle .write false forced (wordAddr first (i + k))) = false) →
   ((s.writeWords forced first i vs).state.pipe.stale1 = true ↔
      s.pipe.stale1 = true ∨ ReachesWordAhead s (wordAddr first i) (4 * vs.length) 1) ∧
   ((s.writeWords forced first i vs).state.pipe.stale2 = true ↔
      s.pipe.stale2 = true ∨ ReachesWordAhead s (wordAddr first i) (4 * vs.length) 2) := by
  induction vs with
  | nil => intro s i _; simp [State.writeWords, ReachesWordAhead]
  | cons v vs ih =>
    intro s i hab
    have h0 := hab 0 (by simp)
    simp only [Nat.add_zero] at h0
    have hw := s.writeWord_aligned forced (wordAddr first i) v (wordAddr_aligned _ _ hal)
    rw [if_neg (by rw [h0]; simp)] at hw
    have hrest : (s.writeWords forced first i (v :: vs)).state =
        ((s.storeBytes (wordAddr first i) (bytesOfWord v)).writeWords forced first (i + 1) vs).state := by
      simp only [State.writeWords, hw]
    obtain ⟨m, p, hfr, -⟩ := s.storeBytes_frame (wordAddr first i) (bytesOfWord v)
    obtain ⟨m1, m2⟩ := s.storeBytes_marks (wordAddr first i) (bytesOfWord v)
    rw [bytesOfWord_length] at m1 m2
    obtain ⟨a1, a2⟩ := ih (s.storeBytes (wordAddr first i) (bytesOfWord v)) (i + 1) fun k hk => by
      rw [State.aborted_dataCycle_of_eq (s := s) (by rw [hfr]) (by rw [hfr]) (by rw [hfr]) (by rw [hfr]),
        show i + 1 + k = i + (k + 1) by omega]
      exact hab (k + 1) (by simpa using hk)
    have hr : ∀ k, ReachesWordAhead (s.storeBytes (wordAddr first i) (bytesOfWord v)) (wordAddr first (i + 1)) (4 * vs.length) k ↔
        ReachesWordAhead s (wordAddr first (i + 1)) (4 * vs.length) k := fun k => by rw [hfr]; exact Iff.rfl
    have hsplit : ∀ k, ReachesWordAhead s (wordAddr first i) (4 * (vs.length + 1)) k ↔
        ReachesWordAhead s (wordAddr first i) 4 k ∨ ReachesWordAhead s (wordAddr first (i + 1)) (4 * vs.length) k := by
      intro k
      have hadd : ∀ j, wordAddr first (i + 1) + BitVec.ofNat 32 j = wordAddr first i + BitVec.ofNat 32 (4 + j) := fun j => by
        rw [wordAddr_add, wordAddr_add]; congr 2; omega
      constructor
      · rintro ⟨j, hj, h⟩
        rcases Nat.lt_or_ge j 4 with h4 | h4
        · exact .inl ⟨j, h4, h⟩
        · exact .inr ⟨j - 4, by omega, by rw [hadd, show 4 + (j - 4) = j by omega]; exact h⟩
      · rintro (⟨j, hj, h⟩ | ⟨j, hj, h⟩)
        · exact ⟨j, by omega, h⟩
        · exact ⟨4 + j, by omega, by rw [← hadd]; exact h⟩
    rw [hrest, a1, a2, m1, m2, hr, hr, List.length_cons, hsplit, hsplit, or_assoc, or_assoc]
    exact ⟨Iff.rfl, Iff.rfl⟩

/-- What STM can answer with a next state. -/
theorem execStm_cases (o : Bdt) (s t : State) (h : execStm o s = .next t) :
    (condPassed o.cond s.psr = false ∧ t = s.advance) ∨
      (condPassed o.cond s.psr = true ∧ blockRefusal s o = none ∧
        ∃ w, w = s.writeWords false (blockFirst s o) 0 (stmValues s o 0 (listedRegs o.list)) ∧
          (w.aborted = true ∧ t = (stmBase s o w.state).enter .dataAbort (s.pc + 2) ∨
            w.aborted = false ∧ t = (stmBase s o w.state).advance)) := by
  rcases ifPassed_cases _ _ _ _ h with h | ⟨hc, h⟩
  · exact .inl h
  · split at h
    · cases h
    · next hr =>
      refine .inr ⟨hc, hr, _, rfl, ?_⟩
      simp only at h
      split at h
      · next hw => injection h with h; exact .inl ⟨hw, h.symm⟩
      · next hw => injection h with h; exact .inr ⟨by simpa using hw, h.symm⟩

/-! ### Coprocessor transfers -/

theorem supplied_length (s : State) (c : Coproc) (k : Nat) : (supplied s c k).length = k := by
  induction k with
  | zero => rfl
  | succ k ih => simp [supplied, ih]

/-- A word the coprocessor has queued is the one it supplies. -/
theorem supplied_getElem? (s : State) (c : Coproc) (n k : Nat) (v : Word) (h : k < n) (hv : c.outgoing[k]? = some v) :
    (supplied s c n)[k]? = some v := by
  induction n with
  | zero => omega
  | succ n ih =>
    rw [supplied]
    by_cases e : k = n
    · subst e
      rw [List.getElem?_append_right (Nat.le_of_eq (supplied_length s c k)), supplied_length]
      simp [hv]
    · rw [List.getElem?_append_left (by rw [supplied_length]; omega)]
      exact ih (by omega)

end Sys2Proof.Machine
end

