-- ==== Sys2Proof/Laws/PerInstr.lean ====
section
/-! SUPPORT. Facts about instructions as syntax, one lemma per constructor. -/

namespace Sys2Proof.Laws

/-- The encoded word carries the condition in bits 31:28 (R101). -/
def CondField.Statement (i : Instr) : Prop := field (encode i) 28 4 = i.cond.bits

theorem field_cond_encodeDp {α : Type} (i : BitVec 1) (k : BitVec 4) (f : α → BitVec 12) (o : Dp α) : field (encodeDp i k f o) 28 4 = o.cond.bits := by
  simp only [encodeDp, field, BitVec.extractLsb'_append_eq_of_le, Nat.reduceLeDiff, Nat.reduceSub, BitVec.extractLsb'_eq_self]

theorem field_cond_encodeTest {α : Type} (i : BitVec 1) (k : BitVec 4) (f : α → BitVec 12) (o : Test α) : field (encodeTest i k f o) 28 4 = o.cond.bits := by
  simp only [encodeTest, field, BitVec.extractLsb'_append_eq_of_le, Nat.reduceLeDiff, Nat.reduceSub, BitVec.extractLsb'_eq_self]

theorem field_cond_encodeRaw (o : Raw) : field (encodeRaw o) 28 4 = o.cond.bits := by
  simp only [encodeRaw, field, BitVec.extractLsb'_append_eq_of_le, Nat.reduceLeDiff, Nat.reduceSub, BitVec.extractLsb'_eq_self]

theorem field_cond_encodeMul (a : BitVec 1) (o : Mul) : field (encodeMul a o) 28 4 = o.cond.bits := by
  simp only [encodeMul, field, BitVec.extractLsb'_append_eq_of_le, Nat.reduceLeDiff, Nat.reduceSub, BitVec.extractLsb'_eq_self]

theorem field_cond_encodeSdt {α : Type} (r b l : BitVec 1) (f : α → BitVec 12) (o : Sdt α) : field (encodeSdt r b l f o) 28 4 = o.cond.bits := by
  simp only [encodeSdt, field, BitVec.extractLsb'_append_eq_of_le, Nat.reduceLeDiff, Nat.reduceSub, BitVec.extractLsb'_eq_self]

theorem field_cond_encodeBdt (l : BitVec 1) (o : Bdt) : field (encodeBdt l o) 28 4 = o.cond.bits := by
  simp only [encodeBdt, field, BitVec.extractLsb'_append_eq_of_le, Nat.reduceLeDiff, Nat.reduceSub, BitVec.extractLsb'_eq_self]

theorem field_cond_encodeBr (l : BitVec 1) (o : Br) : field (encodeBr l o) 28 4 = o.cond.bits := by
  simp only [encodeBr, field, BitVec.extractLsb'_append_eq_of_le, Nat.reduceLeDiff, Nat.reduceSub, BitVec.extractLsb'_eq_self]

theorem field_cond_encodeCdt (l : BitVec 1) (o : Cdt) : field (encodeCdt l o) 28 4 = o.cond.bits := by
  simp only [encodeCdt, field, BitVec.extractLsb'_append_eq_of_le, Nat.reduceLeDiff, Nat.reduceSub, BitVec.extractLsb'_eq_self]

theorem field_cond_encodeCdo (o : Cdo) : field (encodeCdo o) 28 4 = o.cond.bits := by
  simp only [encodeCdo, field, BitVec.extractLsb'_append_eq_of_le, Nat.reduceLeDiff, Nat.reduceSub, BitVec.extractLsb'_eq_self]

theorem field_cond_encodeCrt (l : BitVec 1) (o : Crt) : field (encodeCrt l o) 28 4 = o.cond.bits := by
  simp only [encodeCrt, field, BitVec.extractLsb'_append_eq_of_le, Nat.reduceLeDiff, Nat.reduceSub, BitVec.extractLsb'_eq_self]

theorem field_cond_encodeSwi (o : Swi) : field (encodeSwi o) 28 4 = o.cond.bits := by
  simp only [encodeSwi, field, BitVec.extractLsb'_append_eq_of_le, Nat.reduceLeDiff, Nat.reduceSub, BitVec.extractLsb'_eq_self]

theorem CondField.andImm (o : Dp ImmOp) : CondField.Statement (.andImm o) := field_cond_encodeDp ..
theorem CondField.andReg (o : Dp RegOp) : CondField.Statement (.andReg o) := field_cond_encodeDp ..
theorem CondField.andRegShift (o : Dp RegShiftOp) : CondField.Statement (.andRegShift o) := field_cond_encodeDp ..
theorem CondField.eorImm (o : Dp ImmOp) : CondField.Statement (.eorImm o) := field_cond_encodeDp ..
theorem CondField.eorReg (o : Dp RegOp) : CondField.Statement (.eorReg o) := field_cond_encodeDp ..
theorem CondField.eorRegShift (o : Dp RegShiftOp) : CondField.Statement (.eorRegShift o) := field_cond_encodeDp ..
theorem CondField.subImm (o : Dp ImmOp) : CondField.Statement (.subImm o) := field_cond_encodeDp ..
theorem CondField.subReg (o : Dp RegOp) : CondField.Statement (.subReg o) := field_cond_encodeDp ..
theorem CondField.subRegShift (o : Dp RegShiftOp) : CondField.Statement (.subRegShift o) := field_cond_encodeDp ..
theorem CondField.rsbImm (o : Dp ImmOp) : CondField.Statement (.rsbImm o) := field_cond_encodeDp ..
theorem CondField.rsbReg (o : Dp RegOp) : CondField.Statement (.rsbReg o) := field_cond_encodeDp ..
theorem CondField.rsbRegShift (o : Dp RegShiftOp) : CondField.Statement (.rsbRegShift o) := field_cond_encodeDp ..
theorem CondField.addImm (o : Dp ImmOp) : CondField.Statement (.addImm o) := field_cond_encodeDp ..
theorem CondField.addReg (o : Dp RegOp) : CondField.Statement (.addReg o) := field_cond_encodeDp ..
theorem CondField.addRegShift (o : Dp RegShiftOp) : CondField.Statement (.addRegShift o) := field_cond_encodeDp ..
theorem CondField.adcImm (o : Dp ImmOp) : CondField.Statement (.adcImm o) := field_cond_encodeDp ..
theorem CondField.adcReg (o : Dp RegOp) : CondField.Statement (.adcReg o) := field_cond_encodeDp ..
theorem CondField.adcRegShift (o : Dp RegShiftOp) : CondField.Statement (.adcRegShift o) := field_cond_encodeDp ..
theorem CondField.sbcImm (o : Dp ImmOp) : CondField.Statement (.sbcImm o) := field_cond_encodeDp ..
theorem CondField.sbcReg (o : Dp RegOp) : CondField.Statement (.sbcReg o) := field_cond_encodeDp ..
theorem CondField.sbcRegShift (o : Dp RegShiftOp) : CondField.Statement (.sbcRegShift o) := field_cond_encodeDp ..
theorem CondField.rscImm (o : Dp ImmOp) : CondField.Statement (.rscImm o) := field_cond_encodeDp ..
theorem CondField.rscReg (o : Dp RegOp) : CondField.Statement (.rscReg o) := field_cond_encodeDp ..
theorem CondField.rscRegShift (o : Dp RegShiftOp) : CondField.Statement (.rscRegShift o) := field_cond_encodeDp ..
theorem CondField.tstImm (o : Test ImmOp) : CondField.Statement (.tstImm o) := field_cond_encodeTest ..
theorem CondField.tstReg (o : Test RegOp) : CondField.Statement (.tstReg o) := field_cond_encodeTest ..
theorem CondField.tstRegShift (o : Test RegShiftOp) : CondField.Statement (.tstRegShift o) := field_cond_encodeTest ..
theorem CondField.teqImm (o : Test ImmOp) : CondField.Statement (.teqImm o) := field_cond_encodeTest ..
theorem CondField.teqReg (o : Test RegOp) : CondField.Statement (.teqReg o) := field_cond_encodeTest ..
theorem CondField.teqRegShift (o : Test RegShiftOp) : CondField.Statement (.teqRegShift o) := field_cond_encodeTest ..
theorem CondField.cmpImm (o : Test ImmOp) : CondField.Statement (.cmpImm o) := field_cond_encodeTest ..
theorem CondField.cmpReg (o : Test RegOp) : CondField.Statement (.cmpReg o) := field_cond_encodeTest ..
theorem CondField.cmpRegShift (o : Test RegShiftOp) : CondField.Statement (.cmpRegShift o) := field_cond_encodeTest ..
theorem CondField.cmnImm (o : Test ImmOp) : CondField.Statement (.cmnImm o) := field_cond_encodeTest ..
theorem CondField.cmnReg (o : Test RegOp) : CondField.Statement (.cmnReg o) := field_cond_encodeTest ..
theorem CondField.cmnRegShift (o : Test RegShiftOp) : CondField.Statement (.cmnRegShift o) := field_cond_encodeTest ..
theorem CondField.orrImm (o : Dp ImmOp) : CondField.Statement (.orrImm o) := field_cond_encodeDp ..
theorem CondField.orrReg (o : Dp RegOp) : CondField.Statement (.orrReg o) := field_cond_encodeDp ..
theorem CondField.orrRegShift (o : Dp RegShiftOp) : CondField.Statement (.orrRegShift o) := field_cond_encodeDp ..
theorem CondField.movImm (o : Dp ImmOp) : CondField.Statement (.movImm o) := field_cond_encodeDp ..
theorem CondField.movReg (o : Dp RegOp) : CondField.Statement (.movReg o) := field_cond_encodeDp ..
theorem CondField.movRegShift (o : Dp RegShiftOp) : CondField.Statement (.movRegShift o) := field_cond_encodeDp ..
theorem CondField.bicImm (o : Dp ImmOp) : CondField.Statement (.bicImm o) := field_cond_encodeDp ..
theorem CondField.bicReg (o : Dp RegOp) : CondField.Statement (.bicReg o) := field_cond_encodeDp ..
theorem CondField.bicRegShift (o : Dp RegShiftOp) : CondField.Statement (.bicRegShift o) := field_cond_encodeDp ..
theorem CondField.mvnImm (o : Dp ImmOp) : CondField.Statement (.mvnImm o) := field_cond_encodeDp ..
theorem CondField.mvnReg (o : Dp RegOp) : CondField.Statement (.mvnReg o) := field_cond_encodeDp ..
theorem CondField.mvnRegShift (o : Dp RegShiftOp) : CondField.Statement (.mvnRegShift o) := field_cond_encodeDp ..
theorem CondField.unspecifiedTestS0Imm (o : Raw) : CondField.Statement (.unspecifiedTestS0Imm o) := field_cond_encodeRaw ..
theorem CondField.unspecifiedTestS0Reg (o : Raw) : CondField.Statement (.unspecifiedTestS0Reg o) := field_cond_encodeRaw ..
theorem CondField.unspecifiedTestS0RegShift (o : Raw) : CondField.Statement (.unspecifiedTestS0RegShift o) := field_cond_encodeRaw ..
theorem CondField.mul (o : Mul) : CondField.Statement (.mul o) := field_cond_encodeMul ..
theorem CondField.mla (o : Mul) : CondField.Statement (.mla o) := field_cond_encodeMul ..
theorem CondField.undefined1 (o : Raw) : CondField.Statement (.undefined1 o) := field_cond_encodeRaw ..
theorem CondField.unallocatedA (o : Raw) : CondField.Statement (.unallocatedA o) := field_cond_encodeRaw ..
theorem CondField.unallocatedB (o : Raw) : CondField.Statement (.unallocatedB o) := field_cond_encodeRaw ..
theorem CondField.unallocatedC (o : Raw) : CondField.Statement (.unallocatedC o) := field_cond_encodeRaw ..
theorem CondField.unallocatedD (o : Raw) : CondField.Statement (.unallocatedD o) := field_cond_encodeRaw ..
theorem CondField.ldrImm (o : Sdt (BitVec 12)) : CondField.Statement (.ldrImm o) := field_cond_encodeSdt ..
theorem CondField.ldrReg (o : Sdt RegOp) : CondField.Statement (.ldrReg o) := field_cond_encodeSdt ..
theorem CondField.ldrbImm (o : Sdt (BitVec 12)) : CondField.Statement (.ldrbImm o) := field_cond_encodeSdt ..
theorem CondField.ldrbReg (o : Sdt RegOp) : CondField.Statement (.ldrbReg o) := field_cond_encodeSdt ..
theorem CondField.strImm (o : Sdt (BitVec 12)) : CondField.Statement (.strImm o) := field_cond_encodeSdt ..
theorem CondField.strReg (o : Sdt RegOp) : CondField.Statement (.strReg o) := field_cond_encodeSdt ..
theorem CondField.strbImm (o : Sdt (BitVec 12)) : CondField.Statement (.strbImm o) := field_cond_encodeSdt ..
theorem CondField.strbReg (o : Sdt RegOp) : CondField.Statement (.strbReg o) := field_cond_encodeSdt ..
theorem CondField.undefined2 (o : Raw) : CondField.Statement (.undefined2 o) := field_cond_encodeRaw ..
theorem CondField.ldm (o : Bdt) : CondField.Statement (.ldm o) := field_cond_encodeBdt ..
theorem CondField.stm (o : Bdt) : CondField.Statement (.stm o) := field_cond_encodeBdt ..
theorem CondField.b (o : Br) : CondField.Statement (.b o) := field_cond_encodeBr ..
theorem CondField.bl (o : Br) : CondField.Statement (.bl o) := field_cond_encodeBr ..
theorem CondField.ldc (o : Cdt) : CondField.Statement (.ldc o) := field_cond_encodeCdt ..
theorem CondField.stc (o : Cdt) : CondField.Statement (.stc o) := field_cond_encodeCdt ..
theorem CondField.cdp (o : Cdo) : CondField.Statement (.cdp o) := field_cond_encodeCdo ..
theorem CondField.mcr (o : Crt) : CondField.Statement (.mcr o) := field_cond_encodeCrt ..
theorem CondField.mrc (o : Crt) : CondField.Statement (.mrc o) := field_cond_encodeCrt ..
theorem CondField.swi (o : Swi) : CondField.Statement (.swi o) := field_cond_encodeSwi ..

end Sys2Proof.Laws
end

