-- ==== Sys2Proof/Laws/Results.lean ====
section
/-! SUPPORT. The end of a data processing operation and of a test, and the sums of the ALU as plain arithmetic, said once. -/

namespace Sys2Proof.Machine

/-! ### The ALU -/

/-- The sum of R169 is the plain sum. -/
theorem addC_eq_plainSum (a b : Word) (c : Bool) : addC a b c = plainSum a b c := by
  unfold addC plainSum
  have h1 := a.isLt; have h2 := b.isLt
  have hr : (BitVec.ofNat 32 (a.toNat + b.toNat + c.toNat)) = a + b + (if c then 1 else 0) := by
    apply BitVec.eq_of_toNat_eq
    cases c <;> simp
  simp only [hr]
  congr 1
  have : (a + b + (if c then 1 else 0) : Word).toNat = (a.toNat + b.toNat + c.toNat) % 2^32 := by rw [← hr]; simp
  generalize (a + b + (if c then 1 else 0) : Word) = r at *
  simp only [BitVec.msb_eq_decide, BitVec.toInt_eq_toNat_cond]
  rw [Bool.eq_iff_iff]
  cases c <;> simp at * <;> omega

/-- The sum with the complement is the plain difference. -/
theorem addC_not_eq_plainDifference (a b : Word) (c : Bool) : addC a (~~~b) c = plainDifference a b c := by
  unfold addC plainDifference
  have h1 := a.isLt; have h2 := b.isLt
  have hn : (~~~b).toNat = 2^32 - 1 - b.toNat := by simp
  have hr : (BitVec.ofNat 32 (a.toNat + (~~~b).toNat + c.toNat)) = a - b - (if c then 0 else 1) := by
    apply BitVec.eq_of_toNat_eq
    cases c <;> simp <;> omega
  simp only [hr]
  have : (a - b - (if c then 0 else 1) : Word).toNat = (a.toNat + (~~~b).toNat + c.toNat) % 2^32 := by rw [← hr]; simp
  generalize (a - b - (if c then 0 else 1) : Word) = r at *
  generalize ~~~b = nb at *
  congr 1
  · rw [Bool.eq_iff_iff]; cases c <;> simp at * <;> omega
  simp only [BitVec.msb_eq_decide, BitVec.toInt_eq_toNat_cond]
  rw [Bool.eq_iff_iff]
  cases c <;> simp at * <;> omega

/-- The value of a multiply, without its words for the addend (R221, R222). -/
theorem mulAdd_eq (a b c : Word) : mulAdd a b c = a * b + c := by
  apply BitVec.eq_of_toNat_eq
  simp [mulAdd]

theorem Psr.withResult_eq_flagsOf (p : Psr) (r : AluOut) : p.withResult r = flagsOf p r := by
  simp [Psr.withResult, flagsOf]
  exact Bool.beq_eq_decide_eq _ _

/-! ### Ends -/

/-- A result-producing operation with Rd other than 15. -/
theorem State.writeResult_spec (s : State) (b : Bool) (rd : RegNum) (r : AluOut) (h : rd ≠ 15) :
    ResultWritten b rd r s (s.writeResult b rd r) := by
  unfold State.writeResult
  rw [if_neg h]
  cases b
  · exact ⟨State.x_setX_same _ _ _ h, rfl, rfl, KeepsRegs.of_write rfl (by simp), fun _ => rfl, ⟨⟨rfl, rfl, rfl, rfl, rfl, rfl⟩, rfl, rfl, rfl⟩, rfl⟩
  · exact ⟨State.x_setX_same _ _ _ h, Psr.withResult_eq_flagsOf _ _, rfl, KeepsRegs.of_write rfl (by simp), fun _ => rfl,
      ⟨⟨rfl, rfl, rfl, rfl, rfl, rfl⟩, rfl, rfl, rfl⟩, rfl⟩

/-- A result-producing operation with Rd = 15 (R172, R174). -/
theorem State.writeResult_r15 (s : State) (b : Bool) (r : AluOut) : PcWritten b r.value s (s.writeResult b 15 r) := by
  unfold State.writeResult
  cases b <;> exact ⟨rfl, rfl, rfl, rfl, fun _ => rfl, ⟨rfl, rfl, rfl, rfl, rfl, rfl⟩, rfl, rfl, rfl⟩

/-- A test with Rd other than 15. -/
theorem State.writeTest_spec (s : State) (rd : RegNum) (r : AluOut) (h : rd ≠ 15) :
    (s.writeTest rd r).psr = flagsOf s.psr r ∧ (s.writeTest rd r).pc = s.pc + 1 ∧ (s.writeTest rd r).regs = s.regs ∧
      KeepsMemory s (s.writeTest rd r) ∧ KeepsRest s (s.writeTest rd r) ∧ PrefetchCarried s (s.writeTest rd r) := by
  unfold State.writeTest
  rw [if_neg h]
  exact ⟨Psr.withResult_eq_flagsOf _ _, rfl, rfl, fun _ => rfl, ⟨⟨rfl, rfl, rfl, rfl, rfl, rfl⟩, rfl, rfl, rfl⟩, rfl⟩

/-- A test with Rd = 15 (R173, R470). -/
theorem State.writeTest_r15 (s : State) (r : AluOut) :
    (s.writeTest 15 r).psr = s.psr.write r.value ∧
      ((s.writeTest 15 r).psr.mode ≠ s.psr.mode → (s.writeTest 15 r).hazard = .modeChanged) ∧
      ((s.writeTest 15 r).psr.mode = s.psr.mode → (s.writeTest 15 r).hazard = s.hazard) ∧
      (s.writeTest 15 r).pc = s.pc + 1 ∧ (s.writeTest 15 r).regs = s.regs ∧ KeepsMemory s (s.writeTest 15 r) ∧
      KeepsInputs s (s.writeTest 15 r) ∧ (s.writeTest 15 r).coprocs = s.coprocs ∧ PrefetchCarried s (s.writeTest 15 r) :=
  ⟨rfl, fun h => if_neg h, fun h => if_pos h, rfl, rfl, fun _ => rfl, ⟨rfl, rfl, rfl, rfl, rfl, rfl⟩, rfl, rfl⟩

/-- A multiply that writes its result to a register other than 15 (R221, R226). -/
theorem mulResult_spec (o : Mul) (s : State) (r : Word) (h : o.rd ≠ 15) :
    (mulResult o s r).x o.rd = r ∧
      (mulResult o s r).psr = (if o.s then { s.psr with n := r.msb, z := decide (r = 0), c := (mulResult o s r).psr.c } else s.psr) ∧
      (mulResult o s r).pc = s.pc + 1 ∧ KeepsRegs s.psr.mode [o.rd] s (mulResult o s r) ∧ KeepsMemory s (mulResult o s r) ∧
      KeepsInputs s (mulResult o s r) ∧ (mulResult o s r).coprocs = s.coprocs ∧ (mulResult o s r).hazard = s.hazard ∧
      PrefetchCarried s (mulResult o s r) := by
  unfold mulResult
  cases o.s
  · exact ⟨State.x_setX_same _ _ _ h, rfl, rfl, KeepsRegs.of_write rfl (by simp), fun _ => rfl, ⟨rfl, rfl, rfl, rfl, rfl, rfl⟩, rfl, rfl, rfl⟩
  · refine ⟨State.x_setX_same _ _ _ h, ?_, rfl, KeepsRegs.of_write rfl (by simp), fun _ => rfl, ⟨rfl, rfl, rfl, rfl, rfl, rfl⟩, rfl, rfl, rfl⟩
    simp only [if_true]
    rw [← Bool.beq_eq_decide_eq]
    rfl

end Sys2Proof.Machine
end

