-- ==== Sys2Proof/Laws/Transfers.lean ====
section
/-! SUPPORT. What the ends of the single transfers, and the transfers themselves, can do. -/

namespace Sys2Proof.Machine

/-- The two ends of a register that may be R15's PC field (R246). -/
theorem State.setXorPc_cases (s : State) (i : RegNum) (v : Word) :
    (i = 15 ∧ s.setXorPc i v = s.branchTo v) ∨ (i ≠ 15 ∧ s.setXorPc i v = s.setX i v) := by
  unfold State.setXorPc
  split <;> simp_all

/-- The advance with the base write-back, which is all a transfer leaves besides its data (R242, R246). -/
theorem writeBack_spec {α : Type} (o : Sdt α) (a : SdtAddr) (s : State) :
    BaseLeft o a s (s.advance.writeBack a.wb o.rn a.modified) ∧
      KeepsRegs s.psr.mode (baseRegs o a) s (s.advance.writeBack a.wb o.rn a.modified) ∧
      (s.advance.writeBack a.wb o.rn a.modified).psr = s.psr ∧ (s.advance.writeBack a.wb o.rn a.modified).mem = s.mem ∧
      KeepsRest s (s.advance.writeBack a.wb o.rn a.modified) ∧
      (s.advance.writeBack a.wb o.rn a.modified).pipe = (if a.wb = true ∧ o.rn = 15 then Pipeline.fresh else s.pipe.shift) := by
  unfold State.writeBack State.setXorPc BaseLeft baseRegs
  by_cases hw : a.wb = true
  · simp only [hw, if_true]
    by_cases h : o.rn = 15
    · rw [if_pos h]
      exact ⟨⟨fun _ h' => absurd h h', by simp [h, pcField]⟩, fun _ _ => rfl, rfl, rfl, ⟨⟨rfl, rfl, rfl, rfl, rfl, rfl⟩, rfl, rfl, rfl⟩, by simp [h]⟩
    · rw [if_neg h]
      refine ⟨⟨fun _ _ => State.x_setX_same _ _ _ h, ?_⟩, KeepsRegs.of_write rfl (by simp), rfl, rfl,
        ⟨⟨rfl, rfl, rfl, rfl, rfl, rfl⟩, rfl, rfl, rfl⟩, ?_⟩
      · rw [if_neg (by simp [show ¬ o.rn = 15#4 from h])]
        rfl
      · rw [if_neg fun c => h c.2]
        rfl
  · simp only [hw]
    exact ⟨⟨fun h => absurd h (by simp), by simp⟩, fun _ _ => rfl, rfl, rfl, ⟨⟨rfl, rfl, rfl, rfl, rfl, rfl⟩, rfl, rfl, rfl⟩, by simp⟩

/-- The end of a load into a register other than 15. -/
theorem finishLoad_spec {α : Type} (o : Sdt α) (s : State) (a : SdtAddr) (v : Word) (h : o.rd ≠ 15) :
    Loaded o a v s (finishLoad o s a (some v)) := by
  obtain ⟨⟨b1, b2⟩, b3, b4, b5, b6, b7⟩ := writeBack_spec o a s
  simp only [finishLoad]
  generalize s.advance.writeBack a.wb o.rn a.modified = u at *
  rw [show u.setXorPc o.rd v = u.setX o.rd v from if_neg h]
  refine ⟨State.x_setX_same _ _ _ h, fun hn => ⟨fun w n => ?_, b2⟩, fun he => ?_, ?_, b4, ?_, b6, fun c => ?_, fun c d => ?_⟩
  · rw [State.x_setX_other _ _ _ _ hn]; exact b1 w n
  · show u.pc = _
    rw [b2, if_neg (by rw [he]; exact fun c => h c.2)]
  · refine KeepsRegs.trans (b3.mono fun i hi => List.mem_cons_of_mem _ hi) (KeepsRegs.of_write (i := o.rd) (v := v) ?_ (by simp))
    show u.regs.write u.psr.mode _ _ = _
    rw [b4]
  · exact KeepsMemory.of_eq b5 b6.1.2.2.2.2.1 b6.1.2.2.2.2.2
  · exact b7.trans (if_neg c)
  · exact b7.trans (if_pos ⟨c, d⟩)

/-- The end of a load into R15. -/
theorem finishLoad_r15 {α : Type} (o : Sdt α) (s : State) (a : SdtAddr) (v : Word) (h : o.rd = 15) :
    LoadedPc o a v s (finishLoad o s a (some v)) := by
  obtain ⟨⟨b1, b2⟩, b3, b4, b5, b6, -⟩ := writeBack_spec o a s
  simp only [finishLoad]
  generalize s.advance.writeBack a.wb o.rn a.modified = u at *
  rw [show u.setXorPc o.rd v = u.branchTo v from if_pos h]
  exact ⟨rfl, b1, rfl, b3, b4, KeepsMemory.of_eq b5 b6.1.2.2.2.2.1 b6.1.2.2.2.2.2, b6⟩

/-- The end of a store of `n` bytes that has written memory and marked the prefetched words. -/
theorem finishStore_spec {α : Type} (o : Sdt α) (s u : State) (a : SdtAddr) (n : Nat) (m : Memory) (p : Pipeline)
    (hu : u = { s with mem := m, pipe := p }) (h1 : p.stale1 = true ↔ s.pipe.stale1 = true ∨ ReachesWordAhead s a.addr n 1)
    (h2 : p.stale2 = true ↔ s.pipe.stale2 = true ∨ ReachesWordAhead s a.addr n 2) :
    StoreLeft o a n s (finishStore o ⟨u, false⟩ a) ∧ (finishStore o ⟨u, false⟩ a).mem = u.mem := by
  obtain ⟨b0, b3, b4, b5, b6, b7⟩ := writeBack_spec o a u
  rw [show finishStore o ⟨u, false⟩ a = u.advance.writeBack a.wb o.rn a.modified from rfl]
  generalize u.advance.writeBack a.wb o.rn a.modified = t at *
  subst hu
  exact ⟨⟨b0, b3, b4, b6, fun c => by rw [PrefetchMarked, b7, if_neg c]; exact ⟨h1, h2, rfl⟩,
    fun c d => by rw [b7, if_pos ⟨c, d⟩]⟩, b5⟩

/-- The data abort, in the terms of R410. -/
theorem State.dataAbort_spec (s : State) :
    TrapTaken s (s.enter .dataAbort (s.pc + 2)) (.svc 1) (s.pc + 2) 4 .svc s.psr.f ∧
      KeepsForTrap s (s.enter .dataAbort (s.pc + 2)) ∧ KeepsInputs s (s.enter .dataAbort (s.pc + 2)) := by
  refine ⟨?_, s.enter_keeps _ _ (by simp), rfl, rfl, rfl, rfl, rfl, rfl⟩
  simpa [Trap.setsF, Trap.mode, Trap.vector, linkReg] using s.enter_spec .dataAbort (s.pc + 2) (by simp)

/-- A word load answers the advance, or the end of a load. -/
theorem loadWord_cases {α : Type} (o : Sdt α) (off : Word) (s t : State) (h : loadWord o off s = .next t) :
    (condPassed o.cond s.psr = false ∧ t = s.advance) ∨
      (condPassed o.cond s.psr = true ∧
        t = finishLoad o s (sdtAddr s o off) (s.readWord (forcedTran o.p o.w) (sdtAddr s o off).addr)) := by
  rcases ifPassed_cases _ _ _ _ h with h | ⟨hc, h⟩
  · exact .inl h
  · rw [if_neg (by simp [refusesUnaligned, Config.unalignedSupport])] at h
    injection h with h
    exact .inr ⟨hc, h.symm⟩

/-- A byte load answers the advance, or the end of a load. -/
theorem loadByte_cases {α : Type} (o : Sdt α) (off : Word) (s t : State) (h : loadByte o off s = .next t) :
    (condPassed o.cond s.psr = false ∧ t = s.advance) ∨
      (condPassed o.cond s.psr = true ∧ t = finishLoad o s (sdtAddr s o off)
        ((s.readByte (forcedTran o.p o.w) (sdtAddr s o off).addr).map (fun b => b.setWidth 32))) := by
  rcases ifPassed_cases _ _ _ _ h with h | ⟨hc, h⟩
  · exact .inl h
  · injection h with h
    exact .inr ⟨hc, h.symm⟩

/-- A word store answers the advance, or the end of a store. -/
theorem storeWord_cases {α : Type} (o : Sdt α) (off : Word) (s t : State) (h : storeWord o off s = .next t) :
    (condPassed o.cond s.psr = false ∧ t = s.advance) ∨
      (condPassed o.cond s.psr = true ∧
        t = finishStore o (s.writeWord (forcedTran o.p o.w) (sdtAddr s o off).addr (sdtStoreValue o s)) (sdtAddr s o off)) := by
  rcases ifPassed_cases _ _ _ _ h with h | ⟨hc, h⟩
  · exact .inl h
  · split at h
    · cases h
    · rw [if_neg (by simp [refusesUnaligned, Config.unalignedSupport])] at h
      injection h with h
      exact .inr ⟨hc, h.symm⟩

/-- A byte store answers the advance, or the end of a store. -/
theorem storeByteOf_cases {α : Type} (o : Sdt α) (off : Word) (s t : State) (h : storeByteOf o off s = .next t) :
    (condPassed o.cond s.psr = false ∧ t = s.advance) ∨
      (condPassed o.cond s.psr = true ∧ t = finishStore o
        (s.writeByte (forcedTran o.p o.w) (sdtAddr s o off).addr (field (sdtStoreValue o s) 0 8)) (sdtAddr s o off)) := by
  rcases ifPassed_cases _ _ _ _ h with h | ⟨hc, h⟩
  · exact .inl h
  · split at h
    · cases h
    · injection h with h
      exact .inr ⟨hc, h.symm⟩

/-- A byte store changes memory and the marks on the prefetched words, nothing else. -/
theorem State.writeByte_frame (s : State) (forced : Bool) (a : Word) (b : Byte) :
    ∃ m p, (s.writeByte forced a b).state = { s with mem := m, pipe := p } ∧ p.stale0 = s.pipe.stale0 := by
  unfold State.writeByte
  split
  · exact ⟨s.mem, s.pipe, rfl, rfl⟩
  · exact ⟨_, _, rfl, rfl⟩

theorem State.writeByte_wf (s : State) (forced : Bool) (a : Word) (b : Byte) (h : s.mem.wf = true) :
    (s.writeByte forced a b).state.mem.wf = true := by
  unfold State.writeByte
  split
  · exact h
  · exact s.storeByte_wf a b h

end Sys2Proof.Machine
end

