-- ==== Sys2Proof/Laws/WarmReset.lean ====
section
/-! SUPPORT. What a cut by RES can leave of an instruction (R462): everything outside its write set as it was. -/

namespace Sys2Proof.Machine

/-- A free word in each of some registers changes those registers and the draws, nothing else. -/
theorem State.anyRegs_frame (s : State) (ps : List PhysReg) :
    ∃ r d, s.anyRegs ps = { s with regs := r, draws := d } ∧ ∀ p, p ∉ ps → r.get p = s.regs.get p := by
  induction ps generalizing s with
  | nil => exact ⟨s.regs, s.draws, rfl, fun _ _ => rfl⟩
  | cons q qs ih =>
    obtain ⟨r, d, e, h⟩ := ih (({ s with regs := s.regs.set q (s.freeWord 0) } : State).drawn 1)
    refine ⟨r, d, by rw [State.anyRegs, e]; rfl, fun p hp => ?_⟩
    rw [List.mem_cons, not_or] at hp
    rw [h p hp.2]
    exact Regs.get_set_other _ _ _ _ hp.1

/-- Free bits in some flags change those flags and the draws, nothing else. -/
theorem State.anyFlags_frame (s : State) (f : FlagSet) :
    ∃ n z c v d, s.anyFlags f = { s with psr := { s.psr with n := n, z := z, c := c, v := v }, draws := d } ∧
      (f = .none → n = s.psr.n ∧ z = s.psr.z ∧ c = s.psr.c ∧ v = s.psr.v) ∧ (f = .nzc → v = s.psr.v) := by
  cases f
  · exact ⟨s.psr.n, s.psr.z, s.psr.c, s.psr.v, s.draws, rfl, fun _ => ⟨rfl, rfl, rfl, rfl⟩, nofun⟩
  · exact ⟨_, _, _, s.psr.v, _, rfl, nofun, fun _ => rfl⟩
  · exact ⟨_, _, _, _, _, rfl, nofun, nofun⟩

/-- Free bytes where an instruction stores change memory, the marks on the prefetched words and the draws, nothing else. -/
theorem State.anyStored_frame (s : State) (m : StoreSet) :
    ∃ mem p d, s.anyStored m = { s with mem := mem, pipe := p, draws := d } := by
  unfold State.anyStored
  split
  · obtain ⟨mem, p, e, -⟩ := (s.drawn 1).writeByte_frame m.forced m.addr (field (s.freeWord 0) 0 8)
    exact ⟨mem, p, _, e⟩
  · obtain ⟨mem, p, e, -⟩ := (s.drawn (m.size / 4)).writeWords_frame m.forced m.addr 0 (s.freeWords (m.size / 4))
    exact ⟨mem, p, _, e⟩

theorem State.anyStored_wf (s : State) (m : StoreSet) (h : s.mem.wf = true) : (s.anyStored m).mem.wf = true := by
  unfold State.anyStored
  split
  · exact State.writeByte_wf _ _ _ _ h
  · exact State.writeWords_wf _ _ _ _ _ h

theorem State.freeWords_length (s : State) (k : Nat) : (s.freeWords k).length = k := by simp [State.freeWords]

/-- Memory holds what it held outside the store set. -/
theorem State.cellAt_anyStored_other (s : State) (m : StoreSet) (x : Word) (h : s.mem.wf = true)
    (hx : ∀ k, k < m.size → s.bus x ≠ s.bus (m.addr + BitVec.ofNat 32 k)) : (s.anyStored m).cellAt x = s.cellAt x := by
  unfold State.anyStored
  split
  · next h1 =>
    unfold State.writeByte
    split
    · rfl
    · refine (State.cellAt_storeByte (s.drawn 1) m.addr x _ h).trans (if_neg fun e => ?_)
      have := hx 0 (by omega)
      rw [show m.addr + BitVec.ofNat 32 0 = m.addr by simp] at this
      exact this e.1
  · refine State.writeWords_cellAt (s.drawn (m.size / 4)) m.forced m.addr 0 _ x h fun j k hj hk => ?_
    rw [State.freeWords_length] at hj
    rw [wordAddr_add]
    exact hx _ (by omega)

/-- All that a cut does (R462): registers, flags and memory within the write set, the draws, and the hold in reset. -/
theorem State.cutShort_spec (s : State) (i : Instr) :
    ∃ r m n z c v d, s.cutShort i = { s with
        regs := r, mem := m, psr := { s.psr with n := n, z := z, c := c, v := v }, draws := d,
        pipe := Pipeline.fresh, hazard := .clear, inReset := true } ∧
      (∀ p, p ∉ (effectiveWrites s i).regs → r.get p = s.regs.get p) ∧
      ((effectiveWrites s i).flags = .none → n = s.psr.n ∧ z = s.psr.z ∧ c = s.psr.c ∧ v = s.psr.v) ∧
      ((effectiveWrites s i).flags = .nzc → v = s.psr.v) ∧
      (s.mem.wf = true → m.wf = true ∧ ∀ x, (∀ k, k < (effectiveWrites s i).store.size →
          s.bus x ≠ s.bus ((effectiveWrites s i).store.addr + BitVec.ofNat 32 k)) →
        Memory.read m (s.bus x).toNat = s.cellAt x) := by
  obtain ⟨m, p, d, e1⟩ := s.anyStored_frame (effectiveWrites s i).store
  obtain ⟨r, d', e2, hr⟩ := (s.anyStored (effectiveWrites s i).store).anyRegs_frame (effectiveWrites s i).regs
  obtain ⟨n, z, c, v, d'', e3, hn, hv⟩ :=
    ((s.anyStored (effectiveWrites s i).store).anyRegs (effectiveWrites s i).regs).anyFlags_frame (effectiveWrites s i).flags
  have hw : s.mem.wf = true → (s.anyStored (effectiveWrites s i).store).mem.wf = true := s.anyStored_wf _
  have hc := fun x (h : s.mem.wf = true) => s.cellAt_anyStored_other (effectiveWrites s i).store x h
  have hcut : s.cutShort i =
      (((s.anyStored (effectiveWrites s i).store).anyRegs (effectiveWrites s i).regs).anyFlags (effectiveWrites s i).flags).abandon := rfl
  rw [hcut]
  generalize effectiveWrites s i = w at *
  rw [e3]
  rw [e2] at hn hv ⊢
  rw [e1] at hr hn hv hw hc ⊢
  exact ⟨r, m, n, z, c, v, d'', rfl, hr, hn, hv, fun h => ⟨hw h, fun x hx => hc x h hx⟩⟩

end Sys2Proof.Machine
end

