-- ==== Sys2Proof/Tests/Slice0.lean ====
section
/-! SUPPORT. Tests on fixed values, each with the place of the spec its numbers come from: ill-formed terms refused, a word of every row written out
bit by bit and decoded, one step of every row, and for each statement a state and operands that meet its hypotheses. -/

namespace Sys2Proof.Tests

open Sys2Proof.Machine

/-! ### Well-formedness: a word outside its row's region is refused, one check each (R118, R119, R123) -/

theorem test_illFormed_unspecifiedTestS0Imm : ¬ WellFormed (.unspecifiedTestS0Imm ⟨.al, 0x3100000⟩) ∧ WellFormed (.unspecifiedTestS0Imm ⟨.al, 0x3000000⟩) := by decide
theorem test_illFormed_unspecifiedTestS0Reg : ¬ WellFormed (.unspecifiedTestS0Reg ⟨.al, 0x1000010⟩) ∧ WellFormed (.unspecifiedTestS0Reg ⟨.al, 0x1000000⟩) := by decide
theorem test_illFormed_unspecifiedTestS0RegShift : ¬ WellFormed (.unspecifiedTestS0RegShift ⟨.al, 0x1000090⟩) ∧ WellFormed (.unspecifiedTestS0RegShift ⟨.al, 0x1000010⟩) := by decide
theorem test_illFormed_undefined1 : ¬ WellFormed (.undefined1 ⟨.al, 0x1000010⟩) ∧ WellFormed (.undefined1 ⟨.al, 0x1000090⟩) := by decide
theorem test_illFormed_unallocatedA : ¬ WellFormed (.unallocatedA ⟨.al, 0x0000090⟩) ∧ WellFormed (.unallocatedA ⟨.al, 0x0800090⟩) := by decide
theorem test_illFormed_unallocatedB : ¬ WellFormed (.unallocatedB ⟨.al, 0x0800090⟩) ∧ WellFormed (.unallocatedB ⟨.al, 0x0400090⟩) := by decide
theorem test_illFormed_unallocatedC : ¬ WellFormed (.unallocatedC ⟨.al, 0x0000090⟩) ∧ WellFormed (.unallocatedC ⟨.al, 0x00000D0⟩) := by decide
theorem test_illFormed_unallocatedD : ¬ WellFormed (.unallocatedD ⟨.al, 0x00000D0⟩) ∧ WellFormed (.unallocatedD ⟨.al, 0x00000B0⟩) := by decide
theorem test_illFormed_undefined2 : ¬ WellFormed (.undefined2 ⟨.al, 0x6000000⟩) ∧ WellFormed (.undefined2 ⟨.al, 0x6000010⟩) := by decide

theorem test_decode_truncated : decode [0xE1, 0xA0, 0xF0] = .error .truncated := rfl
/-- R72: the bytes of `B .` are 0xEA, 0xFF, 0xFF, 0xFE. -/
theorem test_decode_bigEndian : decode [0xEA, 0xFF, 0xFF, 0xFE, 0x55] = .ok (.b ⟨.al, 0xFFFFFE⟩, [0x55]) := rfl
theorem test_decodeTableWord_b : decodeTableWord 32 0xEAFFFFFE = some (.b ⟨.al, 0xFFFFFE⟩) := by decide
theorem test_decodeTableWord_tooWide : decodeTableWord 32 0x1EAFFFFFE = none := by decide

/-! ### Decoding: one word of every row, its fields in the order of R102 -/

theorem test_decode_andImm : decodeWord 0b0011_00_1_0000_0_0001_0010_0011_00110000 = .andImm ⟨.cc, false, 1, 2, ⟨3, 48⟩⟩ := by decide
theorem test_decode_andReg : decodeWord 0b1000_00_0_0000_1_0100_1001_01011_00_0_0110 = .andReg ⟨.hi, true, 4, 9, ⟨11, .lsl, 6⟩⟩ := by decide
theorem test_decode_andRegShift : decodeWord 0b1101_00_0_0000_0_0111_0000_1111_0_10_1_0111 = .andRegShift ⟨.le, false, 7, 0, ⟨15, .asr, 7⟩⟩ := by decide
theorem test_decode_eorImm : decodeWord 0b0010_00_1_0001_1_1010_0111_1100_10011111 = .eorImm ⟨.cs, true, 10, 7, ⟨12, 159⟩⟩ := by decide
theorem test_decode_eorReg : decodeWord 0b0111_00_0_0001_0_1101_1110_11010_01_0_0111 = .eorReg ⟨.vc, false, 13, 14, ⟨26, .lsr, 7⟩⟩ := by decide
theorem test_decode_eorRegShift : decodeWord 0b1100_00_0_0001_1_0000_0101_1010_0_11_1_1110 = .eorRegShift ⟨.gt, true, 0, 5, ⟨10, .ror, 14⟩⟩ := by decide
theorem test_decode_subImm : decodeWord 0b0001_00_1_0010_0_0011_1100_0101_00001110 = .subImm ⟨.ne, false, 3, 12, ⟨5, 14⟩⟩ := by decide
theorem test_decode_subReg : decodeWord 0b0110_00_0_0010_1_0110_0011_01001_10_0_1000 = .subReg ⟨.vs, true, 6, 3, ⟨9, .asr, 8⟩⟩ := by decide
theorem test_decode_subRegShift : decodeWord 0b1011_00_0_0010_0_1001_1010_0101_0_00_1_0101 = .subRegShift ⟨.lt, false, 9, 10, ⟨5, .lsl, 5⟩⟩ := by decide
theorem test_decode_rsbImm : decodeWord 0b0000_00_1_0011_1_1100_0001_1110_01111101 = .rsbImm ⟨.eq, true, 12, 1, ⟨14, 125⟩⟩ := by decide
theorem test_decode_rsbReg : decodeWord 0b0101_00_0_0011_0_1111_1000_11000_11_0_1001 = .rsbReg ⟨.pl, false, 15, 8, ⟨24, .ror, 9⟩⟩ := by decide
theorem test_decode_rsbRegShift : decodeWord 0b1010_00_0_0011_1_0010_1111_0000_0_01_1_1100 = .rsbRegShift ⟨.ge, true, 2, 15, ⟨0, .lsr, 12⟩⟩ := by decide
theorem test_decode_addImm : decodeWord 0b1111_00_1_0100_0_0101_0110_0111_11101100 = .addImm ⟨.nv, false, 5, 6, ⟨7, 236⟩⟩ := by decide
theorem test_decode_addReg : decodeWord 0b0100_00_0_0100_1_1000_1101_00111_00_0_1010 = .addReg ⟨.mi, true, 8, 13, ⟨7, .lsl, 10⟩⟩ := by decide
theorem test_decode_addRegShift : decodeWord 0b1001_00_0_0100_0_1011_0100_1011_0_10_1_0011 = .addRegShift ⟨.ls, false, 11, 4, ⟨11, .asr, 3⟩⟩ := by decide
theorem test_decode_adcImm : decodeWord 0b1110_00_1_0101_1_1110_1011_0000_01011011 = .adcImm ⟨.al, true, 14, 11, ⟨0, 91⟩⟩ := by decide
theorem test_decode_adcReg : decodeWord 0b0011_00_0_0101_0_0001_0010_10110_01_0_1011 = .adcReg ⟨.cc, false, 1, 2, ⟨22, .lsr, 11⟩⟩ := by decide
theorem test_decode_adcRegShift : decodeWord 0b1000_00_0_0101_1_0100_1001_0110_0_11_1_1010 = .adcRegShift ⟨.hi, true, 4, 9, ⟨6, .ror, 10⟩⟩ := by decide
theorem test_decode_sbcImm : decodeWord 0b1101_00_1_0110_0_0111_0000_1001_11001010 = .sbcImm ⟨.le, false, 7, 0, ⟨9, 202⟩⟩ := by decide
theorem test_decode_sbcReg : decodeWord 0b0010_00_0_0110_1_1010_0111_00101_10_0_1100 = .sbcReg ⟨.cs, true, 10, 7, ⟨5, .asr, 12⟩⟩ := by decide
theorem test_decode_sbcRegShift : decodeWord 0b0111_00_0_0110_0_1101_1110_0001_0_00_1_0001 = .sbcRegShift ⟨.vc, false, 13, 14, ⟨1, .lsl, 1⟩⟩ := by decide
theorem test_decode_rscImm : decodeWord 0b1100_00_1_0111_1_0000_0101_0010_00111001 = .rscImm ⟨.gt, true, 0, 5, ⟨2, 57⟩⟩ := by decide
theorem test_decode_rscReg : decodeWord 0b0001_00_0_0111_0_0011_1100_10100_11_0_1101 = .rscReg ⟨.ne, false, 3, 12, ⟨20, .ror, 13⟩⟩ := by decide
theorem test_decode_rscRegShift : decodeWord 0b0110_00_0_0111_1_0110_0011_1100_0_01_1_1000 = .rscRegShift ⟨.vs, true, 6, 3, ⟨12, .lsr, 8⟩⟩ := by decide
theorem test_decode_tstImm : decodeWord 0b1011_00_1_1000_1_1001_1010_1011_10101000 = .tstImm ⟨.lt, 9, 10, ⟨11, 168⟩⟩ := by decide
theorem test_decode_tstReg : decodeWord 0b0000_00_0_1000_1_1100_0001_00011_00_0_1110 = .tstReg ⟨.eq, 12, 1, ⟨3, .lsl, 14⟩⟩ := by decide
theorem test_decode_tstRegShift : decodeWord 0b0101_00_0_1000_1_1111_1000_0111_0_10_1_1111 = .tstRegShift ⟨.pl, 15, 8, ⟨7, .asr, 15⟩⟩ := by decide
theorem test_decode_teqImm : decodeWord 0b1010_00_1_1001_1_0010_1111_0100_00010111 = .teqImm ⟨.ge, 2, 15, ⟨4, 23⟩⟩ := by decide
theorem test_decode_teqReg : decodeWord 0b1111_00_0_1001_1_0101_0110_10010_01_0_1111 = .teqReg ⟨.nv, 5, 6, ⟨18, .lsr, 15⟩⟩ := by decide
theorem test_decode_teqRegShift : decodeWord 0b0100_00_0_1001_1_1000_1101_0010_0_11_1_0110 = .teqRegShift ⟨.mi, 8, 13, ⟨2, .ror, 6⟩⟩ := by decide
theorem test_decode_cmpImm : decodeWord 0b1001_00_1_1010_1_1011_0100_1101_10000110 = .cmpImm ⟨.ls, 11, 4, ⟨13, 134⟩⟩ := by decide
theorem test_decode_cmpReg : decodeWord 0b1110_00_0_1010_1_1110_1011_00001_10_0_0000 = .cmpReg ⟨.al, 14, 11, ⟨1, .asr, 0⟩⟩ := by decide
theorem test_decode_cmpRegShift : decodeWord 0b0011_00_0_1010_1_0001_0010_1101_0_00_1_1101 = .cmpRegShift ⟨.cc, 1, 2, ⟨13, .lsl, 13⟩⟩ := by decide
theorem test_decode_cmnImm : decodeWord 0b1000_00_1_1011_1_0100_1001_0110_11110101 = .cmnImm ⟨.hi, 4, 9, ⟨6, 245⟩⟩ := by decide
theorem test_decode_cmnReg : decodeWord 0b1101_00_0_1011_1_0111_0000_10000_11_0_0001 = .cmnReg ⟨.le, 7, 0, ⟨16, .ror, 1⟩⟩ := by decide
theorem test_decode_cmnRegShift : decodeWord 0b0010_00_0_1011_1_1010_0111_1000_0_01_1_0100 = .cmnRegShift ⟨.cs, 10, 7, ⟨8, .lsr, 4⟩⟩ := by decide
theorem test_decode_orrImm : decodeWord 0b0111_00_1_1100_0_1101_1110_1111_01100100 = .orrImm ⟨.vc, false, 13, 14, ⟨15, 100⟩⟩ := by decide
theorem test_decode_orrReg : decodeWord 0b1100_00_0_1100_1_0000_0101_11111_00_0_0010 = .orrReg ⟨.gt, true, 0, 5, ⟨31, .lsl, 2⟩⟩ := by decide
theorem test_decode_orrRegShift : decodeWord 0b0001_00_0_1100_0_0011_1100_0011_0_10_1_1011 = .orrRegShift ⟨.ne, false, 3, 12, ⟨3, .asr, 11⟩⟩ := by decide
theorem test_decode_movImm : decodeWord 0b0110_00_1_1101_1_0110_0011_1000_11010011 = .movImm ⟨.vs, true, 6, 3, ⟨8, 211⟩⟩ := by decide
theorem test_decode_movReg : decodeWord 0b1011_00_0_1101_0_1001_1010_01110_01_0_0011 = .movReg ⟨.lt, false, 9, 10, ⟨14, .lsr, 3⟩⟩ := by decide
theorem test_decode_movRegShift : decodeWord 0b0000_00_0_1101_1_1100_0001_1110_0_11_1_0010 = .movRegShift ⟨.eq, true, 12, 1, ⟨14, .ror, 2⟩⟩ := by decide
theorem test_decode_bicImm : decodeWord 0b0101_00_1_1110_0_1111_1000_0001_01000010 = .bicImm ⟨.pl, false, 15, 8, ⟨1, 66⟩⟩ := by decide
theorem test_decode_bicReg : decodeWord 0b1010_00_0_1110_1_0010_1111_11101_10_0_0100 = .bicReg ⟨.ge, true, 2, 15, ⟨29, .asr, 4⟩⟩ := by decide
theorem test_decode_bicRegShift : decodeWord 0b1111_00_0_1110_0_0101_0110_1001_0_00_1_1001 = .bicRegShift ⟨.nv, false, 5, 6, ⟨9, .lsl, 9⟩⟩ := by decide
theorem test_decode_mvnImm : decodeWord 0b0100_00_1_1111_1_1000_1101_1010_10110001 = .mvnImm ⟨.mi, true, 8, 13, ⟨10, 177⟩⟩ := by decide
theorem test_decode_mvnReg : decodeWord 0b1001_00_0_1111_0_1011_0100_01100_11_0_0101 = .mvnReg ⟨.ls, false, 11, 4, ⟨12, .ror, 5⟩⟩ := by decide
theorem test_decode_mvnRegShift : decodeWord 0b1110_00_0_1111_1_1110_1011_0100_0_01_1_0000 = .mvnRegShift ⟨.al, true, 14, 11, ⟨4, .lsr, 0⟩⟩ := by decide
theorem test_decode_unspecifiedTestS0Imm : decodeWord 0b1110_00_1_1010_0_0001_0000_0000_00000101 = .unspecifiedTestS0Imm ⟨.al, 0x3410005⟩ := by decide
theorem test_decode_unspecifiedTestS0Reg : decodeWord 0b1110_00_0_1010_0_0001_0000_00000_00_0_0010 = .unspecifiedTestS0Reg ⟨.al, 0x1410002⟩ := by decide
theorem test_decode_unspecifiedTestS0RegShift : decodeWord 0b0000_00_0_1000_0_0001_0000_0011_0_01_1_0010 = .unspecifiedTestS0RegShift ⟨.eq, 0x1010332⟩ := by decide
theorem test_decode_mul : decodeWord 0b1110_000000_0_0_0001_0000_0011_1001_0010 = .mul ⟨.al, false, 1, 0, 3, 2⟩ := by decide
theorem test_decode_mla : decodeWord 0b0000_000000_1_1_0001_0100_0011_1001_0010 = .mla ⟨.eq, true, 1, 4, 3, 2⟩ := by decide
theorem test_decode_undefined1 : decodeWord 0b1110_00_0_1_0101_0000_1111_0000_1_10_1_1001 = .undefined1 ⟨.al, 0x150F0D9⟩ := by decide
theorem test_decode_unallocatedA : decodeWord 0b1110_00_0_0_1_0_00_0000_0000_0000_1_00_1_0000 = .unallocatedA ⟨.al, 0x0800090⟩ := by decide
theorem test_decode_unallocatedB : decodeWord 0b1110_00_0_0_0_1_00_0000_0000_0000_1_00_1_0000 = .unallocatedB ⟨.al, 0x0400090⟩ := by decide
theorem test_decode_unallocatedC : decodeWord 0b1110_00_0_0_0_0_00_0000_0000_0000_1_11_1_0000 = .unallocatedC ⟨.al, 0x00000F0⟩ := by decide
theorem test_decode_unallocatedD : decodeWord 0b1110_00_0_0_0_0_00_0000_0000_0000_1_01_1_0000 = .unallocatedD ⟨.al, 0x00000B0⟩ := by decide
theorem test_decode_ldrImm : decodeWord 0b1110_01_0_1_0_0_0_1_0101_1110_001000001110 = .ldrImm ⟨.al, true, false, false, 5, 14, 526⟩ := by decide
theorem test_decode_ldrReg : decodeWord 0b0001_01_1_0_1_0_0_1_1000_0011_00111_10_0_1111 = .ldrReg ⟨.ne, false, true, false, 8, 3, ⟨7, .asr, 15⟩⟩ := by decide
theorem test_decode_ldrbImm : decodeWord 0b0100_01_0_1_1_1_1_1_1011_1000_011000011000 = .ldrbImm ⟨.mi, true, true, true, 11, 8, 1560⟩ := by decide
theorem test_decode_ldrbReg : decodeWord 0b0111_01_1_0_0_1_1_1_1110_1101_01101_00_0_1101 = .ldrbReg ⟨.vc, false, false, true, 14, 13, ⟨13, .lsl, 13⟩⟩ := by decide
theorem test_decode_strImm : decodeWord 0b1010_01_0_1_0_0_1_0_0001_0010_101000100010 = .strImm ⟨.ge, true, false, true, 1, 2, 2594⟩ := by decide
theorem test_decode_strReg : decodeWord 0b1101_01_1_0_1_0_0_0_0100_0111_10011_10_0_1011 = .strReg ⟨.le, false, true, false, 4, 7, ⟨19, .asr, 11⟩⟩ := by decide
theorem test_decode_strbImm : decodeWord 0b0000_01_0_1_1_1_0_0_0111_1100_111000101100 = .strbImm ⟨.eq, true, true, false, 7, 12, 3628⟩ := by decide
theorem test_decode_strbReg : decodeWord 0b0011_01_1_0_0_1_0_0_1010_0001_11001_00_0_1001 = .strbReg ⟨.cc, false, false, false, 10, 1, ⟨25, .lsl, 9⟩⟩ := by decide
theorem test_decode_undefined2 : decodeWord 0b1110_01_1_0_0000_0000_0000_0000_0001_0000 = .undefined2 ⟨.al, 0x6000010⟩ := by decide
theorem test_decode_ldm : decodeWord 0b1110_10_0_0_1_0_1_1_1101_0000000000000111 = .ldm ⟨.al, false, true, false, true, 13, 7⟩ := by decide
theorem test_decode_stm : decodeWord 0b1110_10_0_1_0_1_0_0_0010_1100000000000001 = .stm ⟨.al, true, false, true, false, 2, 0xC001⟩ := by decide
theorem test_decode_b : decodeWord 0b1110_10_1_0_111111111111111111111110 = .b ⟨.al, 0xFFFFFE⟩ := by decide
theorem test_decode_bl : decodeWord 0b0011_10_1_1_000000000000000000010000 = .bl ⟨.cc, 16⟩ := by decide
theorem test_decode_ldc : decodeWord 0b0000_11_0_1_1_0_1_1_0101_0010_0001_00000011 = .ldc ⟨.eq, true, true, false, true, 5, 2, 1, 3⟩ := by decide
theorem test_decode_stc : decodeWord 0b1110_11_0_0_1_1_0_0_0010_0011_0111_00000100 = .stc ⟨.al, false, true, true, false, 2, 3, 7, 4⟩ := by decide
theorem test_decode_cdp : decodeWord 0b1110_11_1_0_1010_0111_0001_0001_000_0_0010 = .cdp ⟨.al, 10, 7, 1, 1, 0, 2⟩ := by decide
theorem test_decode_mcr : decodeWord 0b1110_11_1_0_101_1_0010_0001_0110_010_1_0011 = .mcr ⟨.al, 5, 2, 1, 6, 2, 3⟩ := by decide
theorem test_decode_mrc : decodeWord 0b0000_11_1_0_101_0_0010_0001_0010_010_1_0011 = .mrc ⟨.eq, 5, 2, 1, 2, 2, 3⟩ := by decide
theorem test_decode_swi : decodeWord 0b0001_11_1_1_000000000000000001101101 = .swi ⟨.ne, 0x6D⟩ := by decide

/-! ### One step of every row: the instruction at 0x8000, through fetch and decode -/

/-- N, Z, C, V from a binary number of four digits. -/
def psrOf (nzcv : BitVec 4) (i f : Bool) (mode : Mode) : Psr :=
  ⟨nzcv.getLsbD 3, nzcv.getLsbD 2, nzcv.getLsbD 1, nzcv.getLsbD 0, i, f, mode⟩

/-- A state at 0x8000 with registers and words of memory set. -/
def at8000 (p : Psr) (rs : List (RegNum × Word)) (ms : List (Word × Word)) : State :=
  { State.reset with
    pc := 0x2000
    psr := p
    regs := rs.foldl (fun r e => r.write p.mode e.1 e.2) State.reset.regs
    mem := ms.foldl (fun m e => m.writeList e.1 (bytesOfWord e.2)) [] }

/-- A state in User mode at 0x8000. -/
def user (nzcv : BitVec 4) (rs : List (RegNum × Word)) (ms : List (Word × Word)) : State :=
  at8000 (psrOf nzcv false false .user) rs ms

/-- What the step that runs a word leaves, seen through `f`. -/
def after {α : Type} (w : Nat) (s : State) (f : State → α) : Option α :=
  match step (s.withFetchWord 32 w) with
  | .next t => some (f t)
  | _ => none

/-- The name under which the step that runs a word is refused. -/
def refusal (w : Nat) (s : State) : Option Refusal :=
  match step (s.withFetchWord 32 w) with
  | .refused r => some r
  | _ => none

/-- N, Z, C, V. -/
def nzcv (s : State) : BitVec 4 := flag s.psr.n ++ flag s.psr.z ++ flag s.psr.c ++ flag s.psr.v

/-- The pc as a byte address. -/
def pcOf (s : State) : Word := s.pcv 0

/-! Data processing (95, section 2.2 for the register forms; the others computed by hand from R161, R167 and R180 to R195). -/

theorem test_step_andReg : after 0xe0110002 (user 0b0000 [(1, 0xff00ff00), (2, 0xff00ff0)] []) (fun t => (t.x 0, nzcv t, pcOf t)) =
    some (0xf000f00, 0b0000, 0x8004) := by decide
theorem test_step_andImm : after 0xe21104ff (user 0b0000 [(1, 0xff00ff00)] []) (fun t => (t.x 0, nzcv t, pcOf t)) =
    some (0xff000000, 0b1010, 0x8004) := by decide
theorem test_step_andRegShift : after 0xe0110312 (user 0b0000 [(1, 0xff00ff00), (2, 0xff00ff0), (3, 0x101)] []) (fun t => (t.x 0, nzcv t, pcOf t)) =
    some (0x1f001f00, 0b0000, 0x8004) := by decide
theorem test_step_eorReg : after 0xe0310002 (user 0b0011 [(1, 0xffff0000), (2, 0xff00ff0)] []) (fun t => (t.x 0, nzcv t, pcOf t)) =
    some (0xf00f0ff0, 0b1011, 0x8004) := by decide
theorem test_step_eorImm : after 0xe23104ff (user 0b0011 [(1, 0xffff0000)] []) (fun t => (t.x 0, nzcv t, pcOf t)) =
    some (0xff0000, 0b0011, 0x8004) := by decide
theorem test_step_eorRegShift : after 0xe0310312 (user 0b0011 [(1, 0xffff0000), (2, 0xff00ff0), (3, 0x101)] []) (fun t => (t.x 0, nzcv t, pcOf t)) =
    some (0xe01f1fe0, 0b1001, 0x8004) := by decide
theorem test_step_subReg : after 0xe0510002 (user 0b0000 [(1, 0x80000000), (2, 0x1)] []) (fun t => (t.x 0, nzcv t, pcOf t)) =
    some (0x7fffffff, 0b0011, 0x8004) := by decide
theorem test_step_subImm : after 0xe25104ff (user 0b0000 [(1, 0x80000000)] []) (fun t => (t.x 0, nzcv t, pcOf t)) =
    some (0x81000000, 0b1000, 0x8004) := by decide
theorem test_step_subRegShift : after 0xe0510312 (user 0b0000 [(1, 0x80000000), (2, 0x1), (3, 0x101)] []) (fun t => (t.x 0, nzcv t, pcOf t)) =
    some (0x7ffffffe, 0b0011, 0x8004) := by decide
theorem test_step_rsbReg : after 0xe0710002 (user 0b0000 [(1, 0x1), (2, 0x0)] []) (fun t => (t.x 0, nzcv t, pcOf t)) =
    some (0xffffffff, 0b1000, 0x8004) := by decide
theorem test_step_rsbImm : after 0xe27104ff (user 0b0000 [(1, 0x1)] []) (fun t => (t.x 0, nzcv t, pcOf t)) =
    some (0xfeffffff, 0b1010, 0x8004) := by decide
theorem test_step_rsbRegShift : after 0xe0710312 (user 0b0000 [(1, 0x1), (2, 0x0), (3, 0x101)] []) (fun t => (t.x 0, nzcv t, pcOf t)) =
    some (0xffffffff, 0b1000, 0x8004) := by decide
theorem test_step_addReg : after 0xe0910002 (user 0b0000 [(1, 0x7fffffff), (2, 0x1)] []) (fun t => (t.x 0, nzcv t, pcOf t)) =
    some (0x80000000, 0b1001, 0x8004) := by decide
theorem test_step_addImm : after 0xe29104ff (user 0b0000 [(1, 0x7fffffff)] []) (fun t => (t.x 0, nzcv t, pcOf t)) =
    some (0x7effffff, 0b0010, 0x8004) := by decide
theorem test_step_addRegShift : after 0xe0910312 (user 0b0000 [(1, 0x7fffffff), (2, 0x1), (3, 0x101)] []) (fun t => (t.x 0, nzcv t, pcOf t)) =
    some (0x80000001, 0b1001, 0x8004) := by decide
theorem test_step_adcReg : after 0xe0b10002 (user 0b0010 [(1, 0xffffffff), (2, 0x0)] []) (fun t => (t.x 0, nzcv t, pcOf t)) =
    some (0x0, 0b0110, 0x8004) := by decide
theorem test_step_adcImm : after 0xe2b104ff (user 0b0010 [(1, 0xffffffff)] []) (fun t => (t.x 0, nzcv t, pcOf t)) =
    some (0xff000000, 0b1010, 0x8004) := by decide
theorem test_step_adcRegShift : after 0xe0b10312 (user 0b0010 [(1, 0xffffffff), (2, 0x0), (3, 0x101)] []) (fun t => (t.x 0, nzcv t, pcOf t)) =
    some (0x0, 0b0110, 0x8004) := by decide
theorem test_step_sbcReg : after 0xe0d10002 (user 0b0000 [(1, 0x5), (2, 0x5)] []) (fun t => (t.x 0, nzcv t, pcOf t)) =
    some (0xffffffff, 0b1000, 0x8004) := by decide
theorem test_step_sbcImm : after 0xe2d104ff (user 0b0000 [(1, 0x5)] []) (fun t => (t.x 0, nzcv t, pcOf t)) =
    some (0x1000004, 0b0000, 0x8004) := by decide
theorem test_step_sbcRegShift : after 0xe0d10312 (user 0b0000 [(1, 0x5), (2, 0x5), (3, 0x101)] []) (fun t => (t.x 0, nzcv t, pcOf t)) =
    some (0xfffffffa, 0b1000, 0x8004) := by decide
theorem test_step_rscReg : after 0xe0f10002 (user 0b0000 [(1, 0x1), (2, 0x2)] []) (fun t => (t.x 0, nzcv t, pcOf t)) =
    some (0x0, 0b0110, 0x8004) := by decide
theorem test_step_rscImm : after 0xe2f104ff (user 0b0000 [(1, 0x1)] []) (fun t => (t.x 0, nzcv t, pcOf t)) =
    some (0xfefffffe, 0b1010, 0x8004) := by decide
theorem test_step_rscRegShift : after 0xe0f10312 (user 0b0000 [(1, 0x1), (2, 0x2), (3, 0x101)] []) (fun t => (t.x 0, nzcv t, pcOf t)) =
    some (0x2, 0b0010, 0x8004) := by decide
theorem test_step_tstReg : after 0xe1110002 (user 0b0011 [(1, 0xf0), (2, 0xf)] []) (fun t => (t.x 0, nzcv t, pcOf t)) =
    some (0xdead0000, 0b0111, 0x8004) := by decide
theorem test_step_tstImm : after 0xe31104ff (user 0b0011 [(1, 0xf0)] []) (fun t => (t.x 0, nzcv t, pcOf t)) =
    some (0xdead0000, 0b0111, 0x8004) := by decide
theorem test_step_tstRegShift : after 0xe1110312 (user 0b0011 [(1, 0xf0), (2, 0xf), (3, 0x101)] []) (fun t => (t.x 0, nzcv t, pcOf t)) =
    some (0xdead0000, 0b0001, 0x8004) := by decide
theorem test_step_teqReg : after 0xe1310002 (user 0b0001 [(1, 0x5), (2, 0x5)] []) (fun t => (t.x 0, nzcv t, pcOf t)) =
    some (0xdead0000, 0b0101, 0x8004) := by decide
theorem test_step_teqImm : after 0xe33104ff (user 0b0001 [(1, 0x5)] []) (fun t => (t.x 0, nzcv t, pcOf t)) =
    some (0xdead0000, 0b1011, 0x8004) := by decide
theorem test_step_teqRegShift : after 0xe1310312 (user 0b0001 [(1, 0x5), (2, 0x5), (3, 0x101)] []) (fun t => (t.x 0, nzcv t, pcOf t)) =
    some (0xdead0000, 0b0001, 0x8004) := by decide
theorem test_step_cmpReg : after 0xe1510002 (user 0b0000 [(1, 0x80000000), (2, 0x7fffffff)] []) (fun t => (t.x 0, nzcv t, pcOf t)) =
    some (0xdead0000, 0b0011, 0x8004) := by decide
theorem test_step_cmpImm : after 0xe35104ff (user 0b0000 [(1, 0x80000000)] []) (fun t => (t.x 0, nzcv t, pcOf t)) =
    some (0xdead0000, 0b1000, 0x8004) := by decide
theorem test_step_cmpRegShift : after 0xe1510312 (user 0b0000 [(1, 0x80000000), (2, 0x7fffffff), (3, 0x101)] []) (fun t => (t.x 0, nzcv t, pcOf t)) =
    some (0xdead0000, 0b1000, 0x8004) := by decide
theorem test_step_cmnReg : after 0xe1710002 (user 0b0000 [(1, 0x1), (2, 0xffffffff)] []) (fun t => (t.x 0, nzcv t, pcOf t)) =
    some (0xdead0000, 0b0110, 0x8004) := by decide
theorem test_step_cmnImm : after 0xe37104ff (user 0b0000 [(1, 0x1)] []) (fun t => (t.x 0, nzcv t, pcOf t)) =
    some (0xdead0000, 0b1000, 0x8004) := by decide
theorem test_step_cmnRegShift : after 0xe1710312 (user 0b0000 [(1, 0x1), (2, 0xffffffff), (3, 0x101)] []) (fun t => (t.x 0, nzcv t, pcOf t)) =
    some (0xdead0000, 0b1000, 0x8004) := by decide
theorem test_step_orrReg : after 0xe1910002 (user 0b0000 [(1, 0xff00ff00), (2, 0xff00ff0)] []) (fun t => (t.x 0, nzcv t, pcOf t)) =
    some (0xfff0fff0, 0b1000, 0x8004) := by decide
theorem test_step_orrImm : after 0xe39104ff (user 0b0000 [(1, 0xff00ff00)] []) (fun t => (t.x 0, nzcv t, pcOf t)) =
    some (0xff00ff00, 0b1010, 0x8004) := by decide
theorem test_step_orrRegShift : after 0xe1910312 (user 0b0000 [(1, 0xff00ff00), (2, 0xff00ff0), (3, 0x101)] []) (fun t => (t.x 0, nzcv t, pcOf t)) =
    some (0xffe0ffe0, 0b1000, 0x8004) := by decide
theorem test_step_movReg : after 0xe1b10002 (user 0b1011 [(1, 0x9), (2, 0x0)] []) (fun t => (t.x 0, nzcv t, pcOf t)) =
    some (0x0, 0b0111, 0x8004) := by decide
theorem test_step_movImm : after 0xe3b104ff (user 0b1011 [(1, 0x9)] []) (fun t => (t.x 0, nzcv t, pcOf t)) =
    some (0xff000000, 0b1011, 0x8004) := by decide
theorem test_step_movRegShift : after 0xe1b10312 (user 0b1011 [(1, 0x9), (2, 0x0), (3, 0x101)] []) (fun t => (t.x 0, nzcv t, pcOf t)) =
    some (0x0, 0b0101, 0x8004) := by decide
theorem test_step_bicReg : after 0xe1d10002 (user 0b1001 [(1, 0xffffffff), (2, 0xffffffff)] []) (fun t => (t.x 0, nzcv t, pcOf t)) =
    some (0x0, 0b0101, 0x8004) := by decide
theorem test_step_bicImm : after 0xe3d104ff (user 0b1001 [(1, 0xffffffff)] []) (fun t => (t.x 0, nzcv t, pcOf t)) =
    some (0xffffff, 0b0011, 0x8004) := by decide
theorem test_step_bicRegShift : after 0xe1d10312 (user 0b1001 [(1, 0xffffffff), (2, 0xffffffff), (3, 0x101)] []) (fun t => (t.x 0, nzcv t, pcOf t)) =
    some (0x1, 0b0011, 0x8004) := by decide
theorem test_step_mvnReg : after 0xe1f10002 (user 0b0110 [(1, 0x9), (2, 0x0)] []) (fun t => (t.x 0, nzcv t, pcOf t)) =
    some (0xffffffff, 0b1010, 0x8004) := by decide
theorem test_step_mvnImm : after 0xe3f104ff (user 0b0110 [(1, 0x9)] []) (fun t => (t.x 0, nzcv t, pcOf t)) =
    some (0xffffff, 0b0010, 0x8004) := by decide
theorem test_step_mvnRegShift : after 0xe1f10312 (user 0b0110 [(1, 0x9), (2, 0x0), (3, 0x101)] []) (fun t => (t.x 0, nzcv t, pcOf t)) =
    some (0xffffffff, 0b1000, 0x8004) := by decide

/-- 95, section 1.3: SVC, NZCV = 1111, I = F = 1. -/
theorem test_step_teqp : after 0xE33FF000 (at8000 (psrOf 15 true true .svc) [] []) (fun t => (t.psr, pcOf t, t.hazard)) =
    some (psrOf 0 false false .user, 0x8004, .modeChanged) := by decide
/-- 95, section 2.2: `MOVS PC, R14` in User mode leaves I, F and the mode. -/
theorem test_step_movsPc : after 0xE1B0F00E (user 0 [(14, 0xAC001237)] []) (fun t => (t.psr, pcOf t)) =
    some (psrOf 10 false false .user, 0x1234) := by decide
/-- 95, section 2.2: `MOV PC, R14` changes the PC alone. -/
theorem test_step_movPc : after 0xE1A0F00E (user 0 [(14, 0xA0001237)] []) (fun t => (t.psr, pcOf t)) =
    some (psrOf 0 false false .user, 0x1234) := by decide
/-- 95, section 2.2: R15 as Rm and Rn, shift amount in the instruction and in a register. -/
theorem test_step_r15Operands : (after 0xE1A0000F (user 10 [] []) (·.x 0), after 0xE28F0000 (user 10 [] []) (·.x 0),
    after 0xE1A0011F (user 10 [(1, 0)] []) (·.x 0), after 0xE08F0112 (user 10 [(1, 0), (2, 1)] []) (·.x 0),
    after 0xE1A00F12 (user 10 [(2, 1)] []) (·.x 0)) =
    (some 0xA0008008, some 0x8008, some 0xA000800C, some 0x800D, some 0x100) := by decide

/-! Rows that stop when their condition passes (R175, R326; 95, section 2.8). -/

theorem test_stop_unspecifiedTestS0Reg : refusal 0xE1410002 (user 0 [] []) = some .testWithoutS := by decide
theorem test_stop_unspecifiedTestS0Imm : refusal 0xE3410002 (user 0 [] []) = some .testWithoutS := by decide
theorem test_stop_unspecifiedTestS0RegShift : refusal 0xE1410312 (user 0 [] []) = some .testWithoutS := by decide
theorem test_stop_unallocatedA : refusal 0xE0800090 (user 0 [] []) = some .unallocated := by decide
theorem test_stop_unallocatedB : refusal 0xE0400090 (user 0 [] []) = some .unallocated := by decide
theorem test_stop_unallocatedC : refusal 0xE00000D0 (user 0 [] []) = some .unallocated := by decide
theorem test_stop_unallocatedD : refusal 0xE00000B0 (user 0 [] []) = some .unallocated := by decide
/-- R142: a word with no meaning is a no-op when its condition fails. -/
theorem test_step_unallocatedNever : after 0xF0800090 (user 0 [] []) pcOf = some 0x8004 := by decide

/-! Multiply (95, section 2.3). -/

theorem test_step_mul : after 0xE0110392 (user 1 [(2, 0xFFFFFFFF), (3, 2)] []) (fun t => (t.x 1, t.psr.n, t.psr.z, t.psr.v)) = some (0xFFFFFFFE, true, false, true) := by decide
theorem test_step_mla : after 0xE0214392 (user 5 [(2, 0x10000), (3, 0x10000), (4, 5)] []) (fun t => (t.x 1, nzcv t)) = some (5, 5) := by decide
theorem test_step_mulOntoRm : after 0xE0010391 (user 5 [(1, 7), (3, 6)] []) (fun t => (t.x 1, nzcv t)) = some (0, 5) := by decide
theorem test_step_mulIntoR15 : after 0xE00F0392 (user 5 [(2, 7), (3, 6)] []) (fun t => (t.psr, pcOf t)) = some (psrOf 5 false false .user, 0x8004) := by decide

/-! Single data transfer (95, sections 1.16 and 2.4). -/

/-- The two words of 95, section 2.4. -/
def words2 : List (Word × Word) := [(0x9000, 0x11223344), (0x9004, 0x55667788)]

theorem test_step_ldrImm : after 0xE4910004 (user 0 [(1, 0x9000)] words2) (fun t => (t.x 0, t.x 1)) = some (0x11223344, 0x9004) := by decide
theorem test_step_ldrImmUnaligned : after 0xE5910000 (user 0 [(1, 0x9001)] words2) (fun t => t.x 0) = some 0x22334455 := by decide
theorem test_step_ldrReg : after 0xE7110002 (user 0 [(1, 0x9004), (2, 4)] words2) (fun t => (t.x 0, t.x 1)) = some (0x11223344, 0x9004) := by decide
theorem test_step_ldrPc : after 0xE591F000 (user 10 [(1, 0x9000)] [(0x9000, 0xFC001237)]) (fun t => (pcOf t, t.psr)) = some (0x1234, psrOf 10 false false .user) := by decide
theorem test_step_ldrbImm : after 0x05D52005 (user 4 [(5, 0x9000)] words2) (fun t => (t.x 2, t.x 5)) = some (0x66, 0x9000) := by decide
theorem test_step_ldrbReg : after 0xE7D10002 (user 0 [(1, 0x9000), (2, 3)] words2) (fun t => t.x 0) = some 0x44 := by decide
theorem test_step_strImm : after 0xE5810000 (user 0 [(0, 0xAABBCCDD), (1, 0x9001)] words2) (fun t => (t.wordAt 0x9000, t.wordAt 0x9004, t.x 1)) = some (0x11AABBCC, 0xDD667788, 0x9001) := by decide
theorem test_step_strImmPc : after 0xE581F000 (user 10 [(1, 0x9000)] []) (fun t => t.wordAt 0x9000) = some 0xA000800C := by decide
theorem test_step_strReg : after 0xE7A21001 (user 0 [(1, 0x10), (2, 0x9000)] []) (fun t => (t.wordAt 0x9010, t.x 2)) = some (0x10, 0x9010) := by decide
theorem test_step_strbImm : after 0xE5C10000 (user 0 [(0, 0xAABBCCDD), (1, 0x9002)] words2) (fun t => (t.wordAt 0x9000, t.wordAt 0x9004)) = some (0x1122DD44, 0x55667788) := by decide
theorem test_step_strbReg : after 0xE7410002 (user 0 [(0, 0xAABBCCDD), (1, 0x9003), (2, 2)] words2) (fun t => t.wordAt 0x9000) = some 0x11DD3344 := by decide
theorem test_stop_strOfBase : refusal 0xE4811004 (user 0 [(1, 0x9000)] []) = some .storeOfWrittenBackBase := by decide

/-! Block data transfer (95, sections 1.17 and 2.5). -/

/-- Word 0x100 + i at 0x9000 + 4i. -/
def words8 : List (Word × Word) :=
  [(0x9000, 0x100), (0x9004, 0x101), (0x9008, 0x102), (0x900C, 0x103), (0x9010, 0x104), (0x9014, 0x105), (0x9018, 0x106), (0x901C, 0x107)]

theorem test_step_ldm : after 0xE83000A2 (user 0 [(0, 0x9010)] words8) (fun t => (t.x 1, t.x 5, t.x 7, t.x 0)) = some (0x102, 0x103, 0x104, 0x9004) := by decide
theorem test_step_ldmBaseInList : after 0xE8B10006 (user 0 [(1, 0x9000)] words8) (fun t => (t.x 1, t.x 2)) = some (0x100, 0x101) := by decide
theorem test_step_stm : after 0xE9A000A2 (user 0 [(0, 0x9010), (1, 0xA1), (5, 0xA5), (7, 0xA7)] words8) (fun t => (t.wordAt 0x9010, t.wordAt 0x9014, t.wordAt 0x9018, t.wordAt 0x901C, t.x 0)) = some (0x104, 0xA1, 0xA5, 0xA7, 0x901C) := by decide
theorem test_step_stmBaseSecond : after 0xE8A20006 (user 0 [(1, 0x11), (2, 0x9000)] []) (fun t => (t.wordAt 0x9000, t.wordAt 0x9004, t.x 2)) = some (0x11, 0x9008, 0x9008) := by decide
/-- 95, section 2.5: the read of 0x9018 aborts, R0 = 0x9010, write-back. -/
theorem test_step_ldmAbort : after 0xE8B002A2
    { user 0 [(0, 0x9010), (1, 1), (5, 5), (7, 7), (9, 9)] words8 with aborts := [⟨0x9018, 0x9018, some .read, none, none, none, 0, none⟩] }
    (fun t => ([t.x 1, t.x 5, t.x 7, t.x 9, t.x 0, t.x 14], pcOf t)) = some ([0x104, 5, 7, 9, 0x9020, 0x8008], 0x10) := by decide
/-- 95, section 2.5: the write of 0x9014 aborts. -/
theorem test_step_stmAbort : after 0xE8A000A2
    { user 0 [(0, 0x9010), (1, 0xA1), (5, 0xA5), (7, 0xA7)] words8 with aborts := [⟨0x9014, 0x9014, some .write, none, none, none, 0, none⟩] }
    (fun t => (t.wordAt 0x9010, t.wordAt 0x9014, t.wordAt 0x9018, t.x 0, t.x 14)) =
    some (0xA1, 0x105, 0xA7, 0x901C, 0x8008) := by decide
/-- 95, section 2.5: STM with S stores the user bank. -/
theorem test_step_stmUserBank : after 0xE8C06000
    { at8000 (psrOf 0 false false .svc) [(0, 0x9000), (13, 0x5D5D), (14, 0x5E5E)] [] with hazard := .clear }
    (fun t => (t.wordAt 0x9000, t.wordAt 0x9004)) = some (0xDEAD000D, 0xDEAD000E) := by decide
/-- R293: LDM with S and without R15, in Supervisor mode, loads the user bank and opens the window. -/
theorem test_step_ldmUserBank : after 0xE8D06000 (at8000 (psrOf 0 false false .svc) [(0, 0x9000), (13, 0x5D5D), (14, 0x5E5E)] words8)
    (fun t => ([t.regs.read .user 13, t.regs.read .user 14, t.x 13, t.x 14], t.hazard)) =
    some ([0x100, 0x101, 0x5D5D, 0x5E5E], .userBankLoaded) := by decide
theorem test_stop_ldmEmpty : refusal 0xE8900000 (user 0 [(0, 0x9000)] []) = some .emptyRegisterList := by decide
theorem test_stop_ldmUnaligned : refusal 0xE8900002 (user 0 [(0, 0x9001)] []) = some .unalignedBlock := by decide

/-! Branches and traps (95, sections 2.6 to 2.8). -/

theorem test_step_b : after 0xEAFFFFFE (user 0 [] []) (fun t => pcOf t) = some 0x8000 := by decide
theorem test_step_bl : after 0xEB0003FE (user 10 [] []) (fun t => (pcOf t, t.x 14)) = some (0x9000, 0xA0008004) := by decide
theorem test_step_swi : after 0xEF000001 (user 6 [] []) (fun t => (t.x 14, t.psr, pcOf t)) = some (0x60008004, psrOf 6 true false .svc, 8) := by decide
theorem test_step_undefined1 : after 0xE1000090 (user 8 [] []) (fun t => (t.x 14, t.psr, pcOf t)) = some (0x80008004, psrOf 8 true false .svc, 4) := by decide
theorem test_step_undefined2 : after 0xE6000010 (at8000 (psrOf 0 true false .irq) [] []) (fun t => (t.x 14, t.psr, pcOf t)) = some (0x08008005, psrOf 0 true false .svc, 4) := by decide
/-- R424: a FIRQ goes before an IRQ, and N + 4 is saved. -/
theorem test_step_firqFirst : (match step { user 0 [] [] with pins := ⟨true, true, false, .no⟩ } with
    | .next t => some (t.x 14, t.psr, pcOf t)
    | _ => none) = some (0x00008004, psrOf 0 true true .firq, 0x1C) := by decide

/-! Coprocessor instructions: none attached (95, section 2.8), and one that accepts (R346, R354, R358, R360). -/

/-- A coprocessor that accepts every word, moves one word, and supplies 0xC0FFEE00. -/
def cp1 : Coproc := ⟨[⟨0, 0, 1⟩], false, [0xC0FFEE00], []⟩

/-- With `cp1` as coprocessor 1. -/
def withCp (s : State) : State := { s with coprocs := s.coprocs.set 1 (some cp1) }

theorem test_step_cdpAbsent : after 0xEEA71102 (user 0 [] []) (fun t => (t.x 14, pcOf t)) = some (0x8004, 4) := by decide
theorem test_step_ldcAbsent : after 0xEDB01104 (user 0 [(0, 0x1000)] []) (fun t => (t.x 0, pcOf t)) = some (0x1000, 4) := by decide
theorem test_step_stcAbsent : after 0xEC801101 (user 0 [(0, 0x1000)] []) (fun t => (t.x 0, pcOf t)) = some (0x1000, 4) := by decide
theorem test_step_mcrAbsent : after 0xEE100010 (user 0 [] []) (fun t => (t.x 0, pcOf t)) = some (0xDEAD0000, 4) := by decide
theorem test_step_mrcAbsent : after 0xEE000010 (user 0 [] []) (fun t => (t.x 0, pcOf t)) = some (0xDEAD0000, 4) := by decide
theorem test_step_cdp : after 0xEEA71102 (withCp (user 0 [] [])) (fun t => (t.coprocs[1].map (·.received), pcOf t)) =
    some (some [.dataOp 0xEEA71102], 0x8004) := by decide
/-- R354: `LDCEQ 1, CR2, [R5, 12]!` reads 0x200C and leaves R5 = 0x200C. -/
theorem test_step_ldc : after 0x0DB52103 (withCp (user 4 [(5, 0x2000)] [(0x200C, 0x12345678)]))
    (fun t => (t.x 5, t.coprocs[1].map (·.received))) = some (0x200C, some [.loaded 0x0DB52103 [0x12345678]]) := by decide
/-- R356: `STC 1, CR3, [R2]`. -/
theorem test_step_stc : after 0xED823100 (withCp (user 0 [(2, 0x9000)] [])) (fun t => (t.x 2, t.wordAt 0x9000)) =
    some (0x9000, 0xC0FFEE00) := by decide
theorem test_step_mcr : after 0xEE101110 (withCp (user 0 [] [])) (fun t => (t.x 1, nzcv t)) = some (0xC0FFEE00, 0) := by decide
/-- R359: into R15 the flags alone. -/
theorem test_step_mcrR15 : after 0xEE10F110 (withCp (user 3 [] [])) (fun t => (nzcv t, pcOf t)) = some (0b1100, 0x8004) := by decide
theorem test_step_mrc : after 0xEE001110 (withCp (user 0 [(1, 0xABC)] [])) (fun t => t.coprocs[1].map (·.received)) =
    some (some [.fromAprm 0xEE001110 0xABC]) := by decide

/-! Reset and the windows (R460, R470, R91). -/

theorem test_step_fromReset : (match step State.reset with
    | .next t => some (t.pc, t.psr.mode)
    | _ => none) = some (1, .svc) := by decide
theorem test_step_leaveReset : (match step { user 5 [] [] with inReset := true } with
    | .next t => some (t.pc, t.psr)
    | _ => none) = some (0, psrOf 5 true true .svc) := by decide

/-- The word is the next instruction, and RES goes high while it runs. -/
def cutting (w : Nat) (s : State) : State := { s.withFetchWord 32 w with pins := ⟨false, false, false, .inInstr⟩ }
/-- R462: a cut MOV R0, R1 holds the processor in reset with R1 and the flags as they were, and RES is low at the next boundary. -/
theorem test_cut_mov : (match step (cutting 0xE1A00001 (user 5 [(1, 7)] [])) with
    | .next t => some (t.inReset, t.x 1, nzcv t, t.pins)
    | _ => none) = some (true, 7, 5, Pins.idle) := by decide
/-- R462: a cut STR R0, [R1], 4 leaves R0 and the flags. -/
theorem test_cut_str : (match step (cutting 0xE4810004 (user 6 [(1, 0x9001)] words2)) with
    | .next t => some (t.inReset, t.x 0, nzcv t)
    | _ => none) = some (true, 0xDEAD0000, 6) := by decide
/-- R460: what follows the cut is the reset entry, whatever the instruction was. -/
theorem test_cut_thenReset : (match step (cutting 0xEF000000 (user 5 [] [])) with
    | .next t => (match step t with
      | .next u => some (u.pc, u.psr, u.inReset)
      | _ => none)
    | _ => none) = some (0, psrOf 5 true true .svc, false) := by decide

/-! The memory map, MSBLOW, and the history of bus cycles (R7, R63, R83). -/

/-- ROM from 0x9000 to 0x9003, nothing from 0xA000 to 0xAFFF. -/
def mapped (s : State) : State := { s with memMap := ⟨[⟨0x9000, 0x9003, .rom⟩, ⟨0xA000, 0xAFFF, .absent⟩], false⟩ }
theorem test_map_rom : after 0xE5810000 (mapped (user 0 [(1, 0x9002)] words2)) (fun t => (t.wordAt 0x9000, t.wordAt 0x9004)) =
    some (0x11223344, 0x00007788) := by decide
theorem test_map_absent : after 0xE5910000 (mapped (user 0 [(1, 0xA000)] [])) pcOf = some 0x8004 := by decide
/-- R63: the upper eight bits of an address are low. -/
theorem test_map_msblow : after 0xE5810000 { user 0 [(0, 9), (1, 0xFF009000)] [] with memMap := ⟨[], true⟩ }
    (fun t => (Memory.read t.mem 0x9003, t.x 1)) = some (9, 0xFF009000) := by decide
/-- R83: an LDR of 0x9000 that aborts until two instructions have begun, tried as the first one and as the second. -/
theorem test_abort_once :
    let s := { user 0 [(1, 0x9000)] words2 with aborts := [⟨0x9000, 0x9000, some .read, none, none, none, 0, some 2⟩] }
    (after 0xE5910000 s pcOf, after 0xE5910000 { s with begun := 1 } (·.x 0)) = (some 0x10, some 0x11223344) := by decide
/-- R91: a store to the next word, one across the next two, and one past them. -/
theorem test_store_ahead : (after 0xE5810000 (user 0 [(1, 0x8004)] []) (·.pipe), after 0xE5810000 (user 0 [(1, 0x8006)] []) (·.pipe),
    after 0xE5810000 (user 0 [(1, 0x800C)] []) (·.pipe)) =
    (some ⟨true, false, false⟩, some ⟨true, true, false⟩, some ⟨false, false, false⟩) := by decide
/-- R40, R91: a MOV, one whose condition fails and an LDR carry the mark on the word after the next one on. -/
theorem test_mark_carried :
    let s := { user 0 [(1, 0x9000)] words2 with pipe := ⟨false, false, true⟩ }
    [0xE1A00001, 0xF1A00001, 0xE5910000].map (fun w => match exec (decodeWord w) s with
      | .next t => some t.pipe
      | _ => none) = [some ⟨false, true, false⟩, some ⟨false, true, false⟩, some ⟨false, true, false⟩] := by decide


/-! ### For each statement with hypotheses, a state and operands that meet all of them together -/

/-- The branch to itself at 0x8000, with nothing before it. -/
def ready : State := (user 0 [] []).withFetchWord 32 0xEAFFFFFE

/-- A rule that aborts every cycle from `a` to `b` of one kind. -/
def abortRule (a b : Word) (k : CycleKind) : AbortRule := ⟨a, b, some k, none, none, none, 0, none⟩

theorem witness_DecodeEncodeRoundTrip : WellFormed (.undefined1 ⟨.nv, 0x1FFFFFF⟩) ∧ WellFormed (.unallocatedD ⟨.eq, 0x00000B0⟩) ∧
    WellFormed (.addReg ⟨.al, true, 15, 15, ⟨31, .ror, 15⟩⟩) := by decide
theorem witness_ReservedRegionsDecode : decodeWord 0xE1000090 = .undefined1 ⟨.al, 0x1000090⟩ ∧
    decodeWord 0xE7FFFFFF = .undefined2 ⟨.al, 0x7FFFFFF⟩ ∧ decodeWord 0xE0010392 = .mul ⟨.al, false, 1, 0, 3, 2⟩ ∧
    decodeWord 0xE00000B0 = .unallocatedD ⟨.al, 0x00000B0⟩ := by decide
theorem witness_StepRunsDecodedInstruction : Ready ready ∧ ready.aborted (fetchCycle ready) = false ∧ WellFormed (.b ⟨.al, 0xFFFFFE⟩) ∧
    decode [ready.byteAt (ready.pcv 0), ready.byteAt (ready.pcv 0 + 1), ready.byteAt (ready.pcv 0 + 2), ready.byteAt (ready.pcv 0 + 3)] =
      .ok (.b ⟨.al, 0xFFFFFE⟩, []) := ⟨by unfold Ready; decide, by decide, by decide, rfl⟩
/-- A FIRQ and an IRQ at once. -/
def bothRequests : State := { user 0 [] [] with pins := ⟨true, true, false, .no⟩ }
theorem witness_FirqTaken : bothRequests.pins.res = false ∧ bothRequests.pins.cut ≠ .atOnce ∧ bothRequests.inReset = false ∧ bothRequests.pins.firq = true ∧
    bothRequests.psr.f = false := by decide
/-- The same with F set. -/
def firqMasked : State := { at8000 (psrOf 0 false true .firq) [] [] with pins := ⟨true, true, false, .no⟩ }
theorem witness_IrqTaken : firqMasked.pins.res = false ∧ firqMasked.pins.cut ≠ .atOnce ∧ firqMasked.inReset = false ∧
    (firqMasked.pins.firq = true → firqMasked.psr.f = true) ∧ firqMasked.pins.irq = true ∧ firqMasked.psr.i = false := by decide
/-- The fetch at 0x8000 aborts. -/
def fetchAborts : State := { user 0 [] [] with aborts := [abortRule 0x8000 0x8000 .fetch] }
/-- The same in a settling window, the word overwritten since it was fetched. -/
def staleFetchAborts : State := { fetchAborts with hazard := .modeChanged, pipe := ⟨true, false, false⟩ }
theorem witness_PrefetchAbortTaken : boundary fetchAborts = none ∧ fetchAborts.pins.cut = .no ∧
    fetchAborts.aborted (fetchCycle fetchAborts) = true := by decide
theorem witness_PrefetchAbortTaken_stale : boundary staleFetchAborts = none ∧ staleFetchAborts.pins.cut = .no ∧
    staleFetchAborts.aborted (fetchCycle staleFetchAborts) = true := by decide
theorem witness_ResetHeldAndLeft : ({ user 0 [] [] with pins := ⟨true, true, true, .no⟩ } : State).pins.res = true ∧
    ({ user 0 [] [] with inReset := true } : State).pins.res = false ∧ ({ user 0 [] [] with inReset := true } : State).inReset = true := by
  decide
/-- STR R0, [R1] at 0x8000, which RES cuts. -/
def cutStr : State := cutting 0xE5810000 (user 0 [(1, 0x9001)] words2)
theorem witness_ResetHeldAndLeft_cut : boundary cutStr = none ∧ fetch cutStr = some 0xE5810000 ∧ cutStr.pipe.stale0 = false ∧
    hazardBlocks cutStr (decodeWord 0xE5810000) = false ∧ cutStr.pins.cut ≠ .no ∧ cutStr.mem.wf = true ∧
    (effectiveWrites cutStr.beginInstr (decodeWord 0xE5810000)).flags = .none ∧
    (effectiveWrites cutStr.beginInstr (decodeWord 0xE5810000)).store = ⟨0x9001, 4, false⟩ := by decide
theorem witness_ResetHeldAndLeft_cutRuns : ∀ r, exec (decodeWord 0xE5810000) cutStr.beginInstr ≠ .refused r := by
  intro r h
  have : ∃ t, exec (decodeWord 0xE5810000) cutStr.beginInstr = .next t := ⟨_, rfl⟩
  obtain ⟨t, e⟩ := this
  rw [e] at h
  cases h
/-- ANDS R0, R1, R2, which writes N, Z and C alone. -/
theorem witness_ResetHeldAndLeft_cutFlags :
    (effectiveWrites (cutting 0xE0110002 (user 0 [] [])).beginInstr (decodeWord 0xE0110002)).flags = .nzc ∧
    (effectiveWrites (cutting 0xE0110002 (user 0 [] [])).beginInstr (decodeWord 0xE0110002)).regs = [.low 0] := by decide
/-- A FIRQ that RES cuts. -/
def firqCut : State := { user 0 [] [] with pins := ⟨false, true, false, .atOnce⟩ }
theorem witness_ResetHeldAndLeft_entryCut : firqCut.pins.res = false ∧ firqCut.inReset = false ∧ firqCut.pins.cut = .atOnce ∧
    firqCut.pins.firq = true ∧ firqCut.psr.f = false := by decide
/-- An IRQ that RES cuts. -/
def irqCut : State := { user 0 [] [] with pins := ⟨true, false, false, .atOnce⟩ }
theorem witness_ResetHeldAndLeft_irqCut : irqCut.pins.res = false ∧ irqCut.inReset = false ∧ irqCut.pins.cut = .atOnce ∧
    (irqCut.pins.firq = true → irqCut.psr.f = true) ∧ irqCut.pins.irq = true ∧ irqCut.psr.i = false := by decide
/-- A prefetch abort that RES cuts. -/
def fetchAbortsCut : State := { fetchAborts with pins := ⟨false, false, false, .inInstr⟩ }
theorem witness_ResetHeldAndLeft_abortCut : boundary fetchAbortsCut = none ∧
    fetchAbortsCut.aborted (fetchCycle fetchAbortsCut) = true ∧ fetchAbortsCut.pins.cut ≠ .no := by decide

/-- MOV R0, R8 at 0x8000 in a state with a window open or a stale word. -/
def hazardous (h : Hazard) (stale : Bool) (w : Nat) : State :=
  { (at8000 (psrOf 0 false false .svc) [] []).withFetchWord 32 w with hazard := h, pipe := ⟨stale, false, false⟩ }
theorem witness_HazardsRefused_stale : boundary (hazardous .clear true 0xE1A00008) = none ∧
    fetch (hazardous .clear true 0xE1A00008) = some 0xE1A00008 ∧ (hazardous .clear true 0xE1A00008).pipe.stale0 = true := by decide
theorem witness_HazardsRefused_modeChanged : boundary (hazardous .modeChanged false 0xE1A08000) = none ∧
    fetch (hazardous .modeChanged false 0xE1A08000) = some 0xE1A08000 ∧
    condPassed (decodeWord 0xE1A08000).cond (hazardous .modeChanged false 0xE1A08000).psr = true ∧
    8 ∈ regsWritten (hazardous .modeChanged false 0xE1A08000) (decodeWord 0xE1A08000) := by decide
theorem witness_HazardsRefused_userBank : boundary (hazardous .userBankLoaded false 0xE1A0000E) = none ∧
    fetch (hazardous .userBankLoaded false 0xE1A0000E) = some 0xE1A0000E ∧
    condPassed (decodeWord 0xE1A0000E).cond (hazardous .userBankLoaded false 0xE1A0000E).psr = true ∧
    14 ∈ regsRead (hazardous .userBankLoaded false 0xE1A0000E) (decodeWord 0xE1A0000E) := by decide
theorem witness_HazardsRefused_unbanked : boundary (hazardous .modeChanged false 0xE1A0700F) = none ∧
    fetch (hazardous .modeChanged false 0xE1A0700F) = some 0xE1A0700F ∧
    condPassed (decodeWord 0xE1A0700F).cond (hazardous .modeChanged false 0xE1A0700F).psr = true ∧ (hazardous .modeChanged false 0xE1A0700F).pins.cut = .no ∧
    (∀ r ∈ regsRead (hazardous .modeChanged false 0xE1A0700F) (decodeWord 0xE1A0700F) ++
      regsWritten (hazardous .modeChanged false 0xE1A0700F) (decodeWord 0xE1A0700F), r.toNat < 8 ∨ r = 15) := by decide
theorem witness_HazardsRefused_written : boundary (hazardous .userBankLoaded false 0xE1A0D007) = none ∧
    fetch (hazardous .userBankLoaded false 0xE1A0D007) = some 0xE1A0D007 ∧
    condPassed (decodeWord 0xE1A0D007).cond (hazardous .userBankLoaded false 0xE1A0D007).psr = true ∧ (hazardous .userBankLoaded false 0xE1A0D007).pins.cut = .no ∧
    (∀ r ∈ regsRead (hazardous .userBankLoaded false 0xE1A0D007) (decodeWord 0xE1A0D007), r.toNat < 8 ∨ r = 15) := by decide

/-- MOVNV R8, R0 in an open window. -/
theorem witness_HazardsRefused_skipped : boundary (hazardous .modeChanged false 0xF1A08000) = none ∧
    fetch (hazardous .modeChanged false 0xF1A08000) = some 0xF1A08000 ∧ (hazardous .modeChanged false 0xF1A08000).pipe.stale0 = false ∧
    condPassed (decodeWord 0xF1A08000).cond (hazardous .modeChanged false 0xF1A08000).psr = false ∧
    (hazardous .modeChanged false 0xF1A08000).pins.cut = .no ∧ 8 ∈ regsWritten (hazardous .modeChanged false 0xF1A08000) (decodeWord 0xF1A08000) := by decide

/-- What a step gives, when it is a next state. -/
def nextOf (s : State) : State :=
  match step s with
  | .next t => t
  | _ => s
theorem witness_SoundKeptByStep : Sound ready ∧ step ready = .next (nextOf ready) := ⟨by unfold Sound; decide, rfl⟩
theorem witness_UserModeIsProtected : ready.psr.mode = .user ∧ step ready = .next (nextOf ready) := ⟨by decide, rfl⟩
theorem witness_UserModeIsProtected_entry : bothRequests.psr.mode = .user ∧ step bothRequests = .next (nextOf bothRequests) := ⟨by decide, rfl⟩
theorem witness_HiddenBanksKept : step ready = .next (nextOf ready) ∧ (∀ i, phys ready.psr.mode i ≠ some (.fiq 0)) ∧
    PhysReg.fiq 0 ≠ linkReg (nextOf ready).psr.mode := by
  refine ⟨rfl, fun ⟨k⟩ => ?_, by decide⟩
  revert k; decide
theorem witness_OnlyStoresChangeMemory : step ready = .next (nextOf ready) := rfl
/-- A state that has executed nothing yet, with flags set. -/
def flagged : State := user 5 [(1, 0x9000)] words2
theorem witness_TransfersKeepFlags : ∃ t, exec (.ldrImm ⟨.al, true, true, false, 1, 0, 0⟩) flagged = .next t := ⟨_, rfl⟩

theorem witness_FailedConditionIsNoOp : condPassed (Instr.swi ⟨.nv, 0⟩).cond flagged.psr = false ∧
    condPassed (Instr.unallocatedA ⟨.mi, 0x0800090⟩).cond flagged.psr = false ∧
    condPassed (Instr.unspecifiedTestS0Reg ⟨.hi, 0x1400002⟩).cond flagged.psr = false := by decide
theorem witness_MeaninglessWordsRefused : condPassed (⟨.al, 0x0800090⟩ : Raw).cond flagged.psr = true := by decide
theorem witness_PsrWriteProtection : (psrOf 0 true true .user).mode = .user ∧ (psrOf 0 true true .svc).mode ≠ .user := by decide
theorem witness_RotatedImmediate : (⟨0, 0xFF⟩ : ImmOp).rotate = 0 ∧ (⟨15, 0xFF⟩ : ImmOp).rotate ≠ 0 ∧ (31 : Nat) < 32 := by decide
theorem witness_ShiftByConstant : (1 : BitVec 5) ≠ 0 ∧ (31 : BitVec 5) ≠ 0 ∧ (0 : Nat) < 31 ∧ (31 : Nat) < 32 := by decide
/-- 95, section 2.1: amounts at the ends of each range of R167. -/
theorem witness_ShiftByRegister : ((⟨0, .ror, 14⟩ : RegShiftOp).rm ≠ 15 ∧ (⟨0, .ror, 14⟩ : RegShiftOp).rs ≠ 15) ∧ (1 ≤ 1 ∧ 1 ≤ 31) ∧ (1 ≤ 31 ∧ 31 ≤ 31) ∧ (33 ≤ 33 ∧ 33 ≤ 255) ∧ (33 ≤ 255 ∧ 255 ≤ 255) ∧
    (32 ≤ 32 ∧ 32 ≤ 255) ∧ (shiftByReg .ror 0x80000001 64 false).carry = true ∧
    (shiftByReg .ror 0x80000001 33 false).value = 0xC0000000 ∧ (shiftByReg .asr 0x80000001 255 false).value = 0xFFFFFFFF := by decide
theorem witness_R15AsOperand : (14 : RegNum) ≠ 15 ∧ (⟨0, .lsl, 15⟩ : RegOp).rm = 15 ∧ (⟨0, .lsl, 14⟩ : RegOp).rm ≠ 15 ∧
    (⟨15, .ror, 15⟩ : RegShiftOp).rm = 15 ∧ (⟨15, .ror, 15⟩ : RegShiftOp).rs = 15 ∧ (⟨0, .ror, 14⟩ : RegShiftOp).rm ≠ 15 ∧
    (⟨0, .ror, 14⟩ : RegShiftOp).rs ≠ 15 := by decide

/-- The row of SBC. -/
def sbcRow : ResultRow := ⟨.sbcImm, .sbcReg, .sbcRegShift, fun p a b _ => plainDifference a b p.c⟩
theorem sbcRow_mem : sbcRow ∈ resultRows := by simp [resultRows, sbcRow]
/-- The row of TEQ. -/
def teqRow : TestRow := ⟨.teqImm, .teqReg, .teqRegShift, bitwise fun a b => a ^^^ b⟩
theorem teqRow_mem : teqRow ∈ testRows := by simp [testRows, teqRow]
theorem witness_ResultOfImmediate : sbcRow ∈ resultRows ∧ condPassed (⟨.vs, true, 15, 14, ⟨15, 255⟩⟩ : Dp ImmOp).cond flagged.psr = true ∧
    (⟨.vs, true, 15, 14, ⟨15, 255⟩⟩ : Dp ImmOp).rd ≠ 15 := ⟨sbcRow_mem, by decide, by decide⟩
theorem witness_ResultOfRegister : sbcRow ∈ resultRows ∧ condPassed (⟨.al, true, 1, 0, ⟨0, .ror, 15⟩⟩ : Dp RegOp).cond flagged.psr = true ∧
    (⟨.al, true, 1, 0, ⟨0, .ror, 15⟩⟩ : Dp RegOp).rd ≠ 15 := ⟨sbcRow_mem, by decide, by decide⟩
theorem witness_ResultOfShiftedRegister : sbcRow ∈ resultRows ∧
    condPassed (⟨.al, true, 15, 1, ⟨15, .asr, 15⟩⟩ : Dp RegShiftOp).cond flagged.psr = true ∧
    (⟨.al, true, 15, 1, ⟨15, .asr, 15⟩⟩ : Dp RegShiftOp).rd ≠ 15 := ⟨sbcRow_mem, by decide, by decide⟩
theorem witness_ResultIntoR15 : sbcRow ∈ resultRows ∧ condPassed (⟨.al, true, 14, 15, ⟨0, 4⟩⟩ : Dp ImmOp).cond flagged.psr = true ∧
    (⟨.al, true, 14, 15, ⟨0, 4⟩⟩ : Dp ImmOp).rd = 15 ∧ (⟨.al, false, 1, 15, ⟨0, .lsl, 2⟩⟩ : Dp RegOp).rd = 15 ∧
    (⟨.al, false, 1, 15, ⟨2, .lsl, 2⟩⟩ : Dp RegShiftOp).rd = 15 := ⟨sbcRow_mem, by decide⟩
theorem witness_TestsSetFlags : teqRow ∈ testRows ∧ condPassed (⟨.eq, 4, 14, ⟨0, 3⟩⟩ : Test ImmOp).cond flagged.psr = true ∧
    (⟨.eq, 4, 14, ⟨0, 3⟩⟩ : Test ImmOp).rd ≠ 15 ∧ (⟨.eq, 4, 0, ⟨0, .lsl, 3⟩⟩ : Test RegOp).rd ≠ 15 ∧
    (⟨.eq, 4, 0, ⟨3, .lsl, 3⟩⟩ : Test RegShiftOp).rd ≠ 15 := ⟨teqRow_mem, by decide⟩
theorem witness_TestsWritePsr : teqRow ∈ testRows ∧ condPassed (⟨.al, 15, 15, ⟨0, 0⟩⟩ : Test ImmOp).cond flagged.psr = true ∧
    (⟨.al, 15, 15, ⟨0, 0⟩⟩ : Test ImmOp).rd = 15 ∧ (⟨.al, 15, 15, ⟨0, .lsl, 1⟩⟩ : Test RegOp).rd = 15 ∧
    (⟨.al, 15, 15, ⟨1, .lsl, 1⟩⟩ : Test RegShiftOp).rd = 15 := ⟨teqRow_mem, by decide⟩
theorem witness_MultiplyResult : condPassed (⟨.al, true, 14, 15, 15, 15⟩ : Mul).cond flagged.psr = true ∧
    (⟨.al, true, 14, 15, 15, 15⟩ : Mul).rd ≠ 15 ∧ (⟨.al, true, 14, 15, 15, 15⟩ : Mul).rd ≠ (⟨.al, true, 14, 15, 15, 15⟩ : Mul).rm := by decide
theorem witness_MultiplyOntoRm : condPassed (⟨.al, true, 1, 4, 3, 1⟩ : Mul).cond flagged.psr = true ∧
    (⟨.al, true, 1, 4, 3, 1⟩ : Mul).rd ≠ 15 ∧ (⟨.al, true, 1, 4, 3, 1⟩ : Mul).rd = (⟨.al, true, 1, 4, 3, 1⟩ : Mul).rm := by decide
theorem witness_MultiplyIntoR15 : condPassed (⟨.al, true, 15, 4, 3, 2⟩ : Mul).cond flagged.psr = true ∧ (⟨.al, true, 15, 4, 3, 2⟩ : Mul).rd = 15 := by
  decide

/-- LDR or STR R0, [R1, 4]!, and the same with a register offset. -/
def preImm (rd : RegNum) : Sdt (BitVec 12) := ⟨.al, true, true, true, 1, rd, 4⟩
/-- The same with a register offset, post-indexed, translated. -/
def postReg (rd : RegNum) : Sdt RegOp := ⟨.al, false, true, true, 1, rd, ⟨2, .lsl, 2⟩⟩
theorem witness_LoadWord : condPassed (preImm 0).cond flagged.psr = true ∧ (preImm 0).rd ≠ 15 ∧
    flagged.readAborts (forcedTran (preImm 0).p (preImm 0).w) (sdtAddr flagged (preImm 0) (immOffset (preImm 0).offset)).addr = false ∧
    condPassed (postReg 0).cond flagged.psr = true ∧ (postReg 0).rd ≠ 15 ∧
    flagged.readAborts (forcedTran (postReg 0).p (postReg 0).w) (sdtAddr flagged (postReg 0) (regOperand flagged (postReg 0).offset).value).addr =
      false := by decide
/-- LDR R0, [R15, 4]!, which writes its base back to the PC. -/
theorem witness_LoadWord_pcBase : let o : Sdt (BitVec 12) := ⟨.al, true, true, true, 15, 0, 4⟩
    condPassed o.cond flagged.psr = true ∧ o.rd ≠ 15 ∧ o.rn = 15 ∧ (sdtAddr flagged o (immOffset o.offset)).wb = true ∧
    flagged.readAborts (forcedTran o.p o.w) (sdtAddr flagged o (immOffset o.offset)).addr = false := by decide
theorem witness_LoadByte : condPassed (preImm 1).cond flagged.psr = true ∧ (preImm 1).rd ≠ 15 ∧
    flagged.aborted (flagged.dataCycle .read true (forcedTran (preImm 1).p (preImm 1).w)
      (sdtAddr flagged (preImm 1) (immOffset (preImm 1).offset)).addr) = false ∧
    condPassed (postReg 1).cond flagged.psr = true ∧ (postReg 1).rd ≠ 15 ∧
    flagged.aborted (flagged.dataCycle .read true (forcedTran (postReg 1).p (postReg 1).w)
      (sdtAddr flagged (postReg 1) (regOperand flagged (postReg 1).offset).value).addr) = false := by decide
theorem witness_LoadIntoR15 : condPassed (preImm 15).cond flagged.psr = true ∧ (preImm 15).rd = 15 ∧
    flagged.readAborts (forcedTran (preImm 15).p (preImm 15).w) (sdtAddr flagged (preImm 15) (immOffset (preImm 15).offset)).addr = false ∧
    condPassed (postReg 15).cond flagged.psr = true ∧ (postReg 15).rd = 15 ∧
    flagged.aborted (flagged.dataCycle .read true (forcedTran (postReg 15).p (postReg 15).w)
      (sdtAddr flagged (postReg 15) (regOperand flagged (postReg 15).offset).value).addr) = false := by decide
theorem witness_StoreWord : flagged.mem.wf = true ∧ condPassed (preImm 15).cond flagged.psr = true ∧
    ((sdtAddr flagged (preImm 15) (immOffset (preImm 15).offset)).wb = true → (preImm 15).rd ≠ (preImm 15).rn) ∧
    wordStoreAborts flagged (forcedTran (preImm 15).p (preImm 15).w) (sdtAddr flagged (preImm 15) (immOffset (preImm 15).offset)).addr = false ∧
    condPassed (postReg 0).cond flagged.psr = true ∧
    ((sdtAddr flagged (postReg 0) (regOperand flagged (postReg 0).offset).value).wb = true → (postReg 0).rd ≠ (postReg 0).rn) ∧
    wordStoreAborts flagged (forcedTran (postReg 0).p (postReg 0).w)
      (sdtAddr flagged (postReg 0) (regOperand flagged (postReg 0).offset).value).addr = false := by decide
theorem witness_StoreByte : flagged.mem.wf = true ∧ condPassed (preImm 0).cond flagged.psr = true ∧
    ((sdtAddr flagged (preImm 0) (immOffset (preImm 0).offset)).wb = true → (preImm 0).rd ≠ (preImm 0).rn) ∧
    flagged.aborted (flagged.dataCycle .write true (forcedTran (preImm 0).p (preImm 0).w)
      (sdtAddr flagged (preImm 0) (immOffset (preImm 0).offset)).addr) = false ∧
    condPassed (postReg 15).cond flagged.psr = true ∧
    ((sdtAddr flagged (postReg 15) (regOperand flagged (postReg 15).offset).value).wb = true → (postReg 15).rd ≠ (postReg 15).rn) ∧
    flagged.aborted (flagged.dataCycle .write true (forcedTran (postReg 15).p (postReg 15).w)
      (sdtAddr flagged (postReg 15) (regOperand flagged (postReg 15).offset).value).addr) = false := by decide

/-- Every data cycle aborts. -/
def noData : State := { flagged with aborts := [abortRule 0 0xFFFFFFFF .read, abortRule 0 0xFFFFFFFF .write] }
theorem witness_TransferAborts : condPassed (preImm 0).cond noData.psr = true ∧
    noData.readAborts (forcedTran (preImm 0).p (preImm 0).w) (sdtAddr noData (preImm 0) (immOffset (preImm 0).offset)).addr = true ∧
    noData.aborted (noData.dataCycle .read true (forcedTran (preImm 0).p (preImm 0).w)
      (sdtAddr noData (preImm 0) (immOffset (preImm 0).offset)).addr) = true ∧
    ((sdtAddr noData (preImm 0) (immOffset (preImm 0).offset)).wb = true → (preImm 0).rd ≠ (preImm 0).rn) ∧
    noData.aborted (noData.dataCycle .write false (forcedTran (preImm 0).p (preImm 0).w)
      (sdtAddr noData (preImm 0) (immOffset (preImm 0).offset)).addr) = true ∧
    noData.aborted (noData.dataCycle .write true (forcedTran (preImm 0).p (preImm 0).w)
      (sdtAddr noData (preImm 0) (immOffset (preImm 0).offset)).addr) = true := by decide
/-- R1 is 0x8FFD, and a word read at 0x9005 aborts: the second cycle of a load at 0x9001. -/
def secondReadAborts : State := { user 0 [(1, 0x8FFD)] words2 with aborts := [abortRule 0x9005 0x9005 .read] }
theorem witness_TransferAborts_secondCycle : condPassed (preImm 0).cond secondReadAborts.psr = true ∧
    secondReadAborts.readAborts (forcedTran (preImm 0).p (preImm 0).w)
      (sdtAddr secondReadAborts (preImm 0) (immOffset (preImm 0).offset)).addr = true := by decide
theorem witness_TransferAborts_reg : condPassed (postReg 0).cond noData.psr = true ∧
    ((sdtAddr noData (postReg 0) (regOperand noData (postReg 0).offset).value).wb = true → (postReg 0).rd ≠ (postReg 0).rn) ∧
    noData.readAborts (forcedTran (postReg 0).p (postReg 0).w)
      (sdtAddr noData (postReg 0) (regOperand noData (postReg 0).offset).value).addr = true ∧
    noData.aborted (noData.dataCycle .write true (forcedTran (postReg 0).p (postReg 0).w)
      (sdtAddr noData (postReg 0) (regOperand noData (postReg 0).offset).value).addr) = true := by decide

/-- R1 is `a`, and a word write at 0x9004 aborts. -/
def secondAborts (a : Word) : State := { user 0 [(1, a)] words2 with aborts := [abortRule 0x9004 0x9004 .write] }
/-- STR R0, [R1]. -/
def plainStr : Sdt (BitVec 12) := ⟨.al, true, true, false, 1, 0, 0⟩
theorem witness_SecondStoreCycleAborts : (secondAborts 0x9001).mem.wf = true ∧ condPassed plainStr.cond (secondAborts 0x9001).psr = true ∧
    ((sdtAddr (secondAborts 0x9001) plainStr (immOffset plainStr.offset)).wb = true → plainStr.rd ≠ plainStr.rn) ∧
    (sdtAddr (secondAborts 0x9001) plainStr (immOffset plainStr.offset)).addr.toNat % 4 ≠ 0 ∧
    (secondAborts 0x9001).aborted ((secondAborts 0x9001).dataCycle .write false (forcedTran plainStr.p plainStr.w)
      (sdtAddr (secondAborts 0x9001) plainStr (immOffset plainStr.offset)).addr) = false ∧
    (secondAborts 0x9001).aborted ((secondAborts 0x9001).dataCycle .write false (forcedTran plainStr.p plainStr.w)
      (nextWord (sdtAddr (secondAborts 0x9001) plainStr (immOffset plainStr.offset)).addr)) = true := by decide
theorem witness_SecondStoreCycleAborts_three : (sdtAddr (secondAborts 0x9003) plainStr (immOffset plainStr.offset)).addr.toNat % 4 ≠ 0 ∧
    (secondAborts 0x9003).aborted ((secondAborts 0x9003).dataCycle .write false (forcedTran plainStr.p plainStr.w)
      (sdtAddr (secondAborts 0x9003) plainStr (immOffset plainStr.offset)).addr) = false ∧
    (secondAborts 0x9003).aborted ((secondAborts 0x9003).dataCycle .write false (forcedTran plainStr.p plainStr.w)
      (nextWord (sdtAddr (secondAborts 0x9003) plainStr (immOffset plainStr.offset)).addr)) = true := by decide
/-- STR R0, [R1, R2] with R1 = 0x9002 and R2 = 0. -/
def plainStrReg : Sdt RegOp := ⟨.al, true, true, false, 1, 0, ⟨0, .lsl, 2⟩⟩
/-- A state for it. -/
def secondAbortsReg : State := { user 0 [(1, 0x9002), (2, 0)] words2 with aborts := [abortRule 0x9004 0x9004 .write] }
theorem witness_SecondStoreCycleAborts_reg : secondAbortsReg.mem.wf = true ∧ condPassed plainStrReg.cond secondAbortsReg.psr = true ∧
    ((sdtAddr secondAbortsReg plainStrReg (regOperand secondAbortsReg plainStrReg.offset).value).wb = true → plainStrReg.rd ≠ plainStrReg.rn) ∧
    (sdtAddr secondAbortsReg plainStrReg (regOperand secondAbortsReg plainStrReg.offset).value).addr.toNat % 4 ≠ 0 ∧
    secondAbortsReg.aborted (secondAbortsReg.dataCycle .write false (forcedTran plainStrReg.p plainStrReg.w)
      (sdtAddr secondAbortsReg plainStrReg (regOperand secondAbortsReg plainStrReg.offset).value).addr) = false ∧
    secondAbortsReg.aborted (secondAbortsReg.dataCycle .write false (forcedTran plainStrReg.p plainStrReg.w)
      (nextWord (sdtAddr secondAbortsReg plainStrReg (regOperand secondAbortsReg plainStrReg.offset).value).addr)) = true := by decide
theorem witness_TransfersRefused : condPassed (preImm 1).cond flagged.psr = true ∧ (preImm 1).rd = (preImm 1).rn ∧
    ((preImm 1).p = false ∨ (preImm 1).w = true) ∧ (postReg 1).rd = (postReg 1).rn ∧ ((postReg 1).p = false ∨ (postReg 1).w = true) ∧
    (⟨.al, false, true, false, false, 1, 0⟩ : Bdt).list = 0 ∧ (⟨.al, false, true, false, false, 15, 1⟩ : Bdt).list ≠ 0 ∧
    (blockFirst (at8000 (psrOf 0 true true .irq) [] []) ⟨.al, false, true, false, false, 15, 1⟩).toNat % 4 ≠ 0 := by decide

/-- LDM or STM of R1, R5 and R7 with write-back, from R0 = 0x9010, by its stacking mode. -/
def block (p u : Bool) : Bdt := ⟨.al, p, u, false, true, 0, 0x00A2⟩
/-- A state for it. -/
def blocks : State := user 0 [(0, 0x9010), (1, 0xA1), (5, 0xA5), (7, 0xA7)] words8
/-- R282: where each stacking mode begins and what the base becomes. -/
theorem witness_BlockAddresses : (block false true).p = false ∧ (block false true).u = true ∧
    (blockFirst blocks (block false true), blockFinal blocks (block false true)) = (0x9010, 0x901C) ∧
    (blockFirst blocks (block true true), blockFinal blocks (block true true)) = (0x9014, 0x901C) ∧
    (blockFirst blocks (block false false), blockFinal blocks (block false false)) = (0x9008, 0x9004) ∧
    (blockFirst blocks (block true false), blockFinal blocks (block true false)) = (0x9004, 0x9004) := by decide
theorem witness_LoadMultiple : condPassed (block true true).cond blocks.psr = true ∧ (block true true).list ≠ 0 ∧
    (block true true).list.getLsbD 15 = false ∧ field (blockFirst blocks (block true true)) 0 2 = 0 ∧
    (∀ k, k < listCount (block true true) → blockReadAborts blocks (block true true) k = false) := by decide
/-- LDMIA or STMIA R0, of R13 and R14 with S. -/
def blockUser : Bdt := ⟨.al, false, true, true, false, 0, 0x6000⟩
/-- A state for it in Supervisor mode. -/
def blocksSvc : State := at8000 (psrOf 0 false false .svc) [(0, 0x9010), (13, 0x5D5D), (14, 0x5E5E)] words8
theorem witness_LoadMultiple_userBank : condPassed blockUser.cond blocksSvc.psr = true ∧ blockUser.list ≠ 0 ∧
    blockUser.list.getLsbD 15 = false ∧ field (blockFirst blocksSvc blockUser) 0 2 = 0 ∧
    (∀ k, k < listCount blockUser → blockReadAborts blocksSvc blockUser k = false) ∧ blockUser.s = true ∧ blocksSvc.psr.mode ≠ .user := by decide
theorem witness_StoreMultiple_userBank : blocksSvc.mem.wf = true ∧ condPassed blockUser.cond blocksSvc.psr = true ∧ blockUser.list ≠ 0 ∧
    field (blockFirst blocksSvc blockUser) 0 2 = 0 ∧ (∀ k, k < listCount blockUser → blockWriteAborts blocksSvc blockUser k = false) ∧
    storesUserBank blocksSvc blockUser = true ∧ bankMode (storesUserBank blocksSvc blockUser) blocksSvc = .user := by decide
/-- LDMIA R0!, of all registers with S. -/
def blockAll : Bdt := ⟨.al, false, true, true, true, 0, 0xFFFF⟩
theorem witness_LoadMultipleIntoR15 : condPassed blockAll.cond blocks.psr = true ∧ blockAll.list.getLsbD 15 = true ∧
    field (blockFirst blocks blockAll) 0 2 = 0 ∧ (∀ k, k < listCount blockAll → blockReadAborts blocks blockAll k = false) := by decide
/-- A state in which the cycles of one kind from `a` on abort. -/
def blocksAbort (a : Word) (k : CycleKind) : State := { blocks with aborts := [abortRule a 0xFFFFFFFF k] }
theorem witness_LoadMultipleAborts : condPassed blockAll.cond (blocksAbort 0x9018 .read).psr = true ∧
    field (blockFirst (blocksAbort 0x9018 .read) blockAll) 0 2 = 0 ∧ 2 < listCount blockAll ∧
    blockReadAborts (blocksAbort 0x9018 .read) blockAll 2 = true ∧
    (∀ j, j < 2 → blockReadAborts (blocksAbort 0x9018 .read) blockAll j = false) := by decide
/-- The first transfer aborts, and the last one. -/
theorem witness_LoadMultipleAborts_ends : blockReadAborts (blocksAbort 0x9010 .read) blockAll 0 = true ∧ 15 < listCount blockAll ∧
    blockReadAborts (blocksAbort 0x904C .read) blockAll 15 = true ∧
    (∀ j, j < 15 → blockReadAborts (blocksAbort 0x904C .read) blockAll j = false) := by decide
theorem witness_StoreMultiple : blocks.mem.wf = true ∧ condPassed blockAll.cond blocks.psr = true ∧ blockAll.list ≠ 0 ∧
    field (blockFirst blocks blockAll) 0 2 = 0 ∧ (∀ k, k < listCount blockAll → blockWriteAborts blocks blockAll k = false) := by decide
theorem witness_StoreMultipleAborts : (blocksAbort 0x9018 .write).mem.wf = true ∧ condPassed blockAll.cond (blocksAbort 0x9018 .write).psr = true ∧
    field (blockFirst (blocksAbort 0x9018 .write) blockAll) 0 2 = 0 ∧ 2 < listCount blockAll ∧
    blockWriteAborts (blocksAbort 0x9018 .write) blockAll 2 = true ∧ blockWriteAborts (blocksAbort 0x9018 .write) blockAll 1 = false := by decide

theorem witness_Branches : condPassed (⟨.vs, 0x800000⟩ : Br).cond flagged.psr = true := by decide
theorem witness_SwiAndUndefinedTrap : condPassed (⟨.al, 0⟩ : Swi).cond flagged.psr = true ∧
    condPassed (⟨.al, 0x1000090⟩ : Raw).cond flagged.psr = true := by decide
theorem witness_ReturnsUndoEntries : 1 ≤ (flagged.pc + 1).toNat ∧ 2 ≤ (flagged.pc + 2).toNat ∧
    1 ≤ (({ flagged with pc := 0 } : State).pc + 1).toNat ∧ 2 ≤ (({ flagged with pc := 0 } : State).pc + 2).toNat := by decide

/-- `LDC 1, CR2, [R5, 12]!`. -/
def ldc1 : Cdt := ⟨.al, true, true, false, true, 5, 2, 1, 3⟩
/-- `CDP 1, 10, CR1, CR7, CR2`. -/
def cdp1 : Cdo := ⟨.al, 10, 7, 1, 1, 0, 2⟩
/-- A register transfer of R15 with coprocessor 1. -/
def crt1 : Crt := ⟨.al, 0, 0, 15, 1, 0, 0⟩
theorem witness_CoprocessorAbsentTraps : condPassed (Instr.ldc ldc1).cond flagged.psr = true ∧ offer flagged 1 (encode (.ldc ldc1)) = .absent := by decide
/-- A coprocessor is attached and refuses the word. -/
theorem witness_CoprocessorAbsentTraps_refused :
    offer { flagged with coprocs := flagged.coprocs.set 1 (some ⟨[⟨0xFFFFFFFF, 0, 1⟩], false, [], []⟩) } 1 (encode (.cdp cdp1)) = .absent := by decide
theorem witness_CoprocessorReceives : condPassed cdp1.cond (withCp flagged).psr = true ∧ AcceptedBy (withCp flagged) cdp1.cpNum (.cdp cdp1) cp1 1 ∧
    AcceptedBy (withCp flagged) crt1.cpNum (.mrc crt1) cp1 1 := by unfold AcceptedBy; decide
theorem witness_CoprocessorToRegister : condPassed crt1.cond (withCp flagged).psr = true ∧
    AcceptedBy (withCp flagged) crt1.cpNum (.mcr crt1) cp1 1 := by unfold AcceptedBy; decide
/-- R5 = 0x9000, coprocessor 1 attached. -/
def cpBlocks : State := withCp (user 0 [(5, 0x9000)] words8)
theorem witness_CoprocessorLoads : condPassed ldc1.cond cpBlocks.psr = true ∧ AcceptedBy cpBlocks ldc1.cpNum (.ldc ldc1) cp1 1 ∧
    ((cdtAddr cpBlocks ldc1).wb = true → ldc1.rn ≠ 15) ∧ field (cdtAddr cpBlocks ldc1).addr 0 2 = 0 ∧
    (∀ k, k < 1 → cpBlocks.aborted (cpBlocks.dataCycle .read false (forcedTran ldc1.p ldc1.w) (wordAddr (cdtAddr cpBlocks ldc1).addr k)) = false) := by
  unfold AcceptedBy; decide
theorem witness_CoprocessorStores : cpBlocks.mem.wf = true ∧ condPassed ldc1.cond cpBlocks.psr = true ∧
    AcceptedBy cpBlocks ldc1.cpNum (.stc ldc1) cp1 1 ∧ ((cdtAddr cpBlocks ldc1).wb = true → ldc1.rn ≠ 15) ∧
    field (cdtAddr cpBlocks ldc1).addr 0 2 = 0 ∧
    (∀ k, k < 1 → cpBlocks.aborted (cpBlocks.dataCycle .write false (forcedTran ldc1.p ldc1.w) (wordAddr (cdtAddr cpBlocks ldc1).addr k)) = false) := by
  unfold AcceptedBy; decide
/-- The same with every data read and write aborted. -/
def cpNoData : State := { cpBlocks with aborts := noData.aborts }
theorem witness_CoprocessorTransferAborts : condPassed (Instr.ldc ldc1).cond cpNoData.psr = true ∧
    AcceptedBy cpNoData ldc1.cpNum (.ldc ldc1) cp1 1 ∧ AcceptedBy cpNoData ldc1.cpNum (.stc ldc1) cp1 1 ∧
    ((cdtAddr cpNoData ldc1).wb = true → ldc1.rn ≠ 15) ∧ field (cdtAddr cpNoData ldc1).addr 0 2 = 0 ∧ 0 < 1 ∧
    cpNoData.aborted (cpNoData.dataCycle .read false (forcedTran ldc1.p ldc1.w) (wordAddr (cdtAddr cpNoData ldc1).addr 0)) = true ∧
    cpNoData.aborted (cpNoData.dataCycle .write false (forcedTran ldc1.p ldc1.w) (wordAddr (cdtAddr cpNoData ldc1).addr 0)) = true := by
  unfold AcceptedBy; decide
/-- Coprocessor 1 attached and busy for ever; LDC from R15 with write-back; LDC from an unaligned base. -/
def cpBusy : State := { flagged with coprocs := flagged.coprocs.set 1 (some { cp1 with busy := true }) }
theorem witness_CoprocessorStops : condPassed (Instr.cdp cdp1).cond cpBusy.psr = true ∧
    offer cpBusy 1 (encode (.cdp cdp1)) = .accepted { cp1 with busy := true } 1 ∧
    AcceptedBy cpBlocks 1 (.ldc ⟨.al, false, true, false, false, 15, 2, 1, 0⟩) cp1 1 ∧
    AcceptedBy (withCp (user 0 [(5, 0x9002)] [])) 1 (.stc ldc1) cp1 1 ∧
    (cdtAddr (withCp (user 0 [(5, 0x9002)] [])) ldc1).addr.toNat % 4 ≠ 0 := by unfold AcceptedBy; decide

end Sys2Proof.Tests
end

section
/-! The layout of R15 (R27, R35, R10): what each bit and field of `Psr.r15` and of `pcByteAddr` holds. -/

namespace Sys2Proof.Machine

/-! ### The mode codes -/

/-- Different modes have different codes (R35). -/
theorem Mode.bits_injective : Function.Injective Mode.bits := Function.LeftInverse.injective Mode.ofBits_bits

/-! ### A word cut at bits 26 and 2, as R27 and R10 build theirs -/

theorem field_append_status (hi : BitVec 6) (pc : PcWord) (lo : BitVec 2) : field (hi ++ pc ++ lo) 26 6 = hi := by
  rw [field, BitVec.extractLsb'_append_eq_of_le (by decide), BitVec.extractLsb'_append_eq_of_le (by decide),
    BitVec.extractLsb'_eq_self]

theorem field_append_pc (hi : BitVec 6) (pc : PcWord) (lo : BitVec 2) : field (hi ++ pc ++ lo) 2 24 = pc := by
  rw [field, BitVec.extractLsb'_append_eq_of_le (by decide), BitVec.extractLsb'_append_eq_of_add_le (by decide),
    BitVec.extractLsb'_eq_self]

theorem field_append_mode (hi : BitVec 6) (pc : PcWord) (lo : BitVec 2) : field (hi ++ pc ++ lo) 0 2 = lo := by
  rw [field, BitVec.extractLsb'_append_eq_of_add_le (by decide), BitVec.extractLsb'_eq_self]

/-! ### R15 with the PSR (R27) -/

@[simp] theorem Psr.bitAt_r15 (p : Psr) (pc : PcWord) :
    bitAt (p.r15 pc) 31 = p.n ∧ bitAt (p.r15 pc) 30 = p.z ∧ bitAt (p.r15 pc) 29 = p.c ∧ bitAt (p.r15 pc) 28 = p.v ∧
    bitAt (p.r15 pc) 27 = p.i ∧ bitAt (p.r15 pc) 26 = p.f := by
  simp only [bitAt, Psr.r15, flag, BitVec.getLsbD_append, Nat.reduceLT, Nat.reduceSub, if_false, if_true,
    BitVec.getLsbD_ofBool, decide_true, Bool.true_and, and_self]

@[simp] theorem Psr.field_r15_pc (p : Psr) (pc : PcWord) : field (p.r15 pc) 2 24 = pc := field_append_pc _ pc p.mode.bits

@[simp] theorem Psr.field_r15_mode (p : Psr) (pc : PcWord) : field (p.r15 pc) 0 2 = p.mode.bits :=
  field_append_mode _ pc p.mode.bits

/-- Bits 1:0 of R15 are the code of the PSR's mode and of no other (R35). -/
theorem Psr.field_r15_mode_eq_iff (p : Psr) (pc : PcWord) (m : Mode) : field (p.r15 pc) 0 2 = m.bits ↔ p.mode = m := by
  rw [Psr.field_r15_mode, Mode.bits_injective.eq_iff]

/-! ### R15 without the PSR (R10) -/

@[simp] theorem field_pcByteAddr_status (pc : PcWord) : field (pcByteAddr pc) 26 6 = 0 := field_append_status 0 pc 0

@[simp] theorem field_pcByteAddr_pc (pc : PcWord) : field (pcByteAddr pc) 2 24 = pc := field_append_pc 0 pc 0

@[simp] theorem field_pcByteAddr_mode (pc : PcWord) : field (pcByteAddr pc) 0 2 = 0 := field_append_mode 0 pc 0

/-- Settles O21: `State.r15v` and `State.pcv` are `Psr.r15` and `pcByteAddr` of the PC `k` words ahead, whose layout is above. -/
theorem r15Layout : Obligations.R15Layout := by
  intro s k
  have hmode := s.psr.field_r15_mode_eq_iff (s.pc + k)
  obtain ⟨hn, hz, hc, hv, hi, hf⟩ := s.psr.bitAt_r15 (s.pc + k)
  constructor
  · exact ⟨hn, hz, hc, hv, hi, hf, s.psr.field_r15_pc _, hmode .user, hmode .irq, hmode .firq, hmode .svc⟩
  · exact ⟨field_pcByteAddr_status _, field_pcByteAddr_pc _, field_pcByteAddr_mode _⟩

end Sys2Proof.Machine
end

section
/-! What a write of the PSR changes (R36): the status flags in every mode, the rest by the mode. -/

namespace Sys2Proof.Machine

/-- No mode protects the status flags (R36). -/
theorem Psr.write_statusFlags (p : Psr) (v : Word) :
    (p.write v).n = bitAt v 31 ∧ (p.write v).z = bitAt v 30 ∧ (p.write v).c = bitAt v 29 ∧ (p.write v).v = bitAt v 28 := by
  by_cases hmode : p.mode = .user
  · rw [Psr.write_user p v hmode]
    exact ⟨rfl, rfl, rfl, rfl⟩
  · rw [Psr.write_nonUser p v hmode]
    exact ⟨rfl, rfl, rfl, rfl⟩

/-- User mode keeps the masks and the mode (R36). -/
theorem Psr.write_masksAndMode_user (p : Psr) (v : Word) (hmode : p.mode = .user) :
    (p.write v).i = p.i ∧ (p.write v).f = p.f ∧ (p.write v).mode = .user := by
  rw [Psr.write_user p v hmode]
  exact ⟨p.writeFlags_i v, p.writeFlags_f v, (p.writeFlags_mode v).trans hmode⟩

/-- A non-user mode takes the masks and the mode code from the word (R35, R36). -/
theorem Psr.write_masksAndMode_nonUser (p : Psr) (v : Word) (hmode : p.mode ≠ .user) :
    (p.write v).i = bitAt v 27 ∧ (p.write v).f = bitAt v 26 ∧ (p.write v).mode.bits = field v 0 2 := by
  rw [Psr.write_nonUser p v hmode]
  exact ⟨rfl, rfl, Mode.bits_ofBits (field v 0 2)⟩

/-- Settles O22, by the mode the write is made in: the flags are written in each, the masks and the mode as that mode allows. -/
theorem psrWriteProtection : Obligations.PsrWriteProtection := by
  intro p v
  obtain ⟨hn, hz, hc, hv⟩ := p.write_statusFlags v
  exact ⟨hn, hz, hc, hv, p.write_masksAndMode_user v, p.write_masksAndMode_nonUser v⟩

end Sys2Proof.Machine
end

section
/-! Instructions whose condition fails, and data processing into registers and flags (R142, R160 to R197). -/

namespace Sys2Proof.Machine

/-! ### The condition, for every row -/

/-- Every instruction is conditional: whatever its row does, it does under its condition (R14, R101). -/
theorem exec_eq_ifPassed (i : Instr) (s : State) : ∃ k, exec i s = ifPassed i.cond s k := by
  cases i <;> exact ⟨_, rfl⟩

theorem exec_of_condFailed (i : Instr) (s : State) (hc : condPassed i.cond s.psr = false) : exec i s = .next s.advance := by
  obtain ⟨k, hk⟩ := exec_eq_ifPassed i s
  rw [hk, ifPassed_false _ _ _ hc]

theorem State.advance_keepsMemory (s : State) : KeepsMemory s s.advance := KeepsMemory.of_eq rfl rfl rfl

theorem State.advance_keepsRest (s : State) : KeepsRest s s.advance := KeepsRest.of_eq rfl rfl rfl rfl rfl rfl rfl rfl rfl

theorem State.advance_prefetchCarried (s : State) : PrefetchCarried s s.advance := rfl

/-- Settles O19: the row's own effect is behind its condition, so that only the advance is left. -/
theorem failedConditionIsNoOp : Obligations.FailedConditionIsNoOp := by
  intro i s hc
  exact ⟨s.advance, exec_of_condFailed i s hc, rfl, rfl, rfl, s.advance_keepsMemory, s.advance_keepsRest, s.advance_prefetchCarried⟩

/-! ### The ALU's operations as plain arithmetic (R182 to R187, R190, R191) -/

theorem aluSub_eq : aluSub = fun _ a b _ => plainDifference a b true := by
  funext p a b c; exact addC_not_eq_plainDifference a b true

theorem aluRsb_eq : aluRsb = fun _ a b _ => plainDifference b a true := by
  funext p a b c; exact addC_not_eq_plainDifference b a true

theorem aluAdd_eq : aluAdd = fun _ a b _ => plainSum a b false := by
  funext p a b c; exact addC_eq_plainSum a b false

theorem aluAdc_eq : aluAdc = fun p a b _ => plainSum a b p.c := by
  funext p a b c; exact addC_eq_plainSum a b p.c

theorem aluSbc_eq : aluSbc = fun p a b _ => plainDifference a b p.c := by
  funext p a b c; exact addC_not_eq_plainDifference a b p.c

theorem aluRsc_eq : aluRsc = fun p a b _ => plainDifference b a p.c := by
  funext p a b c; exact addC_not_eq_plainDifference b a p.c

theorem aluCmp_eq : aluCmp = fun _ a b _ => plainDifference a b true := by
  funext p a b c; exact addC_not_eq_plainDifference a b true

theorem aluCmn_eq : aluCmn = fun _ a b _ => plainSum a b false := by
  funext p a b c; exact addC_eq_plainSum a b false

/-! ### The rows of the opcodes -/

/-- The three rows of a result-producing opcode run the templates with the operation `f`. -/
def ResultRow.Runs (r : ResultRow) (f : AluFn) : Prop := ∀ s : State,
  (∀ o, exec (r.imm o) s = dpImm f o s) ∧ (∀ o, exec (r.reg o) s = dpReg f o s) ∧ (∀ o, exec (r.regShift o) s = dpRegShift f o s)

/-- The three rows of a test opcode run the templates with the operation `f`. -/
def TestRow.Runs (r : TestRow) (f : AluFn) : Prop := ∀ s : State,
  (∀ o, exec (r.imm o) s = testImm f o s) ∧ (∀ o, exec (r.reg o) s = testReg f o s) ∧ (∀ o, exec (r.regShift o) s = testRegShift f o s)

theorem ResultRow.Runs.congr {r : ResultRow} {f g : AluFn} (h : r.Runs f) (hfg : f = g) : r.Runs g := hfg ▸ h

theorem TestRow.Runs.congr {r : TestRow} {f g : AluFn} (h : r.Runs f) (hfg : f = g) : r.Runs g := hfg ▸ h

/-- Each result-producing opcode computes what its row of the plain arithmetic says. -/
theorem resultRows_run_fn : ∀ r ∈ resultRows, r.Runs r.fn := by
  simp only [resultRows, List.forall_mem_cons]
  refine ⟨?and, ?eor, ?sub, ?rsb, ?add, ?adc, ?sbc, ?rsc, ?orr, ?mov, ?bic, ?mvn, List.forall_mem_nil _⟩
  case and | eor | orr | mov | bic | mvn => exact fun _ => ⟨fun _ => rfl, fun _ => rfl, fun _ => rfl⟩
  case sub => exact .congr (fun _ => ⟨fun _ => rfl, fun _ => rfl, fun _ => rfl⟩) aluSub_eq
  case rsb => exact .congr (fun _ => ⟨fun _ => rfl, fun _ => rfl, fun _ => rfl⟩) aluRsb_eq
  case add => exact .congr (fun _ => ⟨fun _ => rfl, fun _ => rfl, fun _ => rfl⟩) aluAdd_eq
  case adc => exact .congr (fun _ => ⟨fun _ => rfl, fun _ => rfl, fun _ => rfl⟩) aluAdc_eq
  case sbc => exact .congr (fun _ => ⟨fun _ => rfl, fun _ => rfl, fun _ => rfl⟩) aluSbc_eq
  case rsc => exact .congr (fun _ => ⟨fun _ => rfl, fun _ => rfl, fun _ => rfl⟩) aluRsc_eq

/-- Each test opcode computes what its row of the plain arithmetic says. -/
theorem testRows_run_fn : ∀ r ∈ testRows, r.Runs r.fn := by
  simp only [testRows, List.forall_mem_cons]
  refine ⟨?tst, ?teq, ?cmp, ?cmn, List.forall_mem_nil _⟩
  case tst | teq => exact fun _ => ⟨fun _ => rfl, fun _ => rfl, fun _ => rfl⟩
  case cmp => exact .congr (fun _ => ⟨fun _ => rfl, fun _ => rfl, fun _ => rfl⟩) aluCmp_eq
  case cmn => exact .congr (fun _ => ⟨fun _ => rfl, fun _ => rfl, fun _ => rfl⟩) aluCmn_eq

/-! ### Results and tests into registers and flags -/

/-- Settles O27: the opcode's template with its operation, and what the end of an operation writes. -/
theorem resultOfImmediate : Obligations.ResultOfImmediate := by
  intro r hr o s hc hrd
  obtain ⟨himm, -, -⟩ := resultRows_run_fn r hr s
  rw [himm]
  exact ⟨_, ifPassed_true _ _ _ hc, s.writeResult_spec o.s o.rd _ hrd⟩

/-- Settles O28, as O27 with the register operand. -/
theorem resultOfRegister : Obligations.ResultOfRegister := by
  intro r hr o s hc hrd
  obtain ⟨-, hreg, -⟩ := resultRows_run_fn r hr s
  rw [hreg]
  exact ⟨_, ifPassed_true _ _ _ hc, s.writeResult_spec o.s o.rd _ hrd⟩

/-- Settles O29, as O27 with the operand shifted by a register. -/
theorem resultOfShiftedRegister : Obligations.ResultOfShiftedRegister := by
  intro r hr o s hc hrd
  obtain ⟨-, -, hregShift⟩ := resultRows_run_fn r hr s
  rw [hregShift]
  exact ⟨_, ifPassed_true _ _ _ hc, s.writeResult_spec o.s o.rd _ hrd⟩

/-- Settles O31: in each form the template with the row's operation, and what the end of a test writes. -/
theorem testsSetFlags : Obligations.TestsSetFlags := by
  intro r hr s
  obtain ⟨himm, hreg, hregShift⟩ := testRows_run_fn r hr s
  refine ⟨fun o hc hrd => ?_, fun o hc hrd => ?_, fun o hc hrd => ?_⟩
  · rw [himm]
    exact ⟨_, ifPassed_true _ _ _ hc, s.writeTest_spec o.rd _ hrd⟩
  · rw [hreg]
    exact ⟨_, ifPassed_true _ _ _ hc, s.writeTest_spec o.rd _ hrd⟩
  · rw [hregShift]
    exact ⟨_, ifPassed_true _ _ _ hc, s.writeTest_spec o.rd _ hrd⟩

end Sys2Proof.Machine
end

section
/-! LDR, LDRB, STR and STRB into and from registers (R240 to R263). -/

namespace Sys2Proof.Machine

/-! ### Loads -/

theorem State.readWord_of_not_readAborts (s : State) (forced : Bool) (a : Word) (h : s.readAborts forced a = false) :
    s.readWord forced a = some (s.wordAt a) := by
  rw [State.readWord, h, if_neg Bool.false_ne_true]

theorem State.readByte_of_not_aborted (s : State) (forced : Bool) (a : Word)
    (h : s.aborted (s.dataCycle .read true forced a) = false) : s.readByte forced a = some (s.byteAt a) := by
  rw [State.readByte, h, if_neg Bool.false_ne_true]

/-- The platform makes the double access (D1). -/
theorem refusesUnaligned_eq_false (a : Word) : refusesUnaligned a = false := by simp [refusesUnaligned, Config.unalignedSupport]

/-- A byte in the low end of a word of zeroes is its zero extension (R261). -/
theorem zero_append_byte (b : Byte) : (0#24 ++ b : Word) = b.setWidth 32 := by
  rw [BitVec.setWidth_eq_append (by decide)]
  rfl

/-- A word load whose read does not abort ends with the word at its address. -/
theorem loadWord_passed {α : Type} (o : Sdt α) (off : Word) (s : State) (hc : condPassed o.cond s.psr = true)
    (hab : s.readAborts (forcedTran o.p o.w) (sdtAddr s o off).addr = false) :
    loadWord o off s = .next (finishLoad o s (sdtAddr s o off) (some (s.wordAt (sdtAddr s o off).addr))) := by
  rw [loadWord, ifPassed_true _ _ _ hc, refusesUnaligned_eq_false, if_neg Bool.false_ne_true, s.readWord_of_not_readAborts _ _ hab]

/-- A byte load whose read does not abort ends with the zero-extended byte at its address. -/
theorem loadByte_passed {α : Type} (o : Sdt α) (off : Word) (s : State) (hc : condPassed o.cond s.psr = true)
    (hab : s.aborted (s.dataCycle .read true (forcedTran o.p o.w) (sdtAddr s o off).addr) = false) :
    loadByte o off s = .next (finishLoad o s (sdtAddr s o off) (some (0#24 ++ s.byteAt (sdtAddr s o off).addr))) := by
  rw [loadByte, ifPassed_true _ _ _ hc, s.readByte_of_not_aborted _ _ hab, zero_append_byte, Option.map_some]

/-- Settles O37: both offset forms are the one word load, and the end of a load writes Rd and the base. -/
theorem loadWord_holds : Obligations.LoadWord := by
  intro s
  refine ⟨fun o hc hrd hab => ?_, fun o hc hrd hab => ?_⟩
  · exact ⟨_, loadWord_passed o _ s hc hab, finishLoad_spec o s _ _ hrd⟩
  · exact ⟨_, loadWord_passed o _ s hc hab, finishLoad_spec o s _ _ hrd⟩

/-- Settles O38: both offset forms are the one byte load, and the end of a load writes Rd and the base. -/
theorem loadByte_holds : Obligations.LoadByte := by
  intro s
  refine ⟨fun o hc hrd hab => ?_, fun o hc hrd hab => ?_⟩
  · exact ⟨_, loadByte_passed o _ s hc hab, finishLoad_spec o s _ _ hrd⟩
  · exact ⟨_, loadByte_passed o _ s hc hab, finishLoad_spec o s _ _ hrd⟩

/-! ### Stores -/

/-- What memory holds after a store goes through a later update that keeps memory. -/
theorem HoldsByte.after {s u t : State} {a : Word} {b : Byte} (h : HoldsByte s u a b) (ht : KeepsMemory u t) : HoldsByte s t a b :=
  (ht a).trans h

theorem HoldsWord.after {s u t : State} {a v : Word} (h : HoldsWord s u a v) (ht : KeepsMemory u t) : HoldsWord s t a v := by
  obtain ⟨h0, h1, h2, h3⟩ := h
  exact ⟨h0.after ht, h1.after ht, h2.after ht, h3.after ht⟩

theorem KeepsMemoryOutside.after {a : Word} {n : Nat} {s u t : State} (h : KeepsMemoryOutside a n s u) (ht : KeepsMemory u t) :
    KeepsMemoryOutside a n s t := fun x hx => (ht x).trans (h x hx)

/-- Bytes stored from `a` on leave every other byte as it was. -/
theorem State.storeBytes_keepsOutside (s : State) (a : Word) (bs : List Byte) (h : s.mem.wf = true) :
    KeepsMemoryOutside a bs.length s (s.storeBytes a bs) := fun x hx => s.byteAt_storeBytes_other a x bs h hx

theorem State.holdsByte_storeByte (s : State) (a : Word) (b : Byte) (h : s.mem.wf = true) : HoldsByte s (s.storeByte a b) a b := by
  simpa [HoldsByte] using s.byteAt_storeByte a a b h

/-- Neither the advance nor the base write-back of a store reaches memory. -/
theorem finishStore_keepsMemory {α : Type} (o : Sdt α) (u : State) (a : SdtAddr) : KeepsMemory u (finishStore o ⟨u, false⟩ a) := by
  obtain ⟨-, -, -, hmem, ⟨hinputs, -⟩, -⟩ := writeBack_spec o a u
  obtain ⟨-, -, -, -, hmap, hbegun⟩ := hinputs
  exact KeepsMemory.of_eq hmem hmap hbegun

/-- The end of a store that has written the bytes `bs` at the address: the base and the marks. -/
theorem finishStore_storeBytes {α : Type} (o : Sdt α) (s : State) (a : SdtAddr) (bs : List Byte) :
    StoreLeft o a bs.length s (finishStore o ⟨s.storeBytes a.addr bs, false⟩ a) := by
  obtain ⟨m, p, hu, -⟩ := s.storeBytes_frame a.addr bs
  obtain ⟨h1, h2⟩ := s.storeBytes_marks a.addr bs
  rw [hu] at h1 h2 ⊢
  exact (finishStore_spec o s _ a bs.length m p rfl h1 h2).1

/-- The refusal of R245 does not meet a store that keeps its data register and its written-back base apart. -/
theorem storesBase_eq_false {wb : Bool} {rd rn : RegNum} (h : wb = true → rd ≠ rn) : (wb && rd == rn) = false := by
  cases wb
  · rfl
  · simpa using h rfl

/-- A word store that aborts no cycle ends with the four bytes written. -/
theorem storeWord_passed {α : Type} (o : Sdt α) (off : Word) (s : State) (hc : condPassed o.cond s.psr = true)
    (hne : (sdtAddr s o off).wb = true → o.rd ≠ o.rn)
    (hab : wordStoreAborts s (forcedTran o.p o.w) (sdtAddr s o off).addr = false) :
    storeWord o off s = .next (finishStore o
      ⟨s.storeBytes (sdtAddr s o off).addr (bytesOfWord (sdtStoreValue o s)), false⟩ (sdtAddr s o off)) := by
  rw [storeWord, ifPassed_true _ _ _ hc, storesBase_eq_false hne, refusesUnaligned_eq_false, if_neg Bool.false_ne_true,
    if_neg Bool.false_ne_true, s.writeWord_ok _ _ _ hab]

/-- A byte store that does not abort ends with the one byte written. -/
theorem storeByteOf_passed {α : Type} (o : Sdt α) (off : Word) (s : State) (hc : condPassed o.cond s.psr = true)
    (hne : (sdtAddr s o off).wb = true → o.rd ≠ o.rn)
    (hab : s.aborted (s.dataCycle .write true (forcedTran o.p o.w) (sdtAddr s o off).addr) = false) :
    storeByteOf o off s = .next (finishStore o
      ⟨s.storeBytes (sdtAddr s o off).addr [field (sdtStoreValue o s) 0 8], false⟩ (sdtAddr s o off)) := by
  rw [storeByteOf, ifPassed_true _ _ _ hc, storesBase_eq_false hne, if_neg Bool.false_ne_true, State.writeByte, hab,
    if_neg Bool.false_ne_true]
  rfl

/-- A word store that aborts no cycle, in either offset form: the word at its address, no other byte, the base and the marks. -/
theorem storeWord_spec {α : Type} (o : Sdt α) (off : Word) (s : State) (hwf : s.mem.wf = true) (hc : condPassed o.cond s.psr = true)
    (hne : (sdtAddr s o off).wb = true → o.rd ≠ o.rn)
    (hab : wordStoreAborts s (forcedTran o.p o.w) (sdtAddr s o off).addr = false) :
    ∃ t, storeWord o off s = .next t ∧ HoldsWord s t (sdtAddr s o off).addr (sdtStoreValue o s) ∧
      KeepsMemoryOutside (sdtAddr s o off).addr 4 s t ∧ StoreLeft o (sdtAddr s o off) 4 s t := by
  have hmem := finishStore_keepsMemory o (s.storeBytes (sdtAddr s o off).addr (bytesOfWord (sdtStoreValue o s))) (sdtAddr s o off)
  exact ⟨_, storeWord_passed o off s hc hne hab, (s.holdsWord_storeBytes _ _ hwf).after hmem,
    (s.storeBytes_keepsOutside _ (bytesOfWord (sdtStoreValue o s)) hwf).after hmem, finishStore_storeBytes o s _ _⟩

/-- A byte store that does not abort, in either offset form: the byte at its address, no other byte, the base and the marks. -/
theorem storeByteOf_spec {α : Type} (o : Sdt α) (off : Word) (s : State) (hwf : s.mem.wf = true) (hc : condPassed o.cond s.psr = true)
    (hne : (sdtAddr s o off).wb = true → o.rd ≠ o.rn)
    (hab : s.aborted (s.dataCycle .write true (forcedTran o.p o.w) (sdtAddr s o off).addr) = false) :
    ∃ t, storeByteOf o off s = .next t ∧ HoldsByte s t (sdtAddr s o off).addr (field (sdtStoreValue o s) 0 8) ∧
      KeepsMemoryOutside (sdtAddr s o off).addr 1 s t ∧ StoreLeft o (sdtAddr s o off) 1 s t := by
  have hmem := finishStore_keepsMemory o (s.storeBytes (sdtAddr s o off).addr [field (sdtStoreValue o s) 0 8]) (sdtAddr s o off)
  exact ⟨_, storeByteOf_passed o off s hc hne hab, (s.holdsByte_storeByte _ _ hwf).after hmem,
    (s.storeBytes_keepsOutside _ [field (sdtStoreValue o s) 0 8] hwf).after hmem, finishStore_storeBytes o s _ [_]⟩

/-- Settles O40: both offset forms are the one word store. -/
theorem storeWord_holds : Obligations.StoreWord := by
  intro s hwf
  exact ⟨fun o hc hne hab => storeWord_spec o _ s hwf hc hne hab, fun o hc hne hab => storeWord_spec o _ s hwf hc hne hab⟩

/-- Settles O41: both offset forms are the one byte store. -/
theorem storeByte_holds : Obligations.StoreByte := by
  intro s hwf
  exact ⟨fun o hc hne hab => storeByteOf_spec o _ s hwf hc hne hab, fun o hc hne hab => storeByteOf_spec o _ s hwf hc hne hab⟩

end Sys2Proof.Machine
end

section
/-! The base write-back, LDM without R15 and STM (R280 to R301). -/

namespace Sys2Proof.Machine

/-! ### The base write-back of a transfer -/

/-- The registers after a base write-back, if there is one. -/
def Regs.writeIf (r : Regs) (wb : Bool) (m : Mode) (i : RegNum) (v : Word) : Regs := if wb then r.write m i v else r

theorem Regs.read_writeIf_same (r : Regs) {wb : Bool} (m : Mode) {i : RegNum} (v : Word) (hwb : wb = true) (hi : i ≠ 15) :
    (r.writeIf wb m i v).read m i = v := by
  rw [Regs.writeIf, if_pos hwb, Regs.read_write_same _ _ _ _ hi]

theorem Regs.get_writeIf_other (r : Regs) (wb : Bool) (m : Mode) (i : RegNum) (v : Word) (p : PhysReg)
    (h : wb = true → phys m i ≠ some p) : (r.writeIf wb m i v).get p = r.get p := by
  cases wb
  · rfl
  · exact Regs.get_write_other r m i v p (h rfl)

/-- A base write-back keeps every other register. -/
theorem KeepsRegs.of_writeIf {m : Mode} {s t : State} {wb : Bool} {i : RegNum} {v : Word} (h : t.regs = s.regs.writeIf wb m i v) :
    KeepsRegs m (if wb then [i] else []) s t := fun p hp => by
  rw [h]
  exact Regs.get_writeIf_other _ _ _ _ _ _ fun hwb => hp i (by simp [hwb])

/-- The base of a block transfer that is written back is not R15 (R290). -/
theorem blockWb_rn (o : Bdt) (h : blockWb o = true) : o.rn ≠ 15 := by
  rw [blockWb, Bool.and_eq_true, decide_eq_true_eq] at h
  exact h.2

/-- A transfer of a register list that is not empty from an aligned address has a meaning (R285, R286). -/
theorem blockRefusal_eq_none (s : State) (o : Bdt) (hl : o.list ≠ 0) (ha : field (blockFirst s o) 0 2 = 0) :
    blockRefusal s o = none := by
  rw [blockRefusal, if_neg (listedRegs_ne_nil _ hl), aligned_eq, if_pos (decide_eq_true ((field_two_eq_zero _).1 ha))]

/-! ### LDM -/

/-- The listed registers of a load multiple, each with the word at its place (R280, R281). -/
def blockLoads (s : State) (o : Bdt) : List (RegNum × Word) :=
  (listedRegs o.list).mapIdx fun k r => (r, s.wordAt (wordAddr (blockFirst s o) k))

theorem map_fst_blockLoads (s : State) (o : Bdt) : (blockLoads s o).map (·.1) = listedRegs o.list := map_fst_mapIdx _ _

theorem mem_blockLoads (s : State) (o : Bdt) {k : Nat} {r : RegNum} (h : (listedRegs o.list)[k]? = some r) :
    (r, s.wordAt (wordAddr (blockFirst s o) k)) ∈ blockLoads s o := by
  refine List.mem_of_getElem? (i := k) ?_
  simp [blockLoads, List.getElem?_mapIdx, h]

theorem fst_mem_listedRegs (s : State) (o : Bdt) {e : RegNum × Word} (he : e ∈ blockLoads s o) : e.1 ∈ listedRegs o.list := by
  rw [← map_fst_blockLoads s o]
  exact List.mem_map_of_mem he

/-- An aligned read whose one cycle does not abort gives the word (R67). -/
theorem State.readWord_of_aligned (s : State) (forced : Bool) (a : Word) (hal : a.toNat % 4 = 0)
    (hab : s.aborted (s.dataCycle .read false forced a) = false) : s.readWord forced a = some (s.wordAt a) := by
  rw [s.readWord_aligned _ _ hal, hab, if_neg Bool.false_ne_true]

/-- Aligned reads that do not abort give every listed register its word. -/
theorem readBlock_eq_blockLoads (s : State) (o : Bdt) (ha : field (blockFirst s o) 0 2 = 0)
    (hab : ∀ k, k < listCount o → blockReadAborts s o k = false) :
    untilAbort (readBlock s (blockFirst s o) 0 (listedRegs o.list)) = (blockLoads s o, false) := by
  rw [untilAbort_readBlock s _ 0 _ fun k hk => ?_]
  · simp only [Nat.zero_add, blockLoads]
  · rw [Nat.zero_add]
    exact s.readWord_of_aligned _ _ (wordAddr_aligned _ _ ((field_two_eq_zero _).1 ha)) (hab k hk)

theorem loadedR15_blockLoads (s : State) (o : Bdt) (h : o.list.getLsbD 15 = false) : loadedR15 (blockLoads s o) = none := by
  refine loadedR15_eq_none _ fun e he h15 => ?_
  have hmem := (mem_listedRegs _ _).1 (fst_mem_listedRegs s o he)
  rw [h15] at hmem
  exact absurd (h.symm.trans hmem) Bool.false_ne_true

/-- A load without R15 uses the user bank by the S bit and the mode (R287, R293). -/
theorem loadsUserBank_eq (s : State) (o : Bdt) (h : o.list.getLsbD 15 = false) :
    loadsUserBank s o = decide (o.s = true ∧ s.psr.mode ≠ .user) := by
  rw [loadsUserBank, h, Bool.decide_and, Bool.decide_eq_true, Bool.not_false, Bool.and_true]

/-- The base write-back and then the loads: every listed register gets its word, and the base is left unless it was loaded (R288). -/
theorem loadRegs_after_base (s : State) (o : Bdt) (u : Bool) :
    ∃ regs, (if blockWb o then s.setXIn u o.rn (blockFinal s o) else s).loadRegs u (blockLoads s o) = { s with regs := regs } ∧
      BlockLoaded s { s with regs := regs } o (bankMode u s) := by
  have hbased : (if blockWb o then s.setXIn u o.rn (blockFinal s o) else s) =
      { s with regs := s.regs.writeIf (blockWb o) (bankMode u s) o.rn (blockFinal s o) } := by
    cases blockWb o <;> rfl
  rw [hbased]
  have hbase := fun p => s.regs.get_writeIf_other (blockWb o) (bankMode u s) o.rn (blockFinal s o) p
  have hread := fun hwb => s.regs.read_writeIf_same (bankMode u s) (blockFinal s o) hwb (blockWb_rn o hwb)
  generalize s.regs.writeIf (blockWb o) (bankMode u s) o.rn (blockFinal s o) = based at *
  obtain ⟨regs, hloaded, hother⟩ := State.loadRegs_frame { s with regs := based } u (blockLoads s o)
  replace hother : ∀ p, (∀ r ∈ listedRegs o.list, phys (bankMode u s) r ≠ some p) → regs.get p = based.get p :=
    fun p hp => hother p fun e he => hp e.1 (fst_mem_listedRegs s o he)
  refine ⟨regs, hloaded, fun k r hk hr => ?word, fun hwb hnot => ?base, fun p hp => ?others, KeepsMemory.of_eq rfl rfl rfl⟩
  case word =>
    have hword := State.loadRegs_read { s with regs := based } u (blockLoads s o) r _ hr (mem_blockLoads s o hk)
      (by rw [map_fst_blockLoads]; exact listedRegs_nodup _)
    rw [hloaded] at hword
    exact hword
  case base =>
    rw [← hread hwb]
    obtain ⟨p, hp⟩ := phys_isSome (bankMode u s) o.rn (blockWb_rn o hwb)
    simp only [Regs.read, hp]
    refine hother p fun r hr hrp => ?_
    have hrn : o.rn = r := (phys_injective _ _ _ (blockWb_rn o hwb)).1 (hp.trans hrp.symm)
    rw [← hrn, mem_listedRegs, hnot] at hr
    exact Bool.false_ne_true hr
  case others =>
    rw [hother p fun r hr => hp r (by split <;> simp [hr]), hbase p fun hwb => hp o.rn (by simp [hwb])]

/-- Settles O45: the reads give each listed register its word, the base goes first so that a loaded one wins, and the end of a load
without R15 is the advance. -/
theorem loadMultiple : Obligations.LoadMultiple := by
  intro o s hc hl h15 ha hab
  obtain ⟨regs, hloaded, hspec⟩ := loadRegs_after_base s o (loadsUserBank s o)
  have hexec : exec (.ldm o) s = .next (finishLdm s o (blockLoads s o)) := by
    show execLdm o s = _
    rw [execLdm, ifPassed_true _ _ _ hc, blockRefusal_eq_none s o hl ha]
    simp only [readBlock_eq_blockLoads s o ha hab]
  have hfinish : finishLdm s o (blockLoads s o) = ({ s with regs := regs } : State).advance.noteUserLoad (loadsUserBank s o) := by
    simp only [finishLdm, loadedR15_blockLoads s o h15, hloaded]
  refine ⟨_, hexec, ?_⟩
  rw [hfinish]
  rw [loadsUserBank_eq s o h15] at hspec ⊢
  refine ⟨?_, rfl, rfl, ⟨rfl, rfl, rfl, rfl, rfl, rfl⟩, rfl, rfl, ?_, rfl⟩
  · simp only [bankMode, decide_eq_true_eq] at hspec
    exact hspec
  · simp only [State.noteUserLoad_hazard, decide_eq_true_eq]
    rfl

/-! ### Word stores at rising addresses -/

/-- An aligned store whose one cycle does not abort writes the four bytes (R70). -/
theorem State.writeWord_of_aligned (s : State) (forced : Bool) (a v : Word) (hal : a.toNat % 4 = 0)
    (hab : s.aborted (s.dataCycle .write false forced a) = false) :
    s.writeWord forced a v = ⟨s.storeBytes a (bytesOfWord v), false⟩ := by
  rw [s.writeWord_aligned _ _ _ hal, hab, if_neg Bool.false_ne_true]

/-- A word store whose cycles do not abort does not abort either, however far it runs. -/
theorem State.writeWords_aborted (forced : Bool) (first : Word) (hal : first.toNat % 4 = 0) (vs : List Word) :
    ∀ (s : State) (i : Nat),
      (∀ k, k < vs.length → s.aborted (s.dataCycle .write false forced (wordAddr first (i + k))) = false) →
      (s.writeWords forced first i vs).aborted = false := by
  induction vs with
  | nil => exact fun _ _ _ => rfl
  | cons v vs ih =>
    intro s i hab
    have hhead := s.writeWord_of_aligned forced _ v (wordAddr_aligned _ _ hal) (hab 0 (by simp))
    rw [Nat.add_zero] at hhead
    obtain ⟨m, p, hframe, -⟩ := s.storeBytes_frame (wordAddr first i) (bytesOfWord v)
    simp only [State.writeWords, hhead, Bool.false_or]
    refine ih _ _ fun k hk => ?_
    rw [State.aborted_dataCycle_of_eq (s := s) (by rw [hframe]) (by rw [hframe]) (by rw [hframe]) (by rw [hframe]),
      show i + 1 + k = i + (k + 1) by omega]
    exact hab (k + 1) (by simpa using hk)

/-- What a store of the words `vs` from `first` on has done to memory and to the marks on the prefetched words, when no cycle aborted
(the words are said where they do not run over themselves). -/
structure WordsStored (s u : State) (first : Word) (vs : List Word) : Prop where
  frame : ∃ m p, u = { s with mem := m, pipe := p }
  words : 4 * vs.length ≤ busSize s → ∀ k v, vs[k]? = some v → HoldsWord s u (wordAddr first k) v
  outside : KeepsMemoryOutside first (4 * vs.length) s u
  mark1 : u.pipe.stale1 = true ↔ s.pipe.stale1 = true ∨ ReachesWordAhead s first (4 * vs.length) 1
  mark2 : u.pipe.stale2 = true ↔ s.pipe.stale2 = true ∨ ReachesWordAhead s first (4 * vs.length) 2

theorem wordAddr_zero (a : Word) : wordAddr a 0 = a := by simp [wordAddr]

theorem State.writeWords_stored (s : State) (forced : Bool) (first : Word) (vs : List Word) (hwf : s.mem.wf = true)
    (hal : first.toNat % 4 = 0)
    (hab : ∀ k, k < vs.length → s.aborted (s.dataCycle .write false forced (wordAddr first k)) = false) :
    WordsStored s (s.writeWords forced first 0 vs).state first vs := by
  have hab0 : ∀ k, k < vs.length → s.aborted (s.dataCycle .write false forced (wordAddr first (0 + k))) = false := by
    simpa only [Nat.zero_add] using hab
  obtain ⟨m, p, hframe, -⟩ := s.writeWords_frame forced first 0 vs
  obtain ⟨hmark1, hmark2⟩ := State.writeWords_marks forced first hal vs s 0 hab0
  rw [wordAddr_zero] at hmark1 hmark2
  refine ⟨⟨m, p, hframe⟩, fun hsize k v hk => ?words, fun x hx => ?outside, hmark1, hmark2⟩
  case words =>
    obtain ⟨-, hword, -⟩ := State.writeWords_spec forced first hal vs s 0 hwf (by rwa [Nat.zero_add])
    have hlen : k < vs.length := (List.getElem?_eq_some_iff.1 hk).1
    simpa only [Nat.zero_add] using hword k v hk (hab0 k hlen)
  case outside =>
    refine s.writeWords_outside forced first 0 vs x hwf fun j k hj hk => ?_
    rw [wordAddr_add]
    exact hx _ (by omega)

/-- The marks a store leaves, after the advance (R40, R91). -/
theorem WordsStored.prefetchMarked {s u t : State} {first : Word} {vs : List Word} {n : Nat} (h : WordsStored s u first vs)
    (hn : vs.length = n) (ht : t.pipe = u.pipe.shift) : PrefetchMarked s t first (4 * n) := by
  rw [PrefetchMarked, ht, ← hn]
  exact ⟨h.mark1, h.mark2, rfl⟩

/-! ### STM -/

/-- A store multiple's base write-back is one of the bank it uses (R292, R296). -/
theorem stmBase_eq (s u : State) (o : Bdt) :
    stmBase s o u = { u with regs := u.regs.writeIf (blockWb o) (bankMode (storesUserBank s o) u) o.rn (blockFinal s o) } := by
  rw [stmBase]
  cases blockWb o <;> rfl

/-- At most sixteen words do not run over themselves. -/
theorem listCount_le_busSize (s : State) (o : Bdt) : 4 * listCount o ≤ busSize s := by
  have hlen : listCount o ≤ 16 := listedRegs_length_le o.list
  unfold busSize
  split <;> omega

/-- The value of each place is the one R288, R289 and R292 send. -/
theorem blockSends_stmValue (s : State) (o : Bdt) (k : Nat) (r : RegNum) : BlockSends s o k r (stmValue s o k r) := by
  have hwb : r ≠ 15 → (r = o.rn ∧ blockWb o = true ∧ 0 < k ↔ r = o.rn ∧ o.w = true ∧ 0 < k) := fun hr =>
    and_congr_right fun hrn => by simp [blockWb, ← hrn, show ¬ r = 15#4 from hr]
  by_cases hr : r = 15
  · rw [BlockSends, stmValue, if_pos hr, if_pos hr]
    rfl
  · rw [BlockSends, stmValue, if_neg hr, if_neg hr]
    simp only [hwb hr]
    split <;> rfl

/-- Settles O48: the words are the values R288, R289 and R292 send, no cycle aborts, and besides them only the base is written. -/
theorem storeMultiple : Obligations.StoreMultiple := by
  intro o s hwf hc hl ha hab bank
  have hlen : (stmValues s o 0 (listedRegs o.list)).length = listCount o := stmValues_length s o 0 _
  have hal := (field_two_eq_zero _).1 ha
  have hstored := s.writeWords_stored false (blockFirst s o) (stmValues s o 0 (listedRegs o.list)) hwf hal
    fun k hk => hab k (hlen ▸ hk)
  have haborted := State.writeWords_aborted false (blockFirst s o) hal (stmValues s o 0 (listedRegs o.list)) s 0
    fun k hk => by rw [Nat.zero_add]; exact hab k (hlen ▸ hk)
  have hexec : exec (.stm o) s =
      .next (stmBase s o (s.writeWords false (blockFirst s o) 0 (stmValues s o 0 (listedRegs o.list))).state).advance := by
    show execStm o s = _
    rw [execStm, ifPassed_true _ _ _ hc, blockRefusal_eq_none s o hl ha]
    simp only [haborted, Bool.false_eq_true, if_false]
  refine ⟨_, hexec, ?_⟩
  generalize (s.writeWords false (blockFirst s o) 0 (stmValues s o 0 (listedRegs o.list))).state = u at *
  obtain ⟨m, p, rfl⟩ := hstored.frame
  rw [stmBase_eq]
  refine ⟨fun k r hk => ?words, (hlen ▸ hstored.outside).after (KeepsMemory.of_eq rfl rfl rfl), fun hwb => ?base, KeepsRegs.of_writeIf rfl,
    rfl, rfl, ⟨⟨rfl, rfl, rfl, rfl, rfl, rfl⟩, rfl, rfl, rfl⟩, hstored.prefetchMarked hlen rfl⟩
  case words =>
    refine ⟨stmValue s o k r, blockSends_stmValue s o k r,
      (hstored.words (by rw [hlen]; exact listCount_le_busSize s o) k _ ?_).after (KeepsMemory.of_eq rfl rfl rfl)⟩
    rw [stmValues_getElem?, hk, Nat.zero_add]
    rfl
  case base => exact Regs.read_writeIf_same _ _ _ hwb (blockWb_rn o hwb)

end Sys2Proof.Machine
end

section
/-! The coprocessor transfers LDC and STC (R350 to R355). -/

namespace Sys2Proof.Machine

/-! ### Acceptance, the base and the coprocessor -/

/-- An accepted coprocessor instruction whose coprocessor is ready has its own effect (R343). -/
theorem whenAccepted_accepted {c : Cond} {s : State} {cpNum : BitVec 4} {i : Instr} {cp : Coproc} {n : Nat} (k : Coproc → Nat → Result)
    (hc : condPassed c s.psr = true) (h : AcceptedBy s cpNum i cp n) : whenAccepted c s cpNum (encode i) k = k cp n := by
  obtain ⟨hoffer, hready⟩ := h
  simp [whenAccepted, ifPassed_true _ _ _ hc, hoffer, hready]

/-- A transfer from an aligned address that does not write R15 back has a meaning (R74, R352). -/
theorem cdtRefusal_eq_none (s : State) (o : Cdt) (hwb : (cdtAddr s o).wb = true → o.rn ≠ 15)
    (ha : field (cdtAddr s o).addr 0 2 = 0) : cdtRefusal s o = none := by
  rw [cdtRefusal, if_neg fun h => hwb h.2 h.1, aligned_eq, if_pos (decide_eq_true ((field_two_eq_zero _).1 ha))]

theorem cdtWriteBack_eq (o : Cdt) (a : SdtAddr) (s : State) :
    cdtWriteBack o a s = { s with regs := s.regs.writeIf a.wb s.psr.mode o.rn a.modified } := by
  rw [cdtWriteBack]
  cases a.wb <;> rfl

/-- A base write-back, and nothing else, from the registers and the PSR that were. -/
theorem CoprocBase.of_writeIf {o : Cdt} {a : SdtAddr} {s t : State} (hwb : a.wb = true → o.rn ≠ 15)
    (hregs : t.regs = s.regs.writeIf a.wb s.psr.mode o.rn a.modified) (hpsr : t.psr = s.psr) : CoprocBase o a s t := by
  refine ⟨fun h => ?_, KeepsRegs.of_writeIf hregs, hpsr⟩
  rw [State.x, hregs, hpsr]
  exact Regs.read_writeIf_same _ _ _ h (hwb h)

theorem State.coprocs_setCoproc_same (s : State) (k : BitVec 4) (c : Coproc) : (s.setCoproc k c).coprocs[k.toFin] = some c :=
  Vector.getElem_set_self _

theorem State.setCoproc_keepsOthers (s : State) (k : BitVec 4) (c : Coproc) : KeepsOtherCoprocs k s (s.setCoproc k c) :=
  fun j hj => Vector.getElem_set_ne k.toFin.isLt j.isLt fun e => hj (Fin.ext e.symm)

/-! ### The transfers -/

/-- Aligned reads that do not abort give the words at rising addresses (R351, R354). -/
theorem readWords_eq_map (s : State) (forced : Bool) (first : Word) (hal : first.toNat % 4 = 0) (n : Nat) :
    ∀ i, (∀ k, k < n → s.aborted (s.dataCycle .read false forced (wordAddr first (i + k))) = false) →
      readWords s forced first i n = ((List.range n).map fun k => s.wordAt (wordAddr first (i + k))).map some := by
  induction n with
  | zero => exact fun _ _ => rfl
  | succ n ih =>
    intro i hab
    have hhead := s.readWord_of_aligned forced _ (wordAddr_aligned _ _ hal) (hab 0 (by omega))
    rw [Nat.add_zero] at hhead
    have htail := ih (i + 1) fun k hk => by
      rw [show i + 1 + k = i + (k + 1) by omega]
      exact hab (k + 1) (by omega)
    simp [readWords, hhead, htail, List.range_succ_eq_map, Function.comp_def, Nat.add_assoc, Nat.add_comm 1]

/-- Settles O57: no read aborts, so that the coprocessor is handed the words at rising addresses, and only the base is written. -/
theorem coprocessorLoads : Obligations.CoprocessorLoads := by
  intro s cp n o hc hacc a hwb ha hab
  have hwords := readWords_eq_map s (forcedTran o.p o.w) a.addr ((field_two_eq_zero _).1 ha) n 0
    fun k hk => by rw [Nat.zero_add]; exact hab k hk
  simp only [Nat.zero_add] at hwords
  have hexec : exec (.ldc o) s = .next (cdtWriteBack o a (s.setCoproc o.cpNum (cp.hand
      (.loaded (encode (.ldc o)) ((List.range n).map fun k => s.wordAt (wordAddr a.addr k)))))).advance := by
    refine (whenAccepted_accepted _ hc hacc).trans ?_
    simp only [cdtRefusal_eq_none s o hwb ha]
    rw [hwords, if_neg (by simp), List.filterMap_map, Function.id_comp, List.filterMap_some]
    rfl
  refine ⟨_, hexec, ?_⟩
  rw [cdtWriteBack_eq]
  exact ⟨CoprocBase.of_writeIf hwb rfl rfl,
    ⟨rfl, KeepsMemory.of_eq rfl rfl rfl, ⟨rfl, rfl, rfl, rfl, rfl, rfl⟩, rfl, rfl⟩,
    s.coprocs_setCoproc_same o.cpNum _, s.setCoproc_keepsOthers o.cpNum _⟩

/-- Settles O58: no write aborts, so that the supplied words stand in memory, and besides them the base and the coprocessor change. -/
theorem coprocessorStores : Obligations.CoprocessorStores := by
  intro s cp n o hwf hc hacc a hwb ha hab
  have hlen := supplied_length s cp n
  have hal := (field_two_eq_zero _).1 ha
  have hstored := (s.drawn n).writeWords_stored (forcedTran o.p o.w) a.addr (supplied s cp n) hwf hal fun k hk => hab k (hlen ▸ hk)
  have haborted := State.writeWords_aborted (forcedTran o.p o.w) a.addr hal (supplied s cp n) (s.drawn n) 0
    fun k hk => by rw [Nat.zero_add]; exact hab k (hlen ▸ hk)
  have hexec : exec (.stc o) s = .next (cdtWriteBack o a
      (((s.drawn n).writeWords (forcedTran o.p o.w) a.addr 0 (supplied s cp n)).state.setCoproc o.cpNum
        ((cp.dropOut n).hand (.stored (encode (.stc o)) (supplied s cp n))))).advance := by
    refine (whenAccepted_accepted _ hc hacc).trans ?_
    simp only [cdtRefusal_eq_none s o hwb ha]
    exact if_neg (by rw [haborted]; decide)
  refine ⟨_, supplied s cp n, hexec, hlen, fun k v hk hv => supplied_getElem? s cp n k v hk hv, ?_⟩
  generalize ((s.drawn n).writeWords (forcedTran o.p o.w) a.addr 0 (supplied s cp n)).state = u at *
  obtain ⟨m, p, rfl⟩ := hstored.frame
  rw [cdtWriteBack_eq]
  exact ⟨fun hsize k v hk => (hstored.words (hlen.symm ▸ hsize) k v hk).after (KeepsMemory.of_eq rfl rfl rfl),
    (hlen ▸ hstored.outside).after (KeepsMemory.of_eq rfl rfl rfl), CoprocBase.of_writeIf hwb rfl rfl, rfl,
    ⟨rfl, rfl, rfl, rfl, rfl, rfl⟩, rfl, hstored.prefetchMarked hlen rfl,
    State.coprocs_setCoproc_same _ o.cpNum _, State.setCoproc_keepsOthers _ o.cpNum _⟩

end Sys2Proof.Machine
end

section
/-! The condition codes (R140), and B and BL (R145, R146). -/

namespace Sys2Proof.Machine

/-! ### When a condition of more than one flag is true (R140) -/

theorem condPassed_hi_iff (p : Psr) : condPassed .hi p = true ↔ p.c = true ∧ p.z = false := by
  rw [condPassed, Bool.and_eq_true_iff, Bool.not_eq_true']

theorem condPassed_ls_iff (p : Psr) : condPassed .ls p = true ↔ p.c = false ∨ p.z = true := by
  rw [condPassed, Bool.or_eq_true_iff, Bool.not_eq_true']

theorem condPassed_ge_iff (p : Psr) : condPassed .ge p = true ↔ p.n = p.v := beq_iff_eq

theorem condPassed_lt_iff (p : Psr) : condPassed .lt p = true ↔ p.n ≠ p.v := bne_iff_ne

theorem condPassed_gt_iff (p : Psr) : condPassed .gt p = true ↔ p.z = false ∧ p.n = p.v := by
  rw [condPassed, Bool.and_eq_true_iff, Bool.not_eq_true', beq_iff_eq]

theorem condPassed_le_iff (p : Psr) : condPassed .le p = true ↔ p.z = true ∨ p.n ≠ p.v := by
  rw [condPassed, Bool.or_eq_true_iff, bne_iff_ne]

/-- Settles O18, code by code: one flag or its negation up to 7, two or three flags from 8 to 13, then AL and NV. -/
theorem conditionTable : Obligations.ConditionTable := by
  intro p
  have hnot (b : Bool) : (!b) = true ↔ b = false := iff_of_eq b.not_eq_true'
  exact ⟨.rfl, hnot p.z, .rfl, hnot p.c, .rfl, hnot p.n, .rfl, hnot p.v,
    condPassed_hi_iff p, condPassed_ls_iff p, condPassed_ge_iff p, condPassed_lt_iff p, condPassed_gt_iff p, condPassed_le_iff p,
    rfl, rfl⟩

/-! ### The target of a branch (R117, R145) -/

/-- A word offset added to a byte address adds to its PC field, modulo 2^24 words. -/
theorem pcField_add_wordOffset (a b : Word) : pcField (a + b <<< 2) = pcField a + b.setWidth 24 := by
  apply BitVec.eq_of_toNat_eq
  simp only [pcField, field, BitVec.extractLsb'_toNat, BitVec.toNat_add, BitVec.toNat_shiftLeft, BitVec.toNat_setWidth,
    Nat.shiftRight_eq_div_pow, Nat.shiftLeft_eq]
  omega

/-- The sign extension of a branch offset to a word leaves its 24 bits as they are. -/
theorem setWidth_signExtend_offset (off : BitVec 24) : (off.signExtend 32).setWidth 24 = off := by
  ext i hi
  have hword : i < 32 := by omega
  rw [BitVec.getElem_setWidth, BitVec.getLsbD_signExtend, if_pos hi, decide_eq_true hword, Bool.true_and,
    BitVec.getLsbD_eq_getElem hi]

theorem pcField_branchTarget (s : State) (off : BitVec 24) : pcField (branchTarget s off) = s.pc + 2 + off := by
  rw [branchTarget, pcField_add_wordOffset, setWidth_signExtend_offset]
  exact congrArg (· + off) (field_pcByteAddr_pc (s.pc + 2))

/-! ### B and BL -/

theorem exec_b_passed (o : Br) (s : State) (hc : condPassed o.cond s.psr = true) :
    exec (.b o) s = .next (s.branchTo (branchTarget s o.offset24)) := ifPassed_true _ _ _ hc

theorem exec_bl_passed (o : Br) (s : State) (hc : condPassed o.cond s.psr = true) :
    exec (.bl o) s = .next ((s.setX 14 (s.r15v 1)).branchTo (branchTarget s o.offset24)) := ifPassed_true _ _ _ hc

/-- Settles O51: the target's PC field is the sum modulo 2^24 words, and only the link of BL writes a register. -/
theorem branches : Obligations.Branches := by
  intro o s hc
  have htarget := pcField_branchTarget s o.offset24
  have hlink : (s.setX 14 (s.r15v 1)).x 14 = s.r15v 1 := State.x_setX_same _ _ _ (by decide)
  constructor
  · exact ⟨_, exec_b_passed o s hc, htarget, rfl, rfl, rfl, KeepsMemory.of_eq rfl rfl rfl,
      KeepsRest.of_eq rfl rfl rfl rfl rfl rfl rfl rfl rfl⟩
  · exact ⟨_, exec_bl_passed o s hc, htarget, hlink, KeepsRegs.of_write rfl (List.mem_singleton_self 14), rfl, rfl,
      KeepsMemory.of_eq rfl rfl rfl, KeepsRest.of_eq rfl rfl rfl rfl rfl rfl rfl rfl rfl⟩

end Sys2Proof.Machine
end

section
/-! Data processing into R15, and the tests that write the PSR (R172 to R174). -/

namespace Sys2Proof.Machine

/-- The end that the three templates of a result-producing opcode share, with Rd = 15. -/
theorem ifPassed_writeResult_r15 {c : Cond} {s : State} {rd : RegNum} (setFlags : Bool) (r : AluOut) (hc : condPassed c s.psr = true)
    (hrd : rd = 15) : ∃ t, ifPassed c s (.next (s.writeResult setFlags rd r)) = .next t ∧ PcWritten setFlags r.value s t :=
  ⟨_, ifPassed_true _ _ _ hc, hrd ▸ s.writeResult_r15 setFlags r⟩

/-- Settles O30: in each form the template with the row's operation, and what the end of an operation writes into R15. -/
theorem resultIntoR15 : Obligations.ResultIntoR15 := by
  intro r hr s
  obtain ⟨himm, hreg, hregShift⟩ := resultRows_run_fn r hr s
  refine ⟨fun o hc hrd => ?_, fun o hc hrd => ?_, fun o hc hrd => ?_⟩
  · rw [himm]
    exact ifPassed_writeResult_r15 o.s _ hc hrd
  · rw [hreg]
    exact ifPassed_writeResult_r15 o.s _ hc hrd
  · rw [hregShift]
    exact ifPassed_writeResult_r15 o.s _ hc hrd

/-- Settles O32: in each form the template with the row's operation, and what the end of a test writes with Rd = 15. -/
theorem testsWritePsr : Obligations.TestsWritePsr := by
  intro r hr s
  obtain ⟨himm, hreg, hregShift⟩ := testRows_run_fn r hr s
  refine ⟨fun o hc hrd => ?_, fun o hc hrd => ?_, fun o hc hrd => ?_⟩
  · rw [himm]
    exact ⟨_, ifPassed_true _ _ _ hc, hrd ▸ s.writeTest_r15 _⟩
  · rw [hreg]
    exact ⟨_, ifPassed_true _ _ _ hc, hrd ▸ s.writeTest_r15 _⟩
  · rw [hregShift]
    exact ⟨_, ifPassed_true _ _ _ hc, hrd ▸ s.writeTest_r15 _⟩

end Sys2Proof.Machine
end

section
/-! Operand 2: what its registers read as (R166), and the barrel shifter bit by bit (R162 to R165, R167). -/

namespace Sys2Proof.Machine

/-! ### Registers as operands (R166) -/

@[simp] theorem State.operandPc_r15 (s : State) (k : PcWord) : s.operandPc 15 k = s.pcv k := if_pos rfl

@[simp] theorem State.operandR15_r15 (s : State) (k : PcWord) : s.operandR15 15 k = s.r15v k := if_pos rfl

@[simp] theorem State.operandPc_of_ne_r15 (s : State) {i : RegNum} (k : PcWord) (hi : i ≠ 15) : s.operandPc i k = s.x i := if_neg hi

@[simp] theorem State.operandR15_of_ne_r15 (s : State) {i : RegNum} (k : PcWord) (hi : i ≠ 15) : s.operandR15 i k = s.x i := if_neg hi

theorem field_lowByte_toNat (w : Word) : (field w 0 8).toNat = w.toNat % 256 := BitVec.extractLsb'_toNat 0 8 w

theorem regShiftOperand_eq (s : State) (o : RegShiftOp) :
    regShiftOperand s o = shiftByReg o.kind (s.operandR15 o.rm 3) ((s.operandPc o.rs 2).toNat % 256) s.psr.c := by
  rw [regShiftOperand, field_lowByte_toNat]

/-- Settles O26: each operand position is one of the two readings of R15, at the distance the position has. -/
theorem r15AsOperand : Obligations.R15AsOperand := by
  intro s i k o r
  refine ⟨fun hi => ?other, fun hi => ?r15, fun hm => ?regR15, fun hm => ?reg, fun hm hs => ?both, fun hm hs => ?rm, fun hm hs => ?rs,
    fun hm hs => ?neither⟩
  case other => exact ⟨s.operandPc_of_ne_r15 k hi, s.operandR15_of_ne_r15 k hi⟩
  case r15 => rw [hi]; exact ⟨s.operandPc_r15 k, s.operandR15_r15 k⟩
  case regR15 => rw [regOperand, hm, State.operandR15_r15]
  case reg => rw [regOperand, s.operandR15_of_ne_r15 2 hm]
  case both => rw [regShiftOperand_eq, hm, hs, State.operandR15_r15, State.operandPc_r15]
  case rm => rw [regShiftOperand_eq, hm, State.operandR15_r15, s.operandPc_of_ne_r15 2 hs]
  case rs => rw [regShiftOperand_eq, hs, s.operandR15_of_ne_r15 3 hm, State.operandPc_r15]
  case neither => rw [regShiftOperand_eq, s.operandR15_of_ne_r15 3 hm, s.operandPc_of_ne_r15 2 hs]

/-! ### The bits of a shifted word -/

theorem msb_eq_bitAt (w : Word) : w.msb = bitAt w 31 := w.msb_eq_getLsbD_last

theorem fill_eq (b : Bool) : fill b = if b then 0xFFFFFFFF else 0 := rfl

theorem bitAt_shiftLeft (w : Word) {n j : Nat} (hj : j < 32) : bitAt (w <<< n) j = (decide (n ≤ j) && bitAt w (j - n)) := by
  rw [bitAt, BitVec.getLsbD_shiftLeft, decide_eq_true hj, Bool.true_and, ← decide_not, decide_eq_decide.2 Nat.not_lt, bitAt]

theorem bitAt_ushiftRight (w : Word) (n j : Nat) : bitAt (w >>> n) j = bitAt w (j + n) := by
  simp [bitAt, Nat.add_comm n j]

/-- An arithmetic shift repeats the sign above the bits it moves. -/
theorem bitAt_sshiftRight (w : Word) {n j : Nat} (hj : j < 32) : bitAt (w.sshiftRight n) j = bitAt w (min (j + n) 31) := by
  have hin : ¬ 32 ≤ j := by omega
  rw [bitAt, BitVec.getLsbD_sshiftRight, decide_eq_false hin, Bool.not_false, Bool.true_and]
  by_cases hmoved : n + j < 32
  · rw [if_pos hmoved, bitAt, Nat.min_eq_left (by omega), Nat.add_comm]
  · rw [if_neg hmoved, msb_eq_bitAt, Nat.min_eq_right (by omega)]

/-- A rotation reads round the word. -/
theorem bitAt_rotateRight (w : Word) {n j : Nat} (hn : n < 32) (hj : j < 32) : bitAt (w.rotateRight n) j = bitAt w ((j + n) % 32) := by
  rw [bitAt, BitVec.getLsbD_rotateRight, Nat.mod_eq_of_lt hn]
  by_cases hround : j < 32 - n
  · rw [decide_eq_true hround, cond_true, bitAt, Nat.mod_eq_of_lt (by omega), Nat.add_comm]
  · rw [decide_eq_false hround, cond_false, decide_eq_true hj, Bool.true_and, bitAt]
    exact congrArg w.getLsbD (by omega)

theorem rotateRight_zero (w : Word) : w.rotateRight 0 = w := by
  apply BitVec.eq_of_getLsbD_eq
  intro j hj
  exact (bitAt_rotateRight w (by decide) hj).trans (congrArg w.getLsbD (Nat.mod_eq_of_lt hj))

/-- RRX shifts C in from above (R165). -/
theorem bitAt_rrx (w : Word) (c : Bool) :
    bitAt (flag c ++ field w 1 31) 31 = c ∧ ∀ j, j < 31 → bitAt (flag c ++ field w 1 31) j = bitAt w (j + 1) := by
  constructor
  · rw [bitAt, BitVec.getLsbD_append, if_neg (by decide), flag, BitVec.getLsbD_ofBool]
    rfl
  · intro j hj
    rw [bitAt, BitVec.getLsbD_append, if_pos hj, field, BitVec.getLsbD_extractLsb', decide_eq_true hj, Bool.true_and, Nat.add_comm, bitAt]

/-! ### An amount in the instruction (R162 to R165) -/

theorem shiftByField_zero (kind : ShiftKind) (rm : Word) (c : Bool) : shiftByField kind rm 0 c = shiftField0 kind rm c := if_pos rfl

theorem shiftByField_of_ne_zero (kind : ShiftKind) (rm : Word) {n : BitVec 5} (c : Bool) (hn : n ≠ 0) :
    shiftByField kind rm n c = shiftBy kind rm n.toNat := if_neg hn

/-- Settles O24: a field of 0 has a meaning of its own for each type, any other field is the shift by its value. -/
theorem shiftByConstant : Obligations.ShiftByConstant := by
  intro rm n c
  constructor
  · obtain ⟨htop, hrest⟩ := bitAt_rrx rm c
    simp only [shiftByField_zero, shiftField0, msb_eq_bitAt, fill_eq]
    exact ⟨trivial, trivial, trivial, trivial, htop, hrest⟩
  · intro hn
    simp only [shiftByField_of_ne_zero _ rm c hn, shiftBy]
    exact ⟨⟨trivial, trivial, trivial, trivial⟩, fun j hj =>
      ⟨bitAt_shiftLeft rm hj, bitAt_ushiftRight rm n.toNat j, bitAt_sshiftRight rm hj, bitAt_rotateRight rm n.isLt hj⟩⟩

/-! ### An amount in a register (R167) -/

theorem shiftByReg_zero (kind : ShiftKind) (rm : Word) (c : Bool) : shiftByReg kind rm 0 c = ⟨rm, c⟩ := if_pos rfl

theorem shiftByReg_of_le_31 (kind : ShiftKind) (rm : Word) {n : Nat} (c : Bool) (h1 : 1 ≤ n) (h31 : n ≤ 31) :
    shiftByReg kind rm n c = shiftBy kind rm n := (if_neg (by omega)).trans (if_pos h31)

theorem shiftByReg_lsl_of_32_le (rm : Word) {n : Nat} (c : Bool) (h : 32 ≤ n) :
    shiftByReg .lsl rm n c = ⟨0, decide (n = 32) && bitAt rm 0⟩ := by
  rw [shiftByReg, if_neg (by omega), if_neg (by omega)]

theorem shiftByReg_lsr_of_32_le (rm : Word) {n : Nat} (c : Bool) (h : 32 ≤ n) :
    shiftByReg .lsr rm n c = ⟨0, decide (n = 32) && bitAt rm 31⟩ := by
  rw [shiftByReg, if_neg (by omega), if_neg (by omega), msb_eq_bitAt]

theorem shiftByReg_asr_of_32_le (rm : Word) {n : Nat} (c : Bool) (h : 32 ≤ n) :
    shiftByReg .asr rm n c = ⟨if bitAt rm 31 then 0xFFFFFFFF else 0, bitAt rm 31⟩ := by
  rw [shiftByReg, if_neg (by omega), if_neg (by omega), msb_eq_bitAt, fill_eq]

/-- A rotation by any amount but 0 depends on the amount modulo 32 alone. -/
theorem shiftByReg_ror (rm : Word) {n : Nat} (c : Bool) (h : 1 ≤ n) :
    shiftByReg .ror rm n c = ⟨rm.rotateRight (n % 32), bitAt rm ((n - 1) % 32)⟩ := by
  by_cases h31 : n ≤ 31
  · rw [shiftByReg_of_le_31 .ror rm c h h31, Nat.mod_eq_of_lt (by omega), Nat.mod_eq_of_lt (by omega), shiftBy]
  · have hamount : ((n - 1) % 32 + 1) % 32 = n % 32 := by omega
    rw [shiftByReg, if_neg (by omega), if_neg h31]
    simp only [hamount, Nat.add_sub_cancel]

/-- Settles O25, range by range of the amount: 0, 1 to 31, 32, and 33 on. -/
theorem shiftByRegister : Obligations.ShiftByRegister := by
  intro rm n c kind
  refine ⟨fun s o hm hs => ?operand, shiftByReg_zero kind rm c, fun h1 h31 => ?constant, ?word, fun h33 _ => ?beyond, fun h32 _ => ?asr⟩
  case operand => rw [regShiftOperand_eq, s.operandR15_of_ne_r15 3 hm, s.operandPc_of_ne_r15 2 hs]
  case constant =>
    have hval : (BitVec.ofNat 5 n).toNat = n := Nat.mod_eq_of_lt (by omega)
    have hne : BitVec.ofNat 5 n ≠ 0 := fun h0 => by
      have hn : n = 0 := hval.symm.trans (congrArg BitVec.toNat h0)
      omega
    rw [shiftByReg_of_le_31 kind rm c h1 h31, shiftByField_of_ne_zero kind rm c hne, hval]
  case word =>
    refine ⟨shiftByReg_lsl_of_32_le rm c (Nat.le_refl 32), shiftByReg_lsr_of_32_le rm c (Nat.le_refl 32), ?_⟩
    rw [shiftByReg_ror rm c (by decide), Nat.mod_self, rotateRight_zero]
  case beyond =>
    have hne : decide (n = 32) = false := decide_eq_false (by omega)
    have hamount : (n - 32) % 32 = n % 32 := by omega
    have hcarry : (n - 32 - 1) % 32 = (n - 1) % 32 := by omega
    refine ⟨?_, ?_, ?_⟩
    · rw [shiftByReg_lsl_of_32_le rm c (by omega), hne, Bool.false_and]
    · rw [shiftByReg_lsr_of_32_le rm c (by omega), hne, Bool.false_and]
    · rw [shiftByReg_ror rm c (by omega), shiftByReg_ror rm c (by omega), hamount, hcarry]
  case asr => exact shiftByReg_asr_of_32_le rm c h32

end Sys2Proof.Machine
end

section
/-! MUL and MLA (R220 to R229): a result in Rd, the meaningless result of Rd = Rm, and Rd = R15. -/

namespace Sys2Proof.Machine

/-! ### What each form of the two instructions does when its condition passes -/

theorem mulValue_eq (o : Mul) (s : State) (addend : Word) :
    mulValue o s addend = s.operandR15 o.rm 3 * s.operandPc o.rs 2 + addend := mulAdd_eq _ _ _

theorem mulValue_zero (o : Mul) (s : State) : mulValue o s 0 = s.operandR15 o.rm 3 * s.operandPc o.rs 2 :=
  (mulValue_eq o s 0).trans (BitVec.add_zero _)

theorem exec_mul_result (o : Mul) (s : State) (hc : condPassed o.cond s.psr = true) (hrd : o.rd ≠ 15) (hrm : o.rd ≠ o.rm) :
    exec (.mul o) s = .next (mulResult o s (s.operandR15 o.rm 3 * s.operandPc o.rs 2)) :=
  calc exec (.mul o) s
    _ = .next (mulResult o s (mulValue o s 0)) := (ifPassed_true _ _ _ hc).trans (by rw [if_neg hrd, if_neg hrm])
    _ = _ := by rw [mulValue_zero]

theorem exec_mla_result (o : Mul) (s : State) (hc : condPassed o.cond s.psr = true) (hrd : o.rd ≠ 15) (hrm : o.rd ≠ o.rm) :
    exec (.mla o) s = .next (mulResult o s (s.operandR15 o.rm 3 * s.operandPc o.rs 2 + s.operandR15 o.rn 2)) :=
  calc exec (.mla o) s
    _ = .next (mulResult o s (mulValue o s (s.operandR15 o.rn 2))) :=
      (ifPassed_true _ _ _ hc).trans (by rw [if_neg hrd, if_neg hrm])
    _ = _ := by rw [mulValue_eq]

theorem exec_mul_ontoRm (o : Mul) (s : State) (hc : condPassed o.cond s.psr = true) (hrd : o.rd ≠ 15) (hrm : o.rd = o.rm) :
    exec (.mul o) s = .next (mulResult o s 0) := (ifPassed_true _ _ _ hc).trans (by rw [if_neg hrd, if_pos hrm])

theorem exec_mla_ontoRm (o : Mul) (s : State) (hc : condPassed o.cond s.psr = true) (hrd : o.rd ≠ 15) (hrm : o.rd = o.rm) :
    exec (.mla o) s = .next (mlaMeaningless o s) := (ifPassed_true _ _ _ hc).trans (by rw [if_neg hrd, if_pos hrm])

theorem exec_mul_intoR15 (o : Mul) (s : State) (hc : condPassed o.cond s.psr = true) (hrd : o.rd = 15) :
    exec (.mul o) s = .next (mulToR15 o s) := (ifPassed_true _ _ _ hc).trans (by rw [if_pos hrd])

theorem exec_mla_intoR15 (o : Mul) (s : State) (hc : condPassed o.cond s.psr = true) (hrd : o.rd = 15) :
    exec (.mla o) s = .next (mulToR15 o s) := (ifPassed_true _ _ _ hc).trans (by rw [if_pos hrd])

/-! ### What the ends with free values leave unchanged (R223) -/

/-- With S or without, the free word goes to Rd alone, and V, I, F and the mode are no free bits. -/
theorem mlaMeaningless_spec (o : Mul) (s : State) :
    let t := mlaMeaningless o s
    t.psr = (if o.s then { s.psr with n := t.psr.n, z := t.psr.z, c := t.psr.c } else s.psr) ∧
      t.pc = s.pc + 1 ∧ KeepsRegs s.psr.mode [o.rd] s t ∧ KeepsMemory s t ∧ KeepsInputs s t ∧ t.coprocs = s.coprocs ∧
      t.hazard = s.hazard ∧ PrefetchCarried s t := by
  unfold mlaMeaningless
  cases o.s <;>
    exact ⟨rfl, rfl, KeepsRegs.of_write rfl (List.mem_singleton_self o.rd), KeepsMemory.of_eq rfl rfl rfl,
      ⟨rfl, rfl, rfl, rfl, rfl, rfl⟩, rfl, rfl, rfl⟩

/-- With S or without, no register is written; I, F and the mode are no free bits. -/
theorem mulToR15_spec (o : Mul) (s : State) :
    let t := mulToR15 o s
    t.regs = s.regs ∧ t.pc = s.pc + 1 ∧
      t.psr = (if o.s then { s.psr with n := t.psr.n, z := t.psr.z, c := t.psr.c, v := t.psr.v } else s.psr) ∧
      KeepsMemory s t ∧ KeepsInputs s t ∧ t.coprocs = s.coprocs ∧ t.hazard = s.hazard ∧ PrefetchCarried s t := by
  unfold mulToR15
  cases o.s <;> exact ⟨rfl, rfl, rfl, KeepsMemory.of_eq rfl rfl rfl, ⟨rfl, rfl, rfl, rfl, rfl, rfl⟩, rfl, rfl, rfl⟩

/-! ### The obligations -/

/-- Settles O33: each instruction ends by writing its plain value, whose N and Z are those of what Rd then holds. -/
theorem multiplyResult : Obligations.MultiplyResult := by
  intro o s hc hrd hrm
  constructor
  · obtain ⟨hval, hpsr, hframe⟩ := mulResult_spec o s (s.operandR15 o.rm 3 * s.operandPc o.rs 2) hrd
    exact ⟨_, exec_mul_result o s hc hrd hrm, hval, by rw [hval]; exact hpsr, hframe⟩
  · obtain ⟨hval, hpsr, hframe⟩ := mulResult_spec o s (s.operandR15 o.rm 3 * s.operandPc o.rs 2 + s.operandR15 o.rn 2) hrd
    exact ⟨_, exec_mla_result o s hc hrd hrm, hval, by rw [hval]; exact hpsr, hframe⟩

/-- Settles O34: MUL ends by writing 0, so that N is clear and Z set; MLA ends with free values. -/
theorem multiplyOntoRm : Obligations.MultiplyOntoRm := by
  intro o s hc hrd hrm
  constructor
  · exact ⟨_, exec_mul_ontoRm o s hc hrd hrm, mulResult_spec o s 0 hrd⟩
  · exact ⟨_, exec_mla_ontoRm o s hc hrd hrm, mlaMeaningless_spec o s⟩

/-- Settles O35: both instructions have one end with Rd = R15. -/
theorem multiplyIntoR15 : Obligations.MultiplyIntoR15 := by
  rintro o s i hc hrd (rfl | rfl)
  · exact ⟨_, exec_mul_intoR15 o s hc hrd, mulToR15_spec o s⟩
  · exact ⟨_, exec_mla_intoR15 o s hc hrd, mulToR15_spec o s⟩

end Sys2Proof.Machine
end

section
/-! Single transfers: the address (R241, R242), loads into R15 (R246), and the transfers without a meaning (R245, R285, R286). -/

namespace Sys2Proof.Machine

/-! ### The address, the modified base and the write-back (R241, R242) -/

/-- A 12-bit offset is zero-extended (R241). -/
theorem toNat_immOffset (offset : BitVec 12) : (immOffset offset).toNat = offset.toNat :=
  BitVec.toNat_setWidth_of_le (by decide)

/-- The address of a single transfer in the terms of R242, whatever the form of its offset. -/
theorem sdtAddr_eq {α : Type} (s : State) (o : Sdt α) (off : Word) :
    sdtAddr s o off =
      let base := if o.rn = 15 then s.pcv 2 else s.x o.rn
      let modified := if o.u then base + off else base - off
      ⟨if o.p then modified else base, modified, !o.p || o.w⟩ := rfl

/-- Settles O36: the address does not depend on the form of the offset, and an immediate one keeps its value. -/
theorem transferAddress : Obligations.TransferAddress := by
  intro o q off s
  exact ⟨toNat_immOffset o.offset, sdtAddr_eq s o off, sdtAddr_eq s q off⟩

/-! ### Loads into R15 (R246) -/

/-- A word load into R15 whose read does not abort, in either offset form. -/
theorem loadWord_intoR15 {α : Type} (o : Sdt α) (off : Word) (s : State) (hc : condPassed o.cond s.psr = true) (hrd : o.rd = 15)
    (hab : s.readAborts (forcedTran o.p o.w) (sdtAddr s o off).addr = false) :
    ∃ t, loadWord o off s = .next t ∧ LoadedPc o (sdtAddr s o off) (s.wordAt (sdtAddr s o off).addr) s t :=
  ⟨_, loadWord_passed o off s hc hab, finishLoad_r15 o s _ _ hrd⟩

/-- A byte load into R15 whose read does not abort, in either offset form. -/
theorem loadByte_intoR15 {α : Type} (o : Sdt α) (off : Word) (s : State) (hc : condPassed o.cond s.psr = true) (hrd : o.rd = 15)
    (hab : s.aborted (s.dataCycle .read true (forcedTran o.p o.w) (sdtAddr s o off).addr) = false) :
    ∃ t, loadByte o off s = .next t ∧ LoadedPc o (sdtAddr s o off) (0#24 ++ s.byteAt (sdtAddr s o off).addr) s t :=
  ⟨_, loadByte_passed o off s hc hab, finishLoad_r15 o s _ _ hrd⟩

/-- Settles O39: both offset forms are the one word load or byte load, whose end with Rd = R15 branches after the base write-back. -/
theorem loadIntoR15 : Obligations.LoadIntoR15 := by
  intro s
  refine ⟨fun o hc hrd => ⟨fun hab => ?_, fun hab => ?_⟩, fun o hc hrd => ⟨fun hab => ?_, fun hab => ?_⟩⟩
  · exact loadWord_intoR15 o _ s hc hrd hab
  · exact loadByte_intoR15 o _ s hc hrd hab
  · exact loadWord_intoR15 o _ s hc hrd hab
  · exact loadByte_intoR15 o _ s hc hrd hab

/-! ### Stores of the base they write back (R245) -/

/-- A post-indexed transfer, and a pre-indexed one with W set, write the base back (R242). -/
theorem sdtAddr_wb_eq_true {α : Type} (s : State) (o : Sdt α) (off : Word) (h : o.p = false ∨ o.w = true) :
    (sdtAddr s o off).wb = true := by
  rw [sdtAddr_eq, Bool.or_eq_true, Bool.not_eq_true']
  exact h

/-- The refusal of R245 meets a store whose data register is its written-back base. -/
theorem storesBase_eq_true {wb : Bool} {rd rn : RegNum} (hwb : wb = true) (hrd : rd = rn) : (wb && rd == rn) = true := by
  rw [hwb, hrd, beq_self_eq_true, Bool.and_self]

/-- A word store and a byte store of the base they write back stop, in either offset form. -/
theorem store_ofWrittenBackBase {α : Type} (o : Sdt α) (off : Word) (s : State) (hc : condPassed o.cond s.psr = true)
    (hrd : o.rd = o.rn) (hwb : o.p = false ∨ o.w = true) :
    storeWord o off s = .refused .storeOfWrittenBackBase ∧ storeByteOf o off s = .refused .storeOfWrittenBackBase := by
  have hbase := storesBase_eq_true (sdtAddr_wb_eq_true s o off hwb) hrd
  constructor
  · rw [storeWord, ifPassed_true _ _ _ hc, if_pos hbase]
  · rw [storeByteOf, ifPassed_true _ _ _ hc, if_pos hbase]

/-! ### Block transfers of no register or from an unaligned address (R285, R286) -/

theorem listedRegs_zero : listedRegs 0 = [] := rfl

theorem blockRefusal_of_emptyList (s : State) (o : Bdt) (hl : o.list = 0) : blockRefusal s o = some .emptyRegisterList := by
  rw [blockRefusal, hl, listedRegs_zero, if_pos rfl]

theorem blockRefusal_of_unaligned (s : State) (o : Bdt) (hl : o.list ≠ 0) (ha : (blockFirst s o).toNat % 4 ≠ 0) :
    blockRefusal s o = some .unalignedBlock := by
  rw [blockRefusal, if_neg (listedRegs_ne_nil _ hl), aligned_eq, decide_eq_false ha, if_neg Bool.false_ne_true]

/-- LDM and STM answer what stops a block transfer before any cycle. -/
theorem exec_block_refused (s : State) (o : Bdt) {r : Refusal} (hc : condPassed o.cond s.psr = true) (hr : blockRefusal s o = some r) :
    exec (.ldm o) s = .refused r ∧ exec (.stm o) s = .refused r := by
  constructor
  · show execLdm o s = _
    rw [execLdm, ifPassed_true _ _ _ hc, hr]
  · show execStm o s = _
    rw [execStm, ifPassed_true _ _ _ hc, hr]

/-- Settles O50: the stores stop by their test for the written-back base, the block transfers by `blockRefusal`. -/
theorem transfersRefused : Obligations.TransfersRefused := by
  intro s
  refine ⟨fun o hc hrd hwb => ?_, fun o hc hrd hwb => ?_, fun o hc => ⟨fun hl => ?_, fun hl ha => ?_⟩⟩
  · exact store_ofWrittenBackBase o _ s hc hrd hwb
  · exact store_ofWrittenBackBase o _ s hc hrd hwb
  · exact exec_block_refused s o hc (blockRefusal_of_emptyList s o hl)
  · exact exec_block_refused s o hc (blockRefusal_of_unaligned s o hl ha)

end Sys2Proof.Machine
end

section
/-! Block transfers: the addresses of the four modes (R280, R281), LDM with R15 in the list (R291), and the aborts (R297, R298). -/

namespace Sys2Proof.Machine

/-! ### The addresses and the order of the registers (R280, R281, R290) -/

/-- The first address and the final base are the pair R281 gives for the stacking mode of P and U. -/
theorem blockFirst_blockFinal_eq (s : State) (o : Bdt) {p u : Bool} (hp : o.p = p) (hu : o.u = u) :
    (blockFirst s o, blockFinal s o) = blockRange p u (blockBase s o) (listCount o) := by
  rw [← hp, ← hu]
  rfl

/-- Settles O44: one row of R281 for each stacking mode, and the list as a filter of the sixteen numbers in rising order. -/
theorem blockAddresses : Obligations.BlockAddresses := by
  intro o s base size
  refine ⟨fun hp hu => ?_, fun hp hu => ?_, fun hp hu => ?_, fun hp hu => ?_, listedRegs_pairwise o.list, mem_listedRegs o.list⟩
  all_goals exact Prod.mk.inj (blockFirst_blockFinal_eq s o hp hu)

/-! ### LDM with R15 in the list (R291) -/

theorem list_ne_zero_of_getLsbD {list : BitVec 16} {i : Nat} (h : list.getLsbD i = true) : list ≠ 0 := fun h0 => by
  rw [h0] at h
  exact Bool.false_ne_true (BitVec.getLsbD_zero.symm.trans h)

/-- With R15 in the list the S bit selects no user bank (R287, R291). -/
theorem loadsUserBank_of_r15 (s : State) (o : Bdt) (h : o.list.getLsbD 15 = true) : loadsUserBank s o = false := by
  rw [loadsUserBank, h, Bool.not_true, Bool.and_false]

/-- R15 is the last register of the list, and gets the last word. -/
theorem loadedR15_blockLoads_of_r15 (s : State) (o : Bdt) (h : o.list.getLsbD 15 = true) :
    loadedR15 (blockLoads s o) = some (s.wordAt (wordAddr (blockFirst s o) (listCount o - 1))) :=
  loadedR15_eq_some _ _ (mem_blockLoads s o (listedRegs_last _ h)) (by rw [map_fst_blockLoads]; exact listedRegs_nodup _)

/-- What the loads have done is not undone by what leaves the registers and memory alone. -/
theorem BlockLoaded.after {s u t : State} {o : Bdt} {bank : Mode} (h : BlockLoaded s u o bank) (hregs : t.regs = u.regs)
    (hmem : KeepsMemory u t) : BlockLoaded s t o bank := by
  obtain ⟨hwords, hbase, hothers, hkept⟩ := h
  refine ⟨?_, ?_, fun p hp => ?_, fun a => (hmem a).trans (hkept a)⟩
  · rwa [hregs]
  · rwa [hregs]
  · rw [hregs]
    exact hothers p hp

/-- The end of a load whose last word `v` goes to R15: the return with S, the branch without it, the loaded registers as they are. -/
theorem finishLdm_r15_spec (s : State) (o : Bdt) (h15 : o.list.getLsbD 15 = true) :
    let v := s.wordAt (wordAddr (blockFirst s o) (listCount o - 1))
    let t := finishLdm s o (blockLoads s o)
    BlockLoaded s t o s.psr.mode ∧ t.pc = field v 2 24 ∧ t.psr = (if o.s then s.psr.write v else s.psr) ∧
      t.pipe = Pipeline.fresh ∧ KeepsRest s t := by
  intro v t
  obtain ⟨regs, hloaded, hspec⟩ := loadRegs_after_base s o false
  have hfinish : t = if o.s then ({ s with regs := regs } : State).returnTo v else ({ s with regs := regs } : State).branchTo v := by
    simp only [t, finishLdm, loadsUserBank_of_r15 s o h15, loadedR15_blockLoads_of_r15 s o h15, hloaded, v]
  rw [hfinish]
  cases o.s <;> exact ⟨hspec.after rfl (KeepsMemory.of_eq rfl rfl rfl), rfl, rfl, rfl, KeepsRest.of_eq rfl rfl rfl rfl rfl rfl rfl rfl rfl⟩

/-- A load multiple of which no read aborts ends with the words of its list (R295). -/
theorem exec_ldm_of_no_abort (s : State) (o : Bdt) (hc : condPassed o.cond s.psr = true) (hl : o.list ≠ 0)
    (ha : field (blockFirst s o) 0 2 = 0) (hab : ∀ k, k < listCount o → blockReadAborts s o k = false) :
    exec (.ldm o) s = .next (finishLdm s o (blockLoads s o)) := by
  show execLdm o s = _
  rw [execLdm, ifPassed_true _ _ _ hc, blockRefusal_eq_none s o hl ha]
  simp only [readBlock_eq_blockLoads s o ha hab]

/-- Settles O46: R15 in the list turns the user bank off, and its word, the last one, ends the load by a branch or a return. -/
theorem loadMultipleIntoR15 : Obligations.LoadMultipleIntoR15 := by
  intro o s hc h15 ha hab v
  exact ⟨_, exec_ldm_of_no_abort s o hc (list_ne_zero_of_getLsbD h15) ha hab, finishLdm_r15_spec s o h15⟩

/-! ### The data abort (R410) -/

theorem Psr.enter_dataAbort (p : Psr) : p.enter .dataAbort = { p with i := true, mode := .svc } := by
  simp [Psr.enter, Trap.setsF, Trap.mode]

/-- A register that is not the R14 an entry saves into reads as before it. -/
theorem State.enter_read (s : State) (e : Trap) (ret : PcWord) (m : Mode) (i : RegNum) (h : phys m i ≠ some (linkReg e.mode)) :
    (s.enter e ret).regs.read m i = s.regs.read m i := by
  unfold Regs.read
  cases hp : phys m i with
  | none => rfl
  | some p => exact s.enter_other e ret p fun hlink => h (by rw [hp, hlink])

/-- Neither a register write nor an exception entry changes a byte of memory. -/
theorem KeepsMemory.enter_of_regs (s : State) (regs : Regs) (e : Trap) (ret : PcWord) :
    KeepsMemory s (({ s with regs := regs } : State).enter e ret) := KeepsMemory.of_eq rfl rfl rfl

/-- A list that names a place is not empty. -/
theorem list_ne_zero_of_lt_listCount {o : Bdt} {k : Nat} (h : k < listCount o) : o.list ≠ 0 := fun h0 => by
  rw [listCount, h0, listedRegs_zero] at h
  exact Nat.not_lt_zero k h

/-! ### LDM that aborts (R297) -/

/-- The loads of the first `n` places of a list, each register with the word at its place. -/
def loadsBefore (s : State) (o : Bdt) (n : Nat) : List (RegNum × Word) :=
  ((listedRegs o.list).take n).mapIdx fun j r => (r, s.wordAt (wordAddr (blockFirst s o) j))

theorem map_fst_loadsBefore (s : State) (o : Bdt) (n : Nat) : (loadsBefore s o n).map (·.1) = (listedRegs o.list).take n :=
  map_fst_mapIdx _ _

theorem mem_loadsBefore (s : State) (o : Bdt) {j n : Nat} {r : RegNum} (hjn : j < n) (h : (listedRegs o.list)[j]? = some r) :
    (r, s.wordAt (wordAddr (blockFirst s o) j)) ∈ loadsBefore s o n := by
  refine List.mem_of_getElem? (i := j) ?_
  rw [loadsBefore, List.getElem?_mapIdx, List.getElem?_take_of_lt hjn, h]
  rfl

theorem exists_place_of_mem_loadsBefore (s : State) (o : Bdt) {n : Nat} {e : RegNum × Word} (he : e ∈ loadsBefore s o n) :
    ∃ j, j < n ∧ (listedRegs o.list)[j]? = some e.1 := by
  have hmem : e.1 ∈ (listedRegs o.list).take n := by
    rw [← map_fst_loadsBefore s o n]
    exact List.mem_map_of_mem he
  obtain ⟨j, hj⟩ := List.mem_iff_getElem?.1 hmem
  rw [List.getElem?_take] at hj
  split at hj
  · next hjn => exact ⟨j, hjn, hj⟩
  · cases hj

/-- The last place before the abort is not loaded (R297). -/
theorem dropLast_loadsBefore (s : State) (o : Bdt) {k : Nat} (hk : k ≤ (listedRegs o.list).length) :
    (loadsBefore s o k).dropLast = loadsBefore s o (k - 1) := by
  rw [List.dropLast_eq_take, loadsBefore, loadsBefore, List.length_mapIdx, List.length_take, Nat.min_eq_left hk]
  apply List.ext_getElem?
  intro i
  simp only [List.getElem?_take, List.getElem?_mapIdx]
  split
  · rw [if_pos (by omega)]
  · rfl

/-- A register with another after it in the list is not R15: the numbers rise. -/
theorem ne_r15_of_not_last {list : BitVec 16} {j k : Nat} {r : RegNum} (hjk : j < k) (hk : k < (listedRegs list).length)
    (h : (listedRegs list)[j]? = some r) : r ≠ 15 := by
  obtain ⟨hj, rfl⟩ := List.getElem?_eq_some_iff.1 h
  have hrise := List.pairwise_iff_getElem.1 (listedRegs_pairwise list) j k hj hk hjk
  intro h15
  rw [h15] at hrise
  exact absurd ((listedRegs list)[k]).isLt (Nat.not_lt.2 hrise)

/-- An LDM whose read of word `k` is the first to abort ends by R297, with the loads before that word. -/
theorem exec_ldm_of_abort (s : State) (o : Bdt) {k : Nat} (hc : condPassed o.cond s.psr = true) (ha : field (blockFirst s o) 0 2 = 0)
    (hk : k < listCount o) (hab : blockReadAborts s o k = true) (hbefore : ∀ j, j < k → blockReadAborts s o j = false) :
    exec (.ldm o) s = .next (abortLdm s o (loadsBefore s o k)) := by
  have hal := fun j => wordAddr_aligned (blockFirst s o) j ((field_two_eq_zero _).1 ha)
  have hreads := untilAbort_readBlock_abort s (blockFirst s o) 0 (listedRegs o.list) k hk
    (fun j hj => by rw [Nat.zero_add]; exact s.readWord_of_aligned _ _ (hal j) (hbefore j hj))
    (by rw [Nat.zero_add, s.readWord_aligned _ _ (hal k)]; exact if_pos hab)
  simp only [Nat.zero_add] at hreads
  show execLdm o s = _
  rw [execLdm, ifPassed_true _ _ _ hc, blockRefusal_eq_none s o (list_ne_zero_of_lt_listCount hk) ha]
  simp only [hreads, loadsBefore]

/-- The bank in which an LDM that aborts leaves its base: that of the transfer with write-back, the current one without (D25; log entry 9). -/
def ldmAbortBank (s : State) (o : Bdt) : Mode := if blockWb o then bankMode (loadsUserBank s o) s else s.psr.mode

/-- The base an LDM that aborts leaves: the modified one with write-back, the one before it without (D25). -/
def ldmAbortBase (s : State) (o : Bdt) : Word := if blockWb o then blockFinal s o else s.x o.rn

/-- The registers of an LDM that aborts at word `k`, when the data abort is taken: the kept loads, two or more places
before it, then the base (R297, D25). -/
def ldmAbortRegs (s : State) (o : Bdt) (k : Nat) : Regs :=
  (s.loadRegs (loadsUserBank s o) (loadsBefore s o (k - 1))).regs.write (ldmAbortBank s o) o.rn (ldmAbortBase s o)

/-- An aborted load changes registers alone and takes the data abort; as base, R15 is not written. -/
theorem abortLdm_eq (s : State) (o : Bdt) {k : Nat} (hk : k ≤ (listedRegs o.list).length) :
    abortLdm s o (loadsBefore s o k) = ({ s with regs := ldmAbortRegs s o k } : State).enter .dataAbort (s.pc + 2) := by
  obtain ⟨regs, hloaded, -⟩ := s.loadRegs_frame (loadsUserBank s o) (loadsBefore s o (k - 1))
  simp only [abortLdm, ldmAbortRegs, ldmAbortBank, ldmAbortBase, dropLast_loadsBefore s o hk, hloaded]
  congr 1
  cases blockWb o with
  | true => rfl
  | false =>
    by_cases h15 : o.rn = 15
    · simp only [h15, Regs.write, (phys_eq_none _ _).2 rfl, Bool.false_eq_true, if_false, if_true]
    · simp only [h15, Bool.false_eq_true, if_false]
      rfl

/-- A kept load stands in its register, unless that is the base. -/
theorem ldmAbortRegs_read_kept (s : State) (o : Bdt) {j k : Nat} {r : RegNum} (hk : k < listCount o) (hjk : j + 2 ≤ k)
    (hr : (listedRegs o.list)[j]? = some r) (hrn : r ≠ o.rn) :
    (ldmAbortRegs s o k).read (bankMode (loadsUserBank s o) s) r = s.wordAt (wordAddr (blockFirst s o) j) := by
  have h15 : r ≠ 15 := ne_r15_of_not_last (by omega) hk hr
  obtain ⟨p, hp⟩ := phys_isSome (bankMode (loadsUserBank s o) s) r h15
  rw [← s.loadRegs_read (loadsUserBank s o) (loadsBefore s o (k - 1)) r _ h15 (mem_loadsBefore s o (by omega) hr)
    (by rw [map_fst_loadsBefore]; exact (listedRegs_nodup _).sublist (List.take_sublist _ _))]
  simp only [Regs.read, hp]
  exact Regs.get_write_other _ _ _ _ _ fun hbase => hrn (phys_index _ _ _ _ h15 (hp.trans hbase.symm))

/-- The base is the last register written. -/
theorem ldmAbortRegs_read_base (s : State) (o : Bdt) (k : Nat) (hrn : o.rn ≠ 15) :
    (ldmAbortRegs s o k).read (ldmAbortBank s o) o.rn = ldmAbortBase s o :=
  Regs.read_write_same _ _ _ _ hrn

/-- A register that is neither a kept load nor a written-back base holds what it held: a base that is not written back is restored. -/
theorem ldmAbortRegs_get_other (s : State) (o : Bdt) (k : Nat) (p : PhysReg)
    (hloads : ∀ j r, j + 2 ≤ k → (listedRegs o.list)[j]? = some r → phys (bankMode (loadsUserBank s o) s) r ≠ some p)
    (hbase : blockWb o = true → phys (bankMode (loadsUserBank s o) s) o.rn ≠ some p) :
    (ldmAbortRegs s o k).get p = s.regs.get p := by
  by_cases hp : phys (ldmAbortBank s o) o.rn = some p
  · have hwb : ¬ blockWb o = true := fun hwb => hbase hwb (by rwa [ldmAbortBank, if_pos hwb] at hp)
    rw [ldmAbortRegs, Regs.get_write_same _ _ _ _ _ hp, ldmAbortBase, if_neg hwb]
    rw [ldmAbortBank, if_neg hwb] at hp
    simp only [State.x, Regs.read, hp]
  · obtain ⟨regs, hloaded, hother⟩ := s.loadRegs_frame (loadsUserBank s o) (loadsBefore s o (k - 1))
    rw [ldmAbortRegs, Regs.get_write_other _ _ _ _ _ hp, hloaded]
    refine hother p fun e he => ?_
    obtain ⟨j, hj, hplace⟩ := exists_place_of_mem_loadsBefore s o he
    exact hloads j e.1 (by omega) hplace

/-- Settles O47: the kept loads, then the base, then the data abort, which changes no register but R14_svc. -/
theorem loadMultipleAborts : Obligations.LoadMultipleAborts := by
  intro o s k hc ha hk hab hbefore bank
  refine ⟨_, exec_ldm_of_abort s o hc ha hk hab hbefore, ?_⟩
  rw [abortLdm_eq s o (Nat.le_of_lt hk)]
  refine ⟨fun j r hj hr hrn hlink => ?loads, fun hwb hlink => ?modified, fun hwb hrn hlink => ?restored,
    fun p hp hloads hbase => ?others, State.enter_link _ .dataAbort _ (by decide), Psr.enter_dataAbort _, rfl, rfl, rfl,
    KeepsMemory.enter_of_regs s _ _ _, ⟨rfl, rfl, rfl, rfl, rfl, rfl⟩, rfl, rfl⟩
  case loads =>
    rw [State.enter_read _ .dataAbort _ _ _ hlink]
    exact ldmAbortRegs_read_kept s o hk hj hr hrn
  case modified =>
    have hread := ldmAbortRegs_read_base s o k (blockWb_rn o hwb)
    rw [ldmAbortBank, ldmAbortBase, if_pos hwb, if_pos hwb] at hread
    rwa [State.enter_read _ .dataAbort _ _ _ hlink]
  case restored =>
    have hread := ldmAbortRegs_read_base s o k hrn
    rw [ldmAbortBank, ldmAbortBase, hwb] at hread
    rwa [State.enter_read _ .dataAbort _ _ _ hlink]
  case others =>
    rw [State.enter_other _ .dataAbort _ _ hp]
    exact ldmAbortRegs_get_other s o k p hloads hbase

/-! ### STM that aborts (R298) -/

/-- A word reads as before when each of its bytes does. -/
theorem State.wordAt_of_bytes {s t : State} {a : Word} (h : ∀ l, l < 4 → t.byteAt (a + BitVec.ofNat 32 l) = s.byteAt (a + BitVec.ofNat 32 l)) :
    t.wordAt a = s.wordAt a := by
  have h0 := h 0 (by decide)
  rw [show a + BitVec.ofNat 32 0 = a from BitVec.add_zero a] at h0
  have h1 : t.byteAt (a + 1) = s.byteAt (a + 1) := h 1 (by decide)
  have h2 : t.byteAt (a + 2) = s.byteAt (a + 2) := h 2 (by decide)
  have h3 : t.byteAt (a + 3) = s.byteAt (a + 3) := h 3 (by decide)
  rw [State.wordAt, State.wordAt, h0, h1, h2, h3]

theorem KeepsMemory.wordAt {s t : State} (h : KeepsMemory s t) (a : Word) : t.wordAt a = s.wordAt a :=
  State.wordAt_of_bytes fun _ _ => h _

/-- What the stores of a store multiple have done, each judged by itself (R298, D26): memory alone and the marks on the prefetched words
change, a word whose write does not abort is held, one whose write does reads as before, and no byte outside them changes. -/
structure BlockStored (s u : State) (o : Bdt) : Prop where
  frame : ∃ m p, u = { s with mem := m, pipe := p }
  written : ∀ k r, (listedRegs o.list)[k]? = some r → blockWriteAborts s o k = false →
    ∃ v, BlockSends s o k r v ∧ HoldsWord s u (wordAddr (blockFirst s o) k) v
  unwritten : ∀ k, k < listCount o → blockWriteAborts s o k = true →
    u.wordAt (wordAddr (blockFirst s o) k) = s.wordAt (wordAddr (blockFirst s o) k)
  outside : KeepsMemoryOutside (blockFirst s o) (4 * listCount o) s u

/-- The writes of a store multiple (R298). -/
def stmWritten (s : State) (o : Bdt) : Written := s.writeWords false (blockFirst s o) 0 (stmValues s o 0 (listedRegs o.list))

theorem stmWritten_stored (s : State) (o : Bdt) (hwf : s.mem.wf = true) (ha : field (blockFirst s o) 0 2 = 0) :
    BlockStored s (stmWritten s o).state o := by
  have hlen : (stmValues s o 0 (listedRegs o.list)).length = listCount o := stmValues_length s o 0 _
  obtain ⟨m, p, hframe, -⟩ := s.writeWords_frame false (blockFirst s o) 0 (stmValues s o 0 (listedRegs o.list))
  obtain ⟨-, hheld, hsame⟩ := State.writeWords_spec false (blockFirst s o) ((field_two_eq_zero _).1 ha)
    (stmValues s o 0 (listedRegs o.list)) s 0 hwf (by rw [Nat.zero_add, hlen]; exact listCount_le_busSize s o)
  simp only [Nat.zero_add] at hheld hsame
  refine ⟨⟨m, p, hframe⟩, fun k r hr hab => ?written, fun k hk hab => ?unwritten, fun x hx => ?outside⟩
  case written =>
    refine ⟨stmValue s o k r, blockSends_stmValue s o k r, hheld k _ ?_ hab⟩
    rw [stmValues_getElem?, hr, Nat.zero_add]
    rfl
  case unwritten => exact State.wordAt_of_bytes fun l hl => hsame k l (hlen.symm ▸ hk) hl hab
  case outside =>
    refine s.writeWords_outside false (blockFirst s o) 0 _ x hwf fun j l hj hl => ?_
    rw [wordAddr_add]
    exact hx _ (by omega)

/-- A store multiple of which one write aborts has aborted (R298). -/
theorem stmWritten_aborted (s : State) (o : Bdt) {j : Nat} (hwf : s.mem.wf = true) (ha : field (blockFirst s o) 0 2 = 0)
    (hj : j < listCount o) (hab : blockWriteAborts s o j = true) : (stmWritten s o).aborted = true := by
  have hlen : (stmValues s o 0 (listedRegs o.list)).length = listCount o := stmValues_length s o 0 _
  obtain ⟨haborted, -⟩ := State.writeWords_spec false (blockFirst s o) ((field_two_eq_zero _).1 ha)
    (stmValues s o 0 (listedRegs o.list)) s 0 hwf (by rw [Nat.zero_add, hlen]; exact listCount_le_busSize s o)
  rw [stmWritten, haborted, hlen, List.any_eq_true]
  exact ⟨j, List.mem_range.2 hj, by rw [Nat.zero_add]; exact hab⟩

theorem exec_stm_of_abort (s : State) (o : Bdt) (hc : condPassed o.cond s.psr = true) (hl : o.list ≠ 0)
    (ha : field (blockFirst s o) 0 2 = 0) (hab : (stmWritten s o).aborted = true) :
    exec (.stm o) s = .next ((stmBase s o (stmWritten s o).state).enter .dataAbort (s.pc + 2)) := by
  show execStm o s = _
  rw [execStm, ifPassed_true _ _ _ hc, blockRefusal_eq_none s o hl ha]
  exact if_pos hab

/-- Settles O49: the writes, each judged by itself, then the base as ever, then the data abort, which changes no register but R14_svc. -/
theorem storeMultipleAborts : Obligations.StoreMultipleAborts := by
  intro o s j hwf hc ha hj hab bank
  have hstored := stmWritten_stored s o hwf ha
  refine ⟨_, exec_stm_of_abort s o hc (list_ne_zero_of_lt_listCount hj) ha (stmWritten_aborted s o hwf ha hj hab), ?_⟩
  generalize (stmWritten s o).state = u at *
  rw [stmBase_eq]
  have hmem := KeepsMemory.enter_of_regs u
    (u.regs.writeIf (blockWb o) (bankMode (storesUserBank s o) u) o.rn (blockFinal s o)) .dataAbort (s.pc + 2)
  obtain ⟨m, p, rfl⟩ := hstored.frame
  refine ⟨fun k r hr hk => ?written, fun k hk hkab => ?unwritten, hstored.outside.after hmem, fun hwb hlink => ?base,
    fun q hq hbase => ?others, State.enter_link _ .dataAbort _ (by decide), Psr.enter_dataAbort _, rfl, rfl, rfl,
    ⟨rfl, rfl, rfl, rfl, rfl, rfl⟩, rfl, rfl⟩
  case written =>
    obtain ⟨v, hsends, hholds⟩ := hstored.written k r hr hk
    exact ⟨v, hsends, hholds.after hmem⟩
  case unwritten => exact (hmem.wordAt _).trans (hstored.unwritten k hk hkab)
  case base =>
    rw [State.enter_read _ .dataAbort _ _ _ hlink]
    exact Regs.read_writeIf_same _ _ _ hwb (blockWb_rn o hwb)
  case others =>
    rw [State.enter_other _ .dataAbort _ _ hq]
    exact Regs.get_writeIf_other _ _ _ _ _ _ hbase

end Sys2Proof.Machine
end

section
/-! SWI and the two undefined instructions (R320, R324): the entry into Supervisor mode and what it leaves unchanged. -/

namespace Sys2Proof.Machine

/-- The entry into Supervisor mode for an exception that leaves F as it was: what is written, and the frame (R410). -/
theorem State.enter_svc_spec (s : State) (e : Trap) (ret : PcWord) (hreset : e ≠ .reset) (hmode : e.mode = .svc)
    (hf : e.setsF = false) :
    TrapTaken s (s.enter e ret) (.svc 1) ret e.vector .svc s.psr.f ∧ KeepsForTrap s (s.enter e ret) ∧
      KeepsInputs s (s.enter e ret) := by
  have htaken := s.enter_spec e ret hreset
  rw [hmode, hf, Bool.or_false] at htaken
  exact ⟨htaken, s.enter_keeps e ret hreset, rfl, rfl, rfl, rfl, rfl, rfl⟩

theorem exec_swi_passed (o : Swi) (s : State) (hc : condPassed o.cond s.psr = true) :
    exec (.swi o) s = .next (s.enter .softwareInterrupt (s.pc + 1)) := ifPassed_true _ _ _ hc

theorem exec_undefined1_passed (o : Raw) (s : State) (hc : condPassed o.cond s.psr = true) :
    exec (.undefined1 o) s = .next s.undefinedTrap := ifPassed_true _ _ _ hc

theorem exec_undefined2_passed (o : Raw) (s : State) (hc : condPassed o.cond s.psr = true) :
    exec (.undefined2 o) s = .next s.undefinedTrap := ifPassed_true _ _ _ hc

/-- The undefined instruction trap goes to 0x04 with A + 4 saved (R324, R410). -/
theorem State.undefinedTrap_spec (s : State) :
    TrapTaken s s.undefinedTrap (.svc 1) (s.pc + 1) 1 .svc s.psr.f ∧ KeepsForTrap s s.undefinedTrap ∧ KeepsInputs s s.undefinedTrap :=
  s.enter_svc_spec .undefinedInstruction (s.pc + 1) (by decide) rfl rfl

/-- Settles O52: each of the three instructions is one entry into Supervisor mode, whatever its other bits and the mode. -/
theorem swiAndUndefinedTrap : Obligations.SwiAndUndefinedTrap := by
  intro s
  refine ⟨fun o hc => ?swi, fun o i hc hi => ?undefined⟩
  case swi => exact ⟨_, exec_swi_passed o s hc, s.enter_svc_spec .softwareInterrupt (s.pc + 1) (by decide) rfl rfl⟩
  case undefined =>
    refine ⟨s.undefinedTrap, ?_, s.undefinedTrap_spec⟩
    obtain rfl | rfl := hi
    · exact exec_undefined1_passed o s hc
    · exact exec_undefined2_passed o s hc

end Sys2Proof.Machine
end

section
/-! The coprocessor trap (R344), and the instructions CDP, MRC and MCR when a coprocessor accepts them (R346, R358 to R360). -/

namespace Sys2Proof.Machine

/-! ### The offer to a coprocessor (R343, R344) -/

/-- The instructions that name the coprocessor `cpNum`. -/
def NamesCoproc (i : Instr) (cpNum : BitVec 4) : Prop :=
  (∃ o, i = .cdp o ∧ cpNum = o.cpNum) ∨ (∃ o, i = .ldc o ∧ cpNum = o.cpNum) ∨ (∃ o, i = .stc o ∧ cpNum = o.cpNum) ∨
    (∃ o, i = .mcr o ∧ cpNum = o.cpNum) ∨ (∃ o, i = .mrc o ∧ cpNum = o.cpNum)

/-- Whatever a coprocessor instruction does, it does on the answer to the offer of its own word (R343). -/
theorem exec_eq_whenAccepted (s : State) {i : Instr} {cpNum : BitVec 4} (h : NamesCoproc i cpNum) :
    ∃ k, exec i s = whenAccepted i.cond s cpNum (encode i) k := by
  obtain ⟨o, rfl, rfl⟩ | ⟨o, rfl, rfl⟩ | ⟨o, rfl, rfl⟩ | ⟨o, rfl, rfl⟩ | ⟨o, rfl, rfl⟩ := h <;> exact ⟨_, rfl⟩

/-- An offer that no coprocessor accepts is the undefined instruction trap, whatever the instruction was for (R344). -/
theorem whenAccepted_absent {c : Cond} {s : State} {cpNum : BitVec 4} {w : Word} (k : Coproc → Nat → Result)
    (hc : condPassed c s.psr = true) (h : offer s cpNum w = .absent) : whenAccepted c s cpNum w k = .next s.undefinedTrap := by
  rw [whenAccepted, ifPassed_true _ _ _ hc, h]

/-- Settles O54: the row's own effect is behind the offer, so that only the trap is left. -/
theorem coprocessorAbsentTraps : Obligations.CoprocessorAbsentTraps := by
  intro s i cpNum hnames hc habsent
  obtain ⟨k, hexec⟩ := exec_eq_whenAccepted s hnames
  exact ⟨s.undefinedTrap, hexec.trans (whenAccepted_absent k hc habsent), s.undefinedTrap_spec⟩

/-! ### CDP and MRC (R346, R360) -/

/-- An advance leaves alone what a coprocessor's register transfer or data operation must, if before it only registers, PSR, coprocessors
and draws were written. -/
theorem KeepsForCoproc.advance {s t : State} (h : ∃ r p c d, t = { s with regs := r, psr := p, coprocs := c, draws := d }) :
    KeepsForCoproc s t.advance := by
  obtain ⟨r, p, c, d, rfl⟩ := h
  exact ⟨rfl, KeepsMemory.of_eq rfl rfl rfl, ⟨rfl, rfl, rfl, rfl, rfl, rfl⟩, rfl, rfl⟩

theorem exec_cdp_accepted {s : State} {o : Cdo} {cp : Coproc} {n : Nat} (hc : condPassed o.cond s.psr = true)
    (h : AcceptedBy s o.cpNum (.cdp o) cp n) :
    exec (.cdp o) s = .next (s.setCoproc o.cpNum (cp.hand (.dataOp (encode (.cdp o))))).advance :=
  (whenAccepted_accepted _ hc h).trans rfl

theorem exec_mrc_accepted {s : State} {o : Crt} {cp : Coproc} {n : Nat} (hc : condPassed o.cond s.psr = true)
    (h : AcceptedBy s o.cpNum (.mrc o) cp n) :
    exec (.mrc o) s = .next ((s.setCoproc o.cpNum (cp.hand (.fromAprm (encode (.mrc o)) (mrcValue o s)))).drawn 1).advance :=
  (whenAccepted_accepted _ hc h).trans rfl

theorem mrcValue_register (s : State) {o : Crt} (h : o.rd ≠ 15) : mrcValue o s = s.x o.rd := if_neg h

/-- Sent to a coprocessor, R15 is 8 or 12 bytes ahead (R360, D22). -/
theorem mrcValue_r15 (s : State) {o : Crt} (h : o.rd = 15) : mrcValue o s = s.r15v 2 ∨ mrcValue o s = s.r15v 3 := by
  rw [mrcValue, if_pos h]
  cases s.freeBit 0 with
  | false => exact .inl rfl
  | true => exact .inr rfl

/-- Settles O55: each is one message to the coprocessor and the advance, and the message of MRC holds the word of R360. -/
theorem coprocessorReceives : Obligations.CoprocessorReceives := by
  intro s cp n
  refine ⟨fun o hc hacc => ?cdp, fun o hc hacc => ?mrc⟩
  case cdp =>
    exact ⟨_, exec_cdp_accepted hc hacc, rfl, rfl, .advance ⟨_, _, _, _, rfl⟩,
      s.coprocs_setCoproc_same o.cpNum _, s.setCoproc_keepsOthers o.cpNum _⟩
  case mrc =>
    exact ⟨_, mrcValue o s, exec_mrc_accepted hc hacc, rfl, rfl, .advance ⟨_, _, _, _, rfl⟩,
      mrcValue_register s, mrcValue_r15 s, s.coprocs_setCoproc_same o.cpNum _, s.setCoproc_keepsOthers o.cpNum _⟩

/-! ### MCR (R358, R359) -/

/-- The word an MCR brings: the head of the coprocessor's queue, a free word where that is empty (R345; log entry 10). -/
def mcrValue (s : State) (cp : Coproc) : Word := (cp.outgoing.head?).getD (s.freeWord 0)

theorem mcrValue_of_queued (s : State) {cp : Coproc} {w : Word} (h : cp.outgoing.head? = some w) : mcrValue s cp = w := by
  rw [mcrValue, h, Option.getD_some]

/-- The state in which the word of an MCR has left its coprocessor and is not written yet. -/
def mcrSupplied (s : State) (o : Crt) (cp : Coproc) : State :=
  (s.setCoproc o.cpNum ((cp.dropOut 1).hand (.toAprm (encode (.mcr o)) (mcrValue s cp)))).drawn 1

/-- Where the word of an MCR goes: to Rd, or to the flags alone where Rd is R15 (R358, R359). -/
def mcrWrite (o : Crt) (v : Word) (t : State) : State :=
  if o.rd = 15 then { t with psr := t.psr.writeFlags v } else t.setX o.rd v

theorem mcrWrite_register {o : Crt} (v : Word) (t : State) (h : o.rd ≠ 15) : mcrWrite o v t = t.setX o.rd v := if_neg h

theorem mcrWrite_r15 {o : Crt} (v : Word) (t : State) (h : o.rd = 15) :
    mcrWrite o v t = { t with psr := t.psr.writeFlags v } := if_pos h

theorem exec_mcr_accepted {s : State} {o : Crt} {cp : Coproc} {n : Nat} (hc : condPassed o.cond s.psr = true)
    (h : AcceptedBy s o.cpNum (.mcr o) cp n) :
    exec (.mcr o) s = .next (mcrWrite o (mcrValue s cp) (mcrSupplied s o cp)).advance :=
  (whenAccepted_accepted _ hc h).trans rfl

/-- Settles O56, by where the word goes: the coprocessor has supplied it and noted it either way. -/
theorem coprocessorToRegister : Obligations.CoprocessorToRegister := by
  intro s cp n o hc hacc
  refine ⟨_, mcrValue s cp, exec_mcr_accepted hc hacc, fun w hw => mcrValue_of_queued s hw, ?_⟩
  by_cases hrd : o.rd = 15
  · rw [mcrWrite_r15 _ _ hrd]
    exact ⟨fun h => absurd hrd h, fun _ => rfl, KeepsRegs.of_eq rfl, .advance ⟨_, _, _, _, rfl⟩, s.coprocs_setCoproc_same o.cpNum _,
      s.setCoproc_keepsOthers o.cpNum _⟩
  · rw [mcrWrite_register _ _ hrd]
    exact ⟨fun _ => ⟨State.x_setX_same _ _ _ hrd, rfl⟩, fun h => absurd h hrd, KeepsRegs.of_write rfl (List.mem_singleton_self o.rd),
      .advance ⟨_, _, _, _, rfl⟩, s.coprocs_setCoproc_same o.cpNum _, s.setCoproc_keepsOthers o.cpNum _⟩

end Sys2Proof.Machine
end

section
/-! RES high, RES low again, and what RES cuts (R460, R462): the hold, the reset entry, and the write set of what was running. -/

namespace Sys2Proof.Machine

/-! ### The step, by what the boundary and the fetch answer (R424) -/

theorem step_of_boundary {s t : State} (h : boundary s = some t) : step s = .next t := by
  rw [step, h]

theorem step_of_fetchAbort {s : State} (hb : boundary s = none) (hf : fetch s = none) :
    step s = .next (s.beginInstr.prefetchAbortOrCut s.pins.cut) := by
  rw [step, hb, hf]

theorem step_of_instruction {s : State} {w : Word} (hb : boundary s = none) (hf : fetch s = some w) (hstale : s.pipe.stale0 = false)
    (hhazard : hazardBlocks s (decodeWord w) = false) : step s = execOrCut s.pins.cut (decodeWord w) s.beginInstr := by
  simp [step, hb, hf, hstale, hhazard]

theorem boundary_of_res {s : State} (hres : s.pins.res = true) : boundary s = some s.heldInReset := if_pos hres

theorem boundary_of_inReset {s : State} (hres : s.pins.res = false) (hreset : s.inReset = true) : boundary s = some s.leaveReset := by
  simp [boundary, hres, hreset]

theorem boundary_of_firq {s : State} (hres : s.pins.res = false) (hreset : s.inReset = false) (hfirq : s.pins.firq = true)
    (hf : s.psr.f = false) : boundary s = some (s.interrupt .firq) := by
  simp [boundary, hres, hreset, hfirq, hf]

theorem boundary_of_irq {s : State} (hres : s.pins.res = false) (hreset : s.inReset = false)
    (hfirq : s.pins.firq = true → s.psr.f = true) (hirq : s.pins.irq = true) (hi : s.psr.i = false) :
    boundary s = some (s.interrupt .irq) := by
  have hmasked : ¬ (s.pins.firq = true ∧ s.psr.f = false) := fun ⟨hasserted, hclear⟩ => by simp [hfirq hasserted] at hclear
  simp [boundary, hres, hreset, hmasked, hirq, hi]

theorem fetch_of_aborted {s : State} (h : s.aborted (fetchCycle s) = true) : fetch s = none := if_pos h

/-! ### The hold and the reset entry (R460) -/

/-- While RES is high nothing but the reset latch and the sample of the inputs changes. -/
theorem State.heldInReset_spec (s : State) : s.heldInReset.inReset = true ∧ s.heldInReset.regs = s.regs ∧
    s.heldInReset.pc = s.pc ∧ s.heldInReset.psr = s.psr ∧ KeepsMemory s s.heldInReset :=
  ⟨State.nextPins_inReset _, State.nextPins_regs _, State.nextPins_pc _, State.nextPins_psr _,
    KeepsMemory.of_eq (State.nextPins_mem _) (State.nextPins_memMap _) (State.nextPins_begun _)⟩

theorem Psr.enter_reset (p : Psr) : p.enter .reset = { p with i := true, f := true, mode := .svc } := by
  simp [Psr.enter, Trap.setsF, Trap.mode]

/-- The reset entry writes R14_svc alone of the registers, and leaves the flags and memory (R402, R460). -/
theorem State.leaveReset_spec (s : State) : s.leaveReset.inReset = false ∧ s.leaveReset.pc = 0 ∧
    s.leaveReset.psr = { s.psr with i := true, f := true, mode := .svc } ∧
    (∀ p, p ≠ .svc 1 → s.leaveReset.regs.get p = s.regs.get p) ∧ KeepsMemory s s.leaveReset :=
  ⟨rfl, rfl, s.psr.enter_reset, fun p hp => State.enter_other _ .reset 0 p hp, KeepsMemory.of_eq rfl rfl rfl⟩

/-! ### An instruction that RES cuts (R462) -/

theorem execOrCut_of_cut {cut : ResCut} {i : Instr} {s : State} (hcut : cut ≠ .no) (hmeaning : ∀ r, exec i s ≠ .refused r) :
    execOrCut cut i s = .next (s.cutShort i) := by
  rw [execOrCut, if_neg hcut]
  cases hexec : exec i s with
  | next t => rfl
  | fault r => rfl
  | refused r => exact absurd hexec (hmeaning r)

section
variable (s : State) (i : Instr)

@[simp] theorem State.cutShort_inReset : (s.cutShort i).inReset = true := rfl

@[simp] theorem State.cutShort_memMap : (s.cutShort i).memMap = s.memMap := by
  obtain ⟨r, m, n, z, c, v, d, hstate, -⟩ := s.cutShort_spec i
  rw [hstate]

theorem State.cutShort_get_other {p : PhysReg} (hp : p ∉ (effectiveWrites s i).regs) :
    (s.cutShort i).regs.get p = s.regs.get p := by
  obtain ⟨r, m, n, z, c, v, d, hstate, hregs, -⟩ := s.cutShort_spec i
  rw [hstate]
  exact hregs p hp

/-- A cut changes no bit of the PSR but N, Z, C and V. -/
theorem State.cutShort_psr : (s.cutShort i).psr = { s.psr with
    n := (s.cutShort i).psr.n, z := (s.cutShort i).psr.z, c := (s.cutShort i).psr.c, v := (s.cutShort i).psr.v } := by
  obtain ⟨r, m, n, z, c, v, d, hstate, -⟩ := s.cutShort_spec i
  rw [hstate]

theorem State.cutShort_psr_of_noFlags (h : (effectiveWrites s i).flags = .none) : (s.cutShort i).psr = s.psr := by
  obtain ⟨r, m, n, z, c, v, d, hstate, -, hflags, -⟩ := s.cutShort_spec i
  obtain ⟨rfl, rfl, rfl, rfl⟩ := hflags h
  rw [hstate]

theorem State.cutShort_v_of_nzc (h : (effectiveWrites s i).flags = .nzc) : (s.cutShort i).psr.v = s.psr.v := by
  obtain ⟨r, m, n, z, c, v, d, hstate, -, -, hv, -⟩ := s.cutShort_spec i
  rw [hstate]
  exact hv h

theorem State.cutShort_cellAt_other {x : Word} (hwf : s.mem.wf = true)
    (hx : ∀ k, k < (effectiveWrites s i).store.size → s.bus x ≠ s.bus ((effectiveWrites s i).store.addr + BitVec.ofNat 32 k)) :
    (s.cutShort i).cellAt x = s.cellAt x := by
  obtain ⟨r, m, n, z, c, v, d, hstate, -, -, -, hmem⟩ := s.cutShort_spec i
  obtain ⟨-, hcells⟩ := hmem hwf
  rw [hstate]
  exact hcells x hx

end

/-! ### An entry that RES cuts (R462) -/

theorem State.interrupt_entryCut (s : State) (e : Trap) (hcut : s.pins.cut = .atOnce) :
    EntryCut s (s.interrupt e) (linkReg e.mode) := by
  obtain ⟨hpsr, hregs, hcells⟩ := s.interrupt_regs e
  refine ⟨?held, hregs, ?flags, hcells⟩
  case held => simp [State.interrupt, hcut]
  case flags => simp [hpsr]

/-- A prefetch abort that RES cuts leaves even R14_svc, which the reset entry writes (R404, R460). -/
theorem State.prefetchAbort_entryCut (s : State) {cut : ResCut} (hcut : cut ≠ .no) (link : PhysReg) :
    EntryCut s (s.beginInstr.prefetchAbortOrCut cut) link := by
  rw [State.prefetchAbortOrCut, if_neg hcut]
  exact ⟨rfl, by simp, by simp, KeepsCells.of_eq s.beginInstr_mem s.beginInstr_memMap⟩

/-! ### The beginning of an instruction leaves memory and the bus as they are -/

@[simp] theorem State.beginInstr_bus (s : State) (a : Word) : s.beginInstr.bus a = s.bus a := by
  rw [State.bus, State.bus, State.beginInstr_memMap]

@[simp] theorem State.beginInstr_cellAt (s : State) (a : Word) : s.beginInstr.cellAt a = s.cellAt a :=
  State.cellAt_of_eq s.beginInstr_mem s.beginInstr_memMap a

/-! ### The step under RES -/

/-- Settles O9: the step is found clause by clause from the boundary and the fetch, and what it leaves is what the hold, the reset
entry, the cut instruction or the cut entry leaves. -/
theorem resetHeldAndLeft : Obligations.ResetHeldAndLeft := by
  intro s
  refine ⟨fun hres => ?held, fun hres hreset => ?left, fun w hb hf hstale hhazard hcut hmeaning => ?instruction,
    fun hres hreset hcut hfirq hf => ?firq, fun hres hreset hcut hfirq hirq hi => ?irq, fun hb hab hcut => ?abort⟩
  case held => exact ⟨_, step_of_boundary (boundary_of_res hres), s.heldInReset_spec⟩
  case left => exact ⟨_, step_of_boundary (boundary_of_inReset hres hreset), s.leaveReset_spec⟩
  case instruction =>
    have hstep := (step_of_instruction hb hf hstale hhazard).trans (execOrCut_of_cut hcut hmeaning)
    refine ⟨_, hstep, State.cutShort_inReset _ _, fun p hp => ?regs, ?psr, fun hflags => ?noFlags, fun hflags => ?overflow, ?map,
      fun hwf x hx => ?cells⟩
    case regs => simpa using State.cutShort_get_other _ _ hp
    case psr => simpa only [State.beginInstr_psr] using State.cutShort_psr s.beginInstr (decodeWord w)
    case noFlags => simpa using State.cutShort_psr_of_noFlags _ _ hflags
    case overflow => simpa using State.cutShort_v_of_nzc _ _ hflags
    case map => simp
    case cells =>
      have hcell : (s.beginInstr.cutShort (decodeWord w)).cellAt x = s.beginInstr.cellAt x :=
        State.cutShort_cellAt_other _ _ (by rwa [State.beginInstr_mem]) (by simpa only [State.beginInstr_bus] using hx)
      rwa [State.beginInstr_cellAt] at hcell
  case firq => exact ⟨_, step_of_boundary (boundary_of_firq hres hreset hfirq hf), s.interrupt_entryCut .firq hcut⟩
  case irq => exact ⟨_, step_of_boundary (boundary_of_irq hres hreset hfirq hirq hi), s.interrupt_entryCut .irq hcut⟩
  case abort => exact ⟨_, step_of_fetchAbort hb (fetch_of_aborted hab), s.prefetchAbort_entryCut hcut (.svc 1)⟩

end Sys2Proof.Machine
end

section
/-! What an instruction that completes can have done (R14, R24, R36, R410), said once for all 77 rows: to memory, to the registers
its mode does not see, and to the PSR, the settling window and the marks on the prefetched words. -/

namespace Sys2Proof.Machine

/-! ### The kinds of instruction the rules single out -/

/-- STR, STRB, STM and STC. -/
def IsStore (i : Instr) : Prop :=
  (∃ o, i = .strImm o) ∨ (∃ o, i = .strReg o) ∨ (∃ o, i = .strbImm o) ∨ (∃ o, i = .strbReg o) ∨ (∃ o, i = .stm o) ∨ (∃ o, i = .stc o)

/-- The block transfers with S that write the user bank: an LDM without R15, or the write-back of an STM (R292, R293). -/
def WritesUserBank (i : Instr) : Prop :=
  ∃ o, o.s = true ∧ (i = .ldm o ∧ o.list.getLsbD 15 = false ∨ i = .stm o ∧ o.w = true)

/-- Whether an instruction may write status bits other than by a trap (R33). A row without a meaning writes none; it is not told apart. -/
def mayWriteStatus : Instr → Bool
  | .b _ | .bl _ | .ldrImm _ | .ldrReg _ | .ldrbImm _ | .ldrbReg _ | .strImm _ | .strReg _ | .strbImm _ | .strbReg _ | .stm _
  | .swi _ | .ldc _ | .stc _ | .cdp _ | .mrc _ | .undefined1 _ | .undefined2 _ => false
  | _ => true

/-- Mode `m` gives the register no number (R23). -/
def HiddenFrom (m : Mode) (p : PhysReg) : Prop := ∀ n, phys m n ≠ some p

/-- R0 to R7 are hidden from no mode, so that a hidden register that User mode sees is of the user bank. -/
theorem usr_of_hiddenFrom {m : Mode} {p : PhysReg} (h : HiddenFrom m p) {n : RegNum} (hn : phys .user n = some p) : ∃ k, p = .usr k := by
  by_cases hlow : n.toNat < 8
  · have hseen : phys m n = phys .user n := by simp [phys, hlow]
    exact absurd (hseen.trans hn) (h n)
  · simp only [phys, hlow, dite_false] at hn
    split at hn
    · exact ⟨_, (Option.some.inj hn).symm⟩
    · cases hn

/-! ### What an instruction does -/

/-- What instruction `i` has done to memory and to the hidden registers in passing from `s` to `t`. -/
structure DataEffect (i : Instr) (s t : State) : Prop where
  memMap : t.memMap = s.memMap
  wf : s.mem.wf = true → t.mem.wf = true
  mem : t.mem = s.mem ∨ IsStore i ∧ condPassed i.cond s.psr = true
  hidden : ∀ p, HiddenFrom s.psr.mode p → t.regs.get p = s.regs.get p ∨ (∃ k, p = .usr k) ∧ WritesUserBank i

/-- Instruction `i` has changed neither the PSR nor the settling window so far. -/
structure Quiet (i : Instr) (s t : State) : Prop extends DataEffect i s t where
  psr : t.psr = s.psr
  window : t.hazard = s.hazard

/-- Instruction `i` has led from `s` to `t` without a trap. -/
structure RanOn (i : Instr) (s t : State) : Prop extends DataEffect i s t where
  stale2 : t.pipe.stale2 = false
  window : t.hazard = .userBankLoaded → s.hazard = .userBankLoaded ∨ s.psr.mode ≠ .user ∧ t.psr = s.psr
  user : s.psr.mode = .user → t.psr.mode = .user ∧ t.psr.i = s.psr.i ∧ t.psr.f = s.psr.f
  status : mayWriteStatus i = false → t.psr = s.psr

/-- The traps an instruction takes by itself (R320, R324, R405). -/
def Trap.OfInstr (e : Trap) : Prop := e = .undefinedInstruction ∨ e = .softwareInterrupt ∨ e = .dataAbort

/-- What an instruction that completes has done: it ran to its end, or it took a trap after what it had written. -/
inductive Effect (i : Instr) (s t : State) : Prop where
  | ran (h : RanOn i s t)
  | trapped (u : State) (e : Trap) (ret : PcWord) (he : e.OfInstr) (hu : Quiet i s u) (ht : t = u.enter e ret)

/-! ### The operations on the way -/

/-- Registers and memory as they were. -/
theorem DataEffect.of_eq {i : Instr} {s t : State} (hmem : t.mem = s.mem) (hmap : t.memMap = s.memMap) (hregs : t.regs = s.regs) :
    DataEffect i s t := ⟨hmap, fun h => by rwa [hmem], .inl hmem, fun _ _ => .inl (by rw [hregs])⟩

theorem Quiet.refl (i : Instr) (s : State) : Quiet i s s := ⟨.of_eq rfl rfl rfl, rfl, rfl⟩

section
variable {i : Instr} {s u : State}

/-- An update of the other fields. -/
theorem Quiet.congr {t : State} (h : Quiet i s u) (hregs : t.regs = u.regs) (hmem : t.mem = u.mem) (hmap : t.memMap = u.memMap)
    (hpsr : t.psr = u.psr) (hwindow : t.hazard = u.hazard) : Quiet i s t where
  memMap := hmap.trans h.memMap
  wf := by rw [hmem]; exact h.wf
  mem := by rw [hmem]; exact h.mem
  hidden := by rw [hregs]; exact h.hidden
  psr := hpsr.trans h.psr
  window := hwindow.trans h.window

theorem Quiet.advance (h : Quiet i s u) : Quiet i s u.advance := h.congr rfl rfl rfl rfl rfl

theorem Quiet.branchTo (h : Quiet i s u) (v : Word) : Quiet i s (u.branchTo v) := h.congr rfl rfl rfl rfl rfl

theorem Quiet.setCoproc (h : Quiet i s u) (k : BitVec 4) (c : Coproc) : Quiet i s (u.setCoproc k c) := h.congr rfl rfl rfl rfl rfl

theorem Quiet.drawn (h : Quiet i s u) (k : Nat) : Quiet i s (u.drawn k) := h.congr rfl rfl rfl rfl rfl

/-- A register write, in the bank of the mode or in the user bank by the block transfers that may. -/
theorem Quiet.setXIn (h : Quiet i s u) {user : Bool} (huser : user = true → WritesUserBank i) (n : RegNum) (v : Word) :
    Quiet i s (u.setXIn user n v) where
  memMap := h.memMap
  wf := h.wf
  mem := h.mem
  psr := h.psr
  window := h.window
  hidden := fun p hp => by
    by_cases hn : phys (if user then .user else u.psr.mode) n = some p
    · cases user with
      | true => exact .inr ⟨usr_of_hiddenFrom hp hn, huser rfl⟩
      | false => exact absurd (h.psr ▸ hn) (hp n)
    · rw [State.setXIn_regs, Regs.get_write_other _ _ _ _ _ hn]
      exact h.hidden p hp

theorem Quiet.setX (h : Quiet i s u) (n : RegNum) (v : Word) : Quiet i s (u.setX n v) :=
  h.setXIn (user := false) nofun n v

theorem Quiet.setXorPc (h : Quiet i s u) (n : RegNum) (v : Word) : Quiet i s (u.setXorPc n v) := by
  obtain ⟨-, heq⟩ | ⟨-, heq⟩ := u.setXorPc_cases n v
  · rw [heq]; exact h.branchTo v
  · rw [heq]; exact h.setX n v

theorem Quiet.writeBack (h : Quiet i s u) (wb : Bool) (n : RegNum) (v : Word) : Quiet i s (u.writeBack wb n v) := by
  cases wb
  · exact h
  · exact h.setXorPc n v

/-- Words loaded to registers of the bank a load multiple uses. -/
theorem Quiet.loadRegs (h : Quiet i s u) {user : Bool} (huser : user = true → WritesUserBank i) (l : List (RegNum × Word)) :
    Quiet i s (u.loadRegs user l) := by
  induction l generalizing u with
  | nil => exact h
  | cons e l ih =>
    unfold State.loadRegs
    split
    · exact ih h
    · exact ih (h.setXIn huser _ _)

/-- What a store whose condition passes has written. -/
theorem Quiet.of_store (hi : IsStore i) (hc : condPassed i.cond s.psr = true)
    (hframe : ∃ m p d, u = { s with mem := m, pipe := p, draws := d }) (hwf : s.mem.wf = true → u.mem.wf = true) : Quiet i s u := by
  obtain ⟨m, p, d, rfl⟩ := hframe
  exact ⟨⟨rfl, hwf, .inr ⟨hi, hc⟩, fun _ _ => .inl rfl⟩, rfl, rfl⟩

/-! ### The ends -/

theorem Effect.of_quiet {t : State} (h : Quiet i s t) (hstale : t.pipe.stale2 = false) : Effect i s t :=
  .ran { h with
    stale2 := hstale
    window := fun ht => .inl (h.window ▸ ht)
    user := fun hs => by rw [h.psr]; exact ⟨hs, rfl, rfl⟩
    status := fun _ => h.psr }

theorem Effect.advance (h : Quiet i s u) : Effect i s u.advance := .of_quiet h.advance rfl

theorem Effect.branchTo (h : Quiet i s u) (v : Word) : Effect i s (u.branchTo v) := .of_quiet (h.branchTo v) rfl

theorem Effect.dataAbort (h : Quiet i s u) (ret : PcWord) : Effect i s (u.enter .dataAbort ret) :=
  .trapped u .dataAbort ret (.inr (.inr rfl)) h rfl

theorem Effect.undefinedTrap (i : Instr) (s : State) : Effect i s s.undefinedTrap :=
  .trapped s .undefinedInstruction (s.pc + 1) (.inl rfl) (.refl i s) rfl

/-- An end that also writes status bits, those that User mode protects excepted (R36), and opens no window of a user-bank load. -/
theorem Effect.of_status {t : State} {p : Psr} (hi : mayWriteStatus i = true) (h : Quiet i s u)
    (hdata : t.regs = u.regs ∧ t.mem = u.mem ∧ t.memMap = u.memMap) (hstale : t.pipe.stale2 = false)
    (hwindow : t.hazard = u.hazard ∨ t.hazard = .modeChanged) (ht : t.psr = p)
    (hp : s.psr.mode = .user → p.mode = .user ∧ p.i = s.psr.i ∧ p.f = s.psr.f) : Effect i s t := by
  obtain ⟨hregs, hmem, hmap⟩ := hdata
  refine .ran ⟨⟨hmap.trans h.memMap, ?_, ?_, ?_⟩, hstale, fun hopen => ?_, ht ▸ hp, fun hno => absurd (hi.symm.trans hno) (by decide)⟩
  · rw [hmem]; exact h.wf
  · rw [hmem]; exact h.mem
  · rw [hregs]; exact h.hidden
  · obtain hsame | hchanged := hwindow
    · exact .inl (by rw [← h.window, ← hsame, hopen])
    · rw [hchanged] at hopen; cases hopen

/-- In User mode a write of the whole PSR leaves the protected bits (R36). -/
theorem Psr.write_keeps_protected {p : Psr} (h : p = s.psr) (v : Word) (hs : s.psr.mode = .user) :
    (p.write v).mode = .user ∧ (p.write v).i = s.psr.i ∧ (p.write v).f = s.psr.f := by
  subst h
  obtain ⟨hi, hf, hmode⟩ := s.psr.write_masksAndMode_user v hs
  exact ⟨hmode, hi, hf⟩

theorem Effect.returnTo (hi : mayWriteStatus i = true) (h : Quiet i s u) (v : Word) : Effect i s (u.returnTo v) :=
  .of_status hi h ⟨rfl, rfl, rfl⟩ rfl (.inl rfl) rfl (Psr.write_keeps_protected h.psr v)

end

/-! ### The condition and the offer -/

/-- A conditional instruction has its effect when what it does under its condition has (R142). -/
theorem ifPassed_effect {i : Instr} {s t : State} {c : Cond} {k : Result} (h : ifPassed c s k = .next t)
    (hpassed : condPassed c s.psr = true → k = .next t → Effect i s t) : Effect i s t := by
  obtain ⟨-, rfl⟩ | ⟨hc, hk⟩ := ifPassed_cases _ _ _ _ h
  · exact .advance (.refl i s)
  · exact hpassed hc hk

theorem ifPassed_next_effect {i : Instr} {s t u : State} {c : Cond} (h : ifPassed c s (.next u) = .next t) (hu : Effect i s u) :
    Effect i s t :=
  ifPassed_effect h fun _ hk => by injection hk with hk; rwa [← hk]

/-- An instruction that is refused when its condition passes can only advance (R175, R326). -/
theorem refused_effect {i : Instr} {c : Cond} {r : Refusal} {s t : State} (h : ifPassed c s (.refused r) = .next t) : Effect i s t :=
  ifPassed_effect h fun _ hk => nomatch hk

/-- A coprocessor instruction has its effect when what it does once accepted has (R343, R344). -/
theorem whenAccepted_effect {i : Instr} {s t : State} {c : Cond} {n : BitVec 4} {w : Word} {k : Coproc → Nat → Result}
    (h : whenAccepted c s n w k = .next t) (haccepted : ∀ cp m, condPassed c s.psr = true → k cp m = .next t → Effect i s t) :
    Effect i s t := by
  obtain ⟨-, heq⟩ | ⟨-, -, heq⟩ | ⟨cp, m, -, -, -, heq⟩ | ⟨cp, m, hc, -, -, heq⟩ := whenAccepted_cases c s n w k <;> rw [heq] at h
  · injection h with h; rw [← h]; exact .advance (.refl i s)
  · injection h with h; rw [← h]; exact .undefinedTrap i s
  · cases h
  · exact haccepted cp m hc h

/-! ### Data processing and the multiplies -/

theorem State.writeResult_effect {i : Instr} (hi : mayWriteStatus i = true) (s : State) (setFlags : Bool) (rd : RegNum) (r : AluOut) :
    Effect i s (s.writeResult setFlags rd r) := by
  unfold State.writeResult
  split <;> cases setFlags
  · exact .branchTo (.refl i s) _
  · exact .returnTo hi (.refl i s) _
  · exact .advance ((Quiet.refl i s).setX _ _)
  · exact .of_status hi ((Quiet.refl i s).setX rd r.value) ⟨rfl, rfl, rfl⟩ rfl (.inl rfl) rfl fun h => ⟨h, rfl, rfl⟩

theorem State.writeTest_effect {i : Instr} (hi : mayWriteStatus i = true) (s : State) (rd : RegNum) (r : AluOut) :
    Effect i s (s.writeTest rd r) := by
  unfold State.writeTest
  split
  · refine .of_status hi (.refl i s) ⟨rfl, rfl, rfl⟩ rfl ?_ rfl (Psr.write_keeps_protected rfl r.value)
    simp only [State.advance_hazard, State.writePsrOnly_hazard]
    split
    · exact .inl rfl
    · exact .inr rfl
  · exact .of_status hi (.refl i s) ⟨rfl, rfl, rfl⟩ rfl (.inl rfl) rfl fun h => ⟨h, rfl, rfl⟩

section
variable {i : Instr} {s t : State}

theorem dpImm_effect {f : AluFn} {o : Dp ImmOp} (hi : mayWriteStatus i = true) (h : dpImm f o s = .next t) : Effect i s t :=
  ifPassed_next_effect h (s.writeResult_effect hi _ _ _)

theorem dpReg_effect {f : AluFn} {o : Dp RegOp} (hi : mayWriteStatus i = true) (h : dpReg f o s = .next t) : Effect i s t :=
  ifPassed_next_effect h (s.writeResult_effect hi _ _ _)

theorem dpRegShift_effect {f : AluFn} {o : Dp RegShiftOp} (hi : mayWriteStatus i = true) (h : dpRegShift f o s = .next t) :
    Effect i s t :=
  ifPassed_next_effect h (s.writeResult_effect hi _ _ _)

theorem testImm_effect {f : AluFn} {o : Test ImmOp} (hi : mayWriteStatus i = true) (h : testImm f o s = .next t) : Effect i s t :=
  ifPassed_next_effect h (s.writeTest_effect hi _ _)

theorem testReg_effect {f : AluFn} {o : Test RegOp} (hi : mayWriteStatus i = true) (h : testReg f o s = .next t) : Effect i s t :=
  ifPassed_next_effect h (s.writeTest_effect hi _ _)

theorem testRegShift_effect {f : AluFn} {o : Test RegShiftOp} (hi : mayWriteStatus i = true) (h : testRegShift f o s = .next t) :
    Effect i s t :=
  ifPassed_next_effect h (s.writeTest_effect hi _ _)

end

theorem mulResult_effect {i : Instr} (hi : mayWriteStatus i = true) (o : Mul) (s : State) (r : Word) : Effect i s (mulResult o s r) := by
  unfold mulResult
  cases o.s
  · exact .advance ((Quiet.refl i s).setX _ _)
  · exact .of_status hi ((Quiet.refl i s).setX o.rd r) ⟨rfl, rfl, rfl⟩ rfl (.inl rfl) rfl fun h => ⟨h, rfl, rfl⟩

theorem mulToR15_effect {i : Instr} (hi : mayWriteStatus i = true) (o : Mul) (s : State) : Effect i s (mulToR15 o s) := by
  unfold mulToR15
  cases o.s
  · exact .advance (.refl i s)
  · exact .of_status hi (.refl i s) ⟨rfl, rfl, rfl⟩ rfl (.inl rfl) rfl fun h => ⟨h, rfl, rfl⟩

theorem mlaMeaningless_effect {i : Instr} (hi : mayWriteStatus i = true) (o : Mul) (s : State) : Effect i s (mlaMeaningless o s) := by
  unfold mlaMeaningless
  cases o.s
  · exact .advance (((Quiet.refl i s).setX _ _).drawn 1)
  · exact .of_status hi ((Quiet.refl i s).setX o.rd (s.freeWord 0)) ⟨rfl, rfl, rfl⟩ rfl (.inl rfl) rfl fun h => ⟨h, rfl, rfl⟩

theorem execMul_effect {o : Mul} {s t : State} (h : execMul o s = .next t) : Effect (.mul o) s t := by
  refine ifPassed_next_effect h ?_
  split
  · exact mulToR15_effect rfl o s
  · split <;> exact mulResult_effect rfl o s _

theorem execMla_effect {o : Mul} {s t : State} (h : execMla o s = .next t) : Effect (.mla o) s t := by
  refine ifPassed_next_effect h ?_
  split
  · exact mulToR15_effect rfl o s
  · split
    · exact mlaMeaningless_effect rfl o s
    · exact mulResult_effect rfl o s _

/-! ### Single transfers -/

/-- A register write or a branch marks no third prefetched word. -/
theorem State.setXorPc_stale2 {s : State} (h : s.pipe.stale2 = false) (n : RegNum) (v : Word) : (s.setXorPc n v).pipe.stale2 = false := by
  obtain ⟨-, heq⟩ | ⟨-, heq⟩ := s.setXorPc_cases n v
  · rw [heq]; rfl
  · rw [heq]; exact h

theorem State.writeBack_stale2 {s : State} (h : s.pipe.stale2 = false) (wb : Bool) (n : RegNum) (v : Word) :
    (s.writeBack wb n v).pipe.stale2 = false := by
  cases wb
  · exact h
  · exact State.setXorPc_stale2 h n v

theorem finishLoad_effect {α : Type} (i : Instr) (o : Sdt α) (s : State) (a : SdtAddr) (loaded : Option Word) :
    Effect i s (finishLoad o s a loaded) := by
  cases loaded with
  | none => exact .dataAbort (.refl i s) _
  | some v =>
    exact .of_quiet (((Quiet.refl i s).advance.writeBack _ _ _).setXorPc _ _)
      (State.setXorPc_stale2 (State.writeBack_stale2 rfl _ _ _) _ _)

theorem finishStore_effect {α : Type} {i : Instr} (o : Sdt α) {s : State} {w : Written} (a : SdtAddr) (h : Quiet i s w.state) :
    Effect i s (finishStore o w a) := by
  unfold finishStore
  split
  · exact .dataAbort h _
  · exact .of_quiet (h.advance.writeBack _ _ _) (State.writeBack_stale2 rfl _ _ _)

section
variable {α : Type} {i : Instr} {o : Sdt α} {off : Word} {s t : State}

theorem loadWord_effect (h : loadWord o off s = .next t) : Effect i s t := by
  obtain ⟨-, rfl⟩ | ⟨-, rfl⟩ := loadWord_cases o off s t h
  · exact .advance (.refl i s)
  · exact finishLoad_effect i o s _ _

theorem loadByte_effect (h : loadByte o off s = .next t) : Effect i s t := by
  obtain ⟨-, rfl⟩ | ⟨-, rfl⟩ := loadByte_cases o off s t h
  · exact .advance (.refl i s)
  · exact finishLoad_effect i o s _ _

theorem storeWord_effect (hi : IsStore i) (hcond : i.cond = o.cond) (h : storeWord o off s = .next t) : Effect i s t := by
  obtain ⟨-, rfl⟩ | ⟨hc, rfl⟩ := storeWord_cases o off s t h
  · exact .advance (.refl i s)
  · obtain ⟨m, p, hframe, -⟩ := s.writeWord_frame (forcedTran o.p o.w) (sdtAddr s o off).addr (sdtStoreValue o s)
    exact finishStore_effect o _ (.of_store hi (hcond ▸ hc) ⟨m, p, _, hframe⟩ (s.writeWord_wf _ _ _))

theorem storeByteOf_effect (hi : IsStore i) (hcond : i.cond = o.cond) (h : storeByteOf o off s = .next t) : Effect i s t := by
  obtain ⟨-, rfl⟩ | ⟨hc, rfl⟩ := storeByteOf_cases o off s t h
  · exact .advance (.refl i s)
  · obtain ⟨m, p, hframe, -⟩ := s.writeByte_frame (forcedTran o.p o.w) (sdtAddr s o off).addr (field (sdtStoreValue o s) 0 8)
    exact finishStore_effect o _ (.of_store hi (hcond ▸ hc) ⟨m, p, _, hframe⟩ (s.writeByte_wf _ _ _))

end

/-! ### Block transfers -/

theorem loadsUserBank_iff (s : State) (o : Bdt) :
    loadsUserBank s o = true ↔ (o.s = true ∧ s.psr.mode ≠ .user) ∧ o.list.getLsbD 15 = false := by
  simp [loadsUserBank]

theorem ldm_writesUserBank {s : State} {o : Bdt} (h : loadsUserBank s o = true) : WritesUserBank (.ldm o) := by
  obtain ⟨⟨hs, -⟩, hlist⟩ := (loadsUserBank_iff s o).1 h
  exact ⟨o, hs, .inl ⟨rfl, hlist⟩⟩

theorem stm_writesUserBank {s : State} {o : Bdt} (hwb : blockWb o = true) (h : storesUserBank s o = true) : WritesUserBank (.stm o) := by
  simp only [storesUserBank, blockWb, Bool.and_eq_true] at h hwb
  exact ⟨o, h.1, .inr ⟨rfl, hwb.1⟩⟩

theorem finishLdm_effect (o : Bdt) (s : State) (loads : List (RegNum × Word)) : Effect (.ldm o) s (finishLdm s o loads) := by
  have hloaded : Quiet (.ldm o) s
      ((if blockWb o then s.setXIn (loadsUserBank s o) o.rn (blockFinal s o) else s).loadRegs (loadsUserBank s o) loads) := by
    refine Quiet.loadRegs ?_ ldm_writesUserBank loads
    split
    · exact (Quiet.refl _ s).setXIn ldm_writesUserBank _ _
    · exact .refl _ s
  simp only [finishLdm]
  split
  · split
    · exact .returnTo rfl hloaded _
    · exact .branchTo hloaded _
  · refine .ran { hloaded.toDataEffect with
      stale2 := rfl
      window := fun hopen => ?_
      user := fun hs => by rw [State.noteUserLoad_psr, State.advance_psr, hloaded.psr]; exact ⟨hs, rfl, rfl⟩
      status := nofun }
    by_cases huser : loadsUserBank s o = true
    · obtain ⟨⟨-, hmode⟩, -⟩ := (loadsUserBank_iff s o).1 huser
      exact .inr ⟨hmode, hloaded.psr⟩
    · rw [State.noteUserLoad_hazard, if_neg huser, State.advance_hazard, hloaded.window] at hopen
      exact .inl hopen

theorem abortLdm_effect (o : Bdt) (s : State) (before : List (RegNum × Word)) : Effect (.ldm o) s (abortLdm s o before) := by
  have hloaded : Quiet (.ldm o) s (s.loadRegs (loadsUserBank s o) before.dropLast) := (Quiet.refl _ s).loadRegs ldm_writesUserBank _
  refine .dataAbort ?_ _
  split
  · exact hloaded.setXIn ldm_writesUserBank _ _
  · split
    · exact hloaded
    · exact hloaded.setX _ _

theorem execLdm_effect {o : Bdt} {s t : State} (h : execLdm o s = .next t) : Effect (.ldm o) s t := by
  obtain ⟨-, rfl⟩ | ⟨-, -, loads, rfl | rfl⟩ := execLdm_cases o s t h
  · exact .advance (.refl _ s)
  · exact finishLdm_effect o s loads
  · exact abortLdm_effect o s loads

theorem execStm_effect {o : Bdt} {s t : State} (h : execStm o s = .next t) : Effect (.stm o) s t := by
  obtain ⟨-, rfl⟩ | ⟨hc, -, w, rfl, hend⟩ := execStm_cases o s t h
  · exact .advance (.refl _ s)
  · obtain ⟨m, p, hframe, -⟩ := s.writeWords_frame false (blockFirst s o) 0 (stmValues s o 0 (listedRegs o.list))
    have hstored : Quiet (.stm o) s (s.writeWords false (blockFirst s o) 0 (stmValues s o 0 (listedRegs o.list))).state :=
      .of_store (by simp [IsStore]) hc ⟨m, p, _, hframe⟩ (s.writeWords_wf _ _ _ _)
    have hbase : Quiet (.stm o) s
        (stmBase s o (s.writeWords false (blockFirst s o) 0 (stmValues s o 0 (listedRegs o.list))).state) := by
      unfold stmBase
      split
      · next hwb => exact hstored.setXIn (stm_writesUserBank hwb) _ _
      · exact hstored
    obtain ⟨-, rfl⟩ | ⟨-, rfl⟩ := hend
    · exact .dataAbort hbase _
    · exact .advance hbase

/-! ### Coprocessor instructions -/

theorem Quiet.cdtWriteBack {i : Instr} {s u : State} (h : Quiet i s u) (o : Cdt) (a : SdtAddr) : Quiet i s (cdtWriteBack o a u) := by
  unfold Sys2Proof.Machine.cdtWriteBack
  split
  · exact h.setX _ _
  · exact h

theorem execCdp_effect {o : Cdo} {s t : State} (h : execCdp o s = .next t) : Effect (.cdp o) s t :=
  whenAccepted_effect h fun cp m _ hk => by
    injection hk with hk
    rw [← hk]
    exact .advance ((Quiet.refl _ s).setCoproc _ _)

theorem execMrc_effect {o : Crt} {s t : State} (h : execMrc o s = .next t) : Effect (.mrc o) s t :=
  whenAccepted_effect h fun cp m _ hk => by
    injection hk with hk
    rw [← hk]
    exact .advance (((Quiet.refl _ s).setCoproc _ _).drawn 1)

theorem execMcr_effect {o : Crt} {s t : State} (h : execMcr o s = .next t) : Effect (.mcr o) s t :=
  whenAccepted_effect h fun cp m _ hk => by
    injection hk with hk
    rw [← hk]
    split
    · exact .of_status rfl (.refl _ s) ⟨rfl, rfl, rfl⟩ rfl (.inl rfl) rfl fun h => ⟨h, rfl, rfl⟩
    · exact .advance ((((Quiet.refl _ s).setCoproc _ _).drawn 1).setX _ _)

theorem execLdc_effect {o : Cdt} {s t : State} (h : execLdc o s = .next t) : Effect (.ldc o) s t :=
  whenAccepted_effect h fun cp m _ hk => by
    split at hk
    · cases hk
    · simp only at hk
      split at hk <;> (injection hk with hk; rw [← hk])
      · exact .dataAbort ((Quiet.refl _ s).cdtWriteBack o _) _
      · exact .advance (((Quiet.refl _ s).setCoproc _ _).cdtWriteBack o _)

theorem execStc_effect {o : Cdt} {s t : State} (h : execStc o s = .next t) : Effect (.stc o) s t :=
  whenAccepted_effect h fun cp m hc hk => by
    obtain ⟨mem, p, hframe, -⟩ :=
      (s.drawn m).writeWords_frame (forcedTran o.p o.w) (cdtAddr s o).addr 0 (supplied s cp m)
    have hstored : Quiet (.stc o) s ((s.drawn m).writeWords (forcedTran o.p o.w) (cdtAddr s o).addr 0 (supplied s cp m)).state :=
      .of_store (by simp [IsStore]) hc ⟨mem, p, _, hframe⟩ ((s.drawn m).writeWords_wf _ _ _ _)
    split at hk
    · cases hk
    · simp only at hk
      split at hk <;> (injection hk with hk; rw [← hk])
      · exact .dataAbort (hstored.cdtWriteBack o _) _
      · exact .advance ((hstored.setCoproc _ _).cdtWriteBack o _)

/-! ### Every row -/

/-- What any instruction that completes has done. -/
theorem exec_effect {i : Instr} {s t : State} (h : exec i s = .next t) : Effect i s t := by
  cases i with
  | andImm o | eorImm o | subImm o | rsbImm o | addImm o | adcImm o | sbcImm o | rscImm o | orrImm o | movImm o | bicImm o | mvnImm o =>
    exact dpImm_effect rfl h
  | andReg o | eorReg o | subReg o | rsbReg o | addReg o | adcReg o | sbcReg o | rscReg o | orrReg o | movReg o | bicReg o | mvnReg o =>
    exact dpReg_effect rfl h
  | andRegShift o | eorRegShift o | subRegShift o | rsbRegShift o | addRegShift o | adcRegShift o | sbcRegShift o | rscRegShift o
  | orrRegShift o | movRegShift o | bicRegShift o | mvnRegShift o => exact dpRegShift_effect rfl h
  | tstImm o | teqImm o | cmpImm o | cmnImm o => exact testImm_effect rfl h
  | tstReg o | teqReg o | cmpReg o | cmnReg o => exact testReg_effect rfl h
  | tstRegShift o | teqRegShift o | cmpRegShift o | cmnRegShift o => exact testRegShift_effect rfl h
  | unspecifiedTestS0Imm o | unspecifiedTestS0Reg o | unspecifiedTestS0RegShift o | unallocatedA o | unallocatedB o | unallocatedC o
  | unallocatedD o => exact refused_effect h
  | mul o => exact execMul_effect h
  | mla o => exact execMla_effect h
  | undefined1 o | undefined2 o => exact ifPassed_next_effect h (.undefinedTrap _ s)
  | ldrImm o | ldrReg o => exact loadWord_effect h
  | ldrbImm o | ldrbReg o => exact loadByte_effect h
  | strImm o | strReg o => exact storeWord_effect (by simp [IsStore]) rfl h
  | strbImm o | strbReg o => exact storeByteOf_effect (by simp [IsStore]) rfl h
  | ldm o => exact execLdm_effect h
  | stm o => exact execStm_effect h
  | b o => exact ifPassed_next_effect h (.branchTo (.refl _ s) _)
  | bl o => exact ifPassed_next_effect h (.branchTo ((Quiet.refl _ s).setX _ _) _)
  | ldc o => exact execLdc_effect h
  | stc o => exact execStc_effect h
  | cdp o => exact execCdp_effect h
  | mcr o => exact execMcr_effect h
  | mrc o => exact execMrc_effect h
  | swi o => exact ifPassed_next_effect h (.trapped s .softwareInterrupt _ (.inr (.inl rfl)) (.refl _ s) rfl)

/-- Settles O17: of these rows one that runs to its end leaves the PSR, and a trap leaves its flags. -/
theorem transfersKeepFlags : Obligations.TransfersKeepFlags := by
  intro i s t hi h
  have hrow : mayWriteStatus i = false := by
    obtain ⟨o, rfl⟩ | ⟨o, rfl⟩ | ⟨o, rfl⟩ | ⟨o, rfl⟩ | ⟨o, rfl⟩ | ⟨o, rfl⟩ | ⟨o, rfl⟩ | ⟨o, rfl⟩ | ⟨o, rfl⟩ | ⟨o, rfl⟩ | ⟨o, rfl⟩ |
      ⟨o, rfl⟩ | ⟨o, rfl⟩ | ⟨o, rfl⟩ | ⟨o, rfl⟩ | ⟨o, rfl⟩ | ⟨o, rfl⟩ | ⟨o, rfl⟩ := hi <;> rfl
  obtain hran | ⟨u, e, ret, -, hu, rfl⟩ := exec_effect h
  · rw [hran.status hrow]
    exact ⟨rfl, rfl, rfl, rfl⟩
  · rw [State.enter_psr, hu.psr]
    exact ⟨rfl, rfl, rfl, rfl⟩

end Sys2Proof.Machine
end

section
/-! What every step does (R36, R422, R424, R462), said once, and the rules of the whole machine that follow: the invariant, the
protection of User mode, the hidden banks, and the instructions that change memory. -/

namespace Sys2Proof.Machine

/-! ### The kinds of step -/

/-- What a step that answers a next state has been. -/
inductive StepKind (s t : State) : Prop where
  | held (ht : t = s.heldInReset)
  | reset (ht : t = s.leaveReset)
  | interrupt (e : Trap) (he : e = .firq ∨ e = .irq) (ht : t = s.interrupt e)
  | prefetchAbort (ht : t = s.beginInstr.prefetchAbortOrCut s.pins.cut)
  | ran (w : Word) (hw : fetch s = some w) (ht : exec (decodeWord w) s.beginInstr = .next t)
  | cut (w : Word) (hw : fetch s = some w) (ht : t = s.beginInstr.cutShort (decodeWord w))

theorem stepKind_of_boundary {s t : State} (h : boundary s = some t) : StepKind s t := by
  obtain ⟨-, heq⟩ | ⟨-, -, heq⟩ | ⟨-, -, -, -, heq⟩ | ⟨-, -, -, -, -, heq⟩ | ⟨-, -, -, -, heq⟩ := boundary_cases s <;>
    rw [heq] at h <;> cases h
  · exact .held rfl
  · exact .reset rfl
  · exact .interrupt .firq (.inl rfl) rfl
  · exact .interrupt .irq (.inr rfl) rfl

theorem stepKind_of_step {s t : State} (h : step s = .next t) : StepKind s t := by
  obtain hb | ⟨-, -, ht⟩ | ⟨w, -, hw, -, -, hrun⟩ := step_cases s t h
  · exact stepKind_of_boundary hb
  · exact .prefetchAbort ht
  · obtain ⟨-, ht⟩ | ⟨-, -, ht⟩ := execOrCut_cases _ _ _ _ hrun
    · exact .ran w hw ht
    · exact .cut w hw ht

/-! ### What each kind leaves -/

@[simp] theorem State.heldInReset_regs (s : State) : s.heldInReset.regs = s.regs := State.nextPins_regs _
@[simp] theorem State.heldInReset_psr (s : State) : s.heldInReset.psr = s.psr := State.nextPins_psr _
@[simp] theorem State.heldInReset_mem (s : State) : s.heldInReset.mem = s.mem := State.nextPins_mem _
@[simp] theorem State.heldInReset_memMap (s : State) : s.heldInReset.memMap = s.memMap := State.nextPins_memMap _
@[simp] theorem State.heldInReset_pipe (s : State) : s.heldInReset.pipe = s.pipe := State.nextPins_pipe _
@[simp] theorem State.heldInReset_hazard (s : State) : s.heldInReset.hazard = s.hazard := State.nextPins_hazard _

/-- Cut or not, an interrupt goes to its vector, refills the pipeline, closes the window and leaves memory. -/
theorem State.interrupt_entered (s : State) (e : Trap) : (s.interrupt e).pc = e.vector ∧ (s.interrupt e).pipe = Pipeline.fresh ∧
    (s.interrupt e).hazard = .clear ∧ (s.interrupt e).mem = s.mem := by
  unfold State.interrupt
  simp only []
  split <;> simp

/-- Whole or cut, a prefetch abort refills the pipeline, closes the window and leaves memory. -/
theorem State.prefetchAbortOrCut_keeps (s : State) (cut : ResCut) : (s.prefetchAbortOrCut cut).pipe = Pipeline.fresh ∧
    (s.prefetchAbortOrCut cut).hazard = .clear ∧ (s.prefetchAbortOrCut cut).mem = s.mem ∧
    (s.prefetchAbortOrCut cut).memMap = s.memMap := by
  unfold State.prefetchAbortOrCut
  split <;> exact ⟨rfl, rfl, rfl, rfl⟩

/-- A write set without bytes lets a cut leave memory as it was. -/
theorem State.cutShort_mem_of_noStore (s : State) (i : Instr) (h : (effectiveWrites s i).store.size = 0) :
    (s.cutShort i).mem = s.mem := by
  have hstored : (s.anyStored (effectiveWrites s i).store).mem = s.mem := by
    rw [State.anyStored, h]
    rfl
  obtain ⟨r, d, hregs, -⟩ := (s.anyStored (effectiveWrites s i).store).anyRegs_frame (effectiveWrites s i).regs
  obtain ⟨n, z, c, v, d', hflags, -⟩ :=
    ((s.anyStored (effectiveWrites s i).store).anyRegs (effectiveWrites s i).regs).anyFlags_frame (effectiveWrites s i).flags
  calc (s.cutShort i).mem
    _ = (((s.anyStored (effectiveWrites s i).store).anyRegs (effectiveWrites s i).regs).anyFlags (effectiveWrites s i).flags).mem := rfl
    _ = (s.anyStored (effectiveWrites s i).store).mem := by rw [hflags, hregs]
    _ = s.mem := hstored

/-! ### The invariant (R40, R471) -/

/-- Settles O12: nothing is listed, nothing prefetched is marked, and there is no window. -/
theorem soundAtReset : Obligations.SoundAtReset := ⟨rfl, rfl, nofun⟩

theorem sound_of_clear {t : State} (hwf : t.mem.wf = true) (hpipe : t.pipe = Pipeline.fresh) (hwindow : t.hazard = .clear) : Sound t :=
  ⟨hwf, by rw [hpipe]; rfl, by rw [hwindow]; exact nofun⟩

/-- An instruction keeps the invariant, since the window is closed when it begins. -/
theorem Effect.sound {i : Instr} {s t : State} (h : Effect i s t) (hwf : s.mem.wf = true) (hwindow : s.hazard = .clear) : Sound t := by
  obtain hran | ⟨u, e, ret, -, hu, rfl⟩ := h
  · refine ⟨hran.wf hwf, hran.stale2, fun hopen => ?_⟩
    obtain hbefore | ⟨hmode, hpsr⟩ := hran.window hopen
    · rw [hwindow] at hbefore; cases hbefore
    · rwa [hpsr]
  · exact sound_of_clear (hu.wf hwf) rfl rfl

/-- A cut keeps the canonical form of memory, refills the pipeline and closes the window. -/
theorem State.cutShort_sound (s : State) (i : Instr) (hwf : s.mem.wf = true) : Sound (s.cutShort i) := by
  obtain ⟨r, m, n, z, c, v, d, hstate, -, -, -, hmem⟩ := s.cutShort_spec i
  obtain ⟨hm, -⟩ := hmem hwf
  exact sound_of_clear (by rw [hstate]; exact hm) rfl rfl

/-- Settles O13, by the kind of the step: most refill the pipeline and close the window, and an instruction begins with it closed. -/
theorem soundKeptByStep : Obligations.SoundKeptByStep := by
  intro s t hsound h
  obtain ⟨hwf, hstale, hwindow⟩ := hsound
  have hbegin : s.beginInstr.mem.wf = true := by rwa [State.beginInstr_mem]
  cases stepKind_of_step h with
  | held ht => subst ht; exact ⟨by simpa, by simpa, by simpa⟩
  | reset ht => subst ht; exact sound_of_clear hwf rfl rfl
  | interrupt e he ht =>
    obtain ⟨-, hpipe, hclear, hmem⟩ := s.interrupt_entered e
    subst ht
    exact sound_of_clear (by rwa [hmem]) hpipe hclear
  | prefetchAbort ht =>
    obtain ⟨hpipe, hclear, hmem, -⟩ := s.beginInstr.prefetchAbortOrCut_keeps s.pins.cut
    subst ht
    exact sound_of_clear (by rwa [hmem]) hpipe hclear
  | ran w hw ht => exact (exec_effect ht).sound hbegin s.beginInstr_hazard
  | cut w hw ht => subst ht; exact s.beginInstr.cutShort_sound _ hbegin

/-! ### User mode (R36, R407, R410) -/

/-- What a step may leave of the protected bits in User mode: all of them as they were, or an exception entered at its vector. -/
def UserProtected (s t : State) : Prop :=
  (t.psr.mode = .user ∧ t.psr.i = s.psr.i ∧ t.psr.f = s.psr.f) ∨
  (t.psr.mode = .svc ∧ t.psr.i = true ∧ t.pc = 0 ∧ t.psr.f = true) ∨
  (t.psr.mode = .svc ∧ t.psr.i = true ∧ (t.pc = 1 ∨ t.pc = 2 ∨ t.pc = 3 ∨ t.pc = 4) ∧ t.psr.f = s.psr.f) ∨
  (t.psr.mode = .irq ∧ t.psr.i = true ∧ t.pc = 6 ∧ t.psr.f = s.psr.f) ∨
  (t.psr.mode = .firq ∧ t.psr.i = true ∧ t.pc = 7 ∧ t.psr.f = true)

/-- An entry is one of the cases the rule allows, each exception with its vector, its mode and its F. -/
theorem userProtected_of_entered {s t : State} {e : Trap} (hpsr : t.psr = s.psr.enter e) (hpc : t.pc = e.vector) : UserProtected s t := by
  unfold UserProtected
  rw [hpsr, hpc]
  cases e <;> simp [Trap.mode, Trap.vector, Trap.setsF, Config.firqEntrySetsF]

/-- Protection is said of the PSR that the step begins with. -/
theorem UserProtected.congr {s u t : State} (h : UserProtected u t) (hpsr : u.psr = s.psr) : UserProtected s t := by
  unfold UserProtected at *
  rwa [hpsr] at h

theorem userProtected_of_same {s t : State} (hmode : s.psr.mode = .user) (hpsr : t.psr = s.psr) : UserProtected s t :=
  .inl (by rw [hpsr]; exact ⟨hmode, rfl, rfl⟩)

theorem Effect.userProtected {i : Instr} {s t : State} (h : Effect i s t) (hmode : s.psr.mode = .user) : UserProtected s t := by
  obtain hran | ⟨u, e, ret, -, hu, rfl⟩ := h
  · exact .inl (hran.user hmode)
  · exact userProtected_of_entered (by rw [State.enter_psr, hu.psr]) rfl

theorem State.cutShort_userProtected (s : State) (i : Instr) (hmode : s.psr.mode = .user) : UserProtected s (s.cutShort i) := by
  have hpsr := s.cutShort_psr i
  exact .inl (by rw [hpsr]; exact ⟨hmode, rfl, rfl⟩)

/-- Settles O14, by the kind of the step. -/
theorem userModeIsProtected : Obligations.UserModeIsProtected := by
  intro s t hmode h
  show UserProtected s t
  have hbegin : s.beginInstr.psr.mode = .user := by rwa [State.beginInstr_psr]
  cases stepKind_of_step h with
  | held ht => subst ht; exact userProtected_of_same hmode s.heldInReset_psr
  | reset ht => subst ht; exact userProtected_of_entered (e := .reset) rfl rfl
  | interrupt e he ht =>
    obtain ⟨hpc, -⟩ := s.interrupt_entered e
    obtain ⟨hpsr, -⟩ := s.interrupt_regs e
    subst ht
    exact userProtected_of_entered hpsr hpc
  | prefetchAbort ht =>
    subst ht
    unfold State.prefetchAbortOrCut
    split
    · exact userProtected_of_entered (e := .prefetchAbort) (congrArg (Psr.enter · .prefetchAbort) s.beginInstr_psr) rfl
    · exact userProtected_of_same hmode s.beginInstr_psr
  | ran w hw ht => exact ((exec_effect ht).userProtected hbegin).congr s.beginInstr_psr
  | cut w hw ht => subst ht; exact (s.beginInstr.cutShort_userProtected _ hbegin).congr s.beginInstr_psr

/-! ### What a cut instruction may write (R462) -/

theorem not_mem_physAll {m : Mode} {p : PhysReg} (hp : HiddenFrom m p) (is : List RegNum) : p ∉ physAll m is := by
  rw [physAll, List.mem_filterMap]
  exact fun ⟨n, _, hn⟩ => hp n hn

/-- Of the user bank a block transfer writes, only R8 to R14 are hidden from any mode. -/
theorem usr_of_mem_physAll {m : Mode} {p : PhysReg} (hp : HiddenFrom m p) {is : List RegNum} (h : p ∈ physAll .user is) :
    ∃ k, p = .usr k := by
  rw [physAll, List.mem_filterMap] at h
  obtain ⟨n, -, hn⟩ := h
  exact usr_of_hiddenFrom hp hn

/-- The registers of a write set are those the mode sees, but for the block transfers that use the user bank. -/
theorem writeSet_hidden {s : State} {i : Instr} {p : PhysReg} (hp : HiddenFrom s.psr.mode p) (h : p ∈ (writeSet s i).regs) :
    (∃ k, p = .usr k) ∧ WritesUserBank i := by
  have hnot := not_mem_physAll hp
  cases i with
  | ldm o =>
    simp only [writeSet] at h
    split at h
    · next huser => exact ⟨usr_of_mem_physAll hp h, ldm_writesUserBank huser⟩
    · exact absurd h (hnot _)
  | stm o =>
    simp only [writeSet] at h
    split at h
    · next huser =>
      refine ⟨usr_of_mem_physAll hp h, stm_writesUserBank ?_ huser⟩
      refine Decidable.byContradiction fun hwb => ?_
      rw [if_neg hwb] at h
      cases h
    · exact absurd h (hnot _)
  | ldc o | stc o | mcr o =>
    simp only [writeSet] at h
    split at h
    · exact absurd h (hnot _)
    · cases h
  | tstImm o | tstReg o | tstRegShift o | teqImm o | teqReg o | teqRegShift o | cmpImm o | cmpReg o | cmpRegShift o | cmnImm o
  | cmnReg o | cmnRegShift o | unspecifiedTestS0Imm o | unspecifiedTestS0Reg o | unspecifiedTestS0RegShift o | undefined1 o
  | undefined2 o | unallocatedA o | unallocatedB o | unallocatedC o | unallocatedD o | b o | cdp o | mrc o | swi o => cases h
  | _ => exact absurd h (hnot _)

theorem effectiveWrites_hidden {s : State} {i : Instr} {p : PhysReg} (hp : HiddenFrom s.psr.mode p)
    (h : p ∈ (effectiveWrites s i).regs) : (∃ k, p = .usr k) ∧ WritesUserBank i := by
  unfold effectiveWrites at h
  split at h
  · exact writeSet_hidden hp h
  · cases h

/-- Only a store has bytes in its write set. -/
theorem writeSet_store {s : State} {i : Instr} (h : (writeSet s i).store.size ≠ 0) : IsStore i := by
  cases i with
  | strImm o | strReg o | strbImm o | strbReg o | stm o | stc o => simp [IsStore]
  | mcr o =>
    simp only [writeSet] at h
    split at h <;> exact absurd rfl h
  | _ => exact absurd rfl h

theorem effectiveWrites_store {s : State} {i : Instr} (h : (effectiveWrites s i).store.size ≠ 0) :
    IsStore i ∧ condPassed i.cond s.psr = true := by
  unfold effectiveWrites at h
  split at h
  · next hc => exact ⟨writeSet_store h, hc⟩
  · exact absurd rfl h

/-! ### The hidden banks (R24, R292, R293) -/

theorem Effect.hidden {i : Instr} {s t : State} (h : Effect i s t) {p : PhysReg} (hp : HiddenFrom s.psr.mode p)
    (hlink : p ≠ linkReg t.psr.mode) : t.regs.get p = s.regs.get p ∨ (∃ k, p = .usr k) ∧ WritesUserBank i := by
  obtain hran | ⟨u, e, ret, -, hu, rfl⟩ := h
  · exact hran.hidden p hp
  · rw [u.enter_other e ret p hlink]
    exact hu.hidden p hp

theorem State.cutShort_hidden (s : State) (i : Instr) {p : PhysReg} (hp : HiddenFrom s.psr.mode p) :
    (s.cutShort i).regs.get p = s.regs.get p ∨ (∃ k, p = .usr k) ∧ WritesUserBank i := by
  by_cases hmem : p ∈ (effectiveWrites s i).regs
  · exact .inr (effectiveWrites_hidden hp hmem)
  · exact .inl (s.cutShort_get_other i hmem)

/-- Settles O15, by the kind of the step: an entry writes the R14 of the mode it ends in, an instruction what its effect says. -/
theorem hiddenBanksKept : Obligations.HiddenBanksKept := by
  intro s t p h hp hlink
  have hbegin : HiddenFrom s.beginInstr.psr.mode p := by rwa [State.beginInstr_psr]
  have hinstr : ∀ w, fetch s = some w →
      t.regs.get p = s.beginInstr.regs.get p ∨ (∃ k, p = .usr k) ∧ WritesUserBank (decodeWord w) →
      t.regs.get p = s.regs.get p ∨ ((∃ k, p = .usr k) ∧ ∃ w o, fetch s = some w ∧ o.s = true ∧
        (decodeWord w = .ldm o ∧ o.list.getLsbD 15 = false ∨ decodeWord w = .stm o ∧ o.w = true)) := by
    rintro w hw (hkept | ⟨husr, o, hs, hrow⟩)
    · exact .inl (by rw [hkept, State.beginInstr_regs])
    · exact .inr ⟨husr, w, o, hw, hs, hrow⟩
  cases stepKind_of_step h with
  | held ht => subst ht; exact .inl (by rw [State.heldInReset_regs])
  | reset ht => subst ht; exact .inl (State.enter_other _ .reset 0 p hlink)
  | interrupt e he ht =>
    obtain ⟨hpsr, hregs, -⟩ := s.interrupt_regs e
    subst ht
    rw [hpsr] at hlink
    exact .inl (hregs p hlink)
  | prefetchAbort ht =>
    left
    subst ht
    unfold State.prefetchAbortOrCut at hlink ⊢
    split at hlink
    · next hcut => rw [if_pos hcut]; exact (State.enter_other _ .prefetchAbort _ p hlink).trans (by rw [State.beginInstr_regs])
    · next hcut => rw [if_neg hcut, State.abandon_regs, State.beginInstr_regs]
  | ran w hw ht => exact hinstr w hw ((exec_effect ht).hidden hbegin hlink)
  | cut w hw ht => subst ht; exact hinstr w hw (s.beginInstr.cutShort_hidden _ hbegin)

/-! ### The instructions that change memory -/

theorem Effect.keepsCells {i : Instr} {s t : State} (h : Effect i s t) :
    KeepsCells s t ∨ IsStore i ∧ condPassed i.cond s.psr = true := by
  obtain hran | ⟨u, e, ret, -, hu, rfl⟩ := h
  · exact hran.mem.imp_left fun hmem => .of_eq hmem hran.memMap
  · exact hu.mem.imp_left fun hmem => .of_eq hmem hu.memMap

theorem State.cutShort_keepsCells (s : State) (i : Instr) :
    KeepsCells s (s.cutShort i) ∨ IsStore i ∧ condPassed i.cond s.psr = true := by
  by_cases hsize : (effectiveWrites s i).store.size = 0
  · exact .inl (.of_eq (s.cutShort_mem_of_noStore i hsize) (s.cutShort_memMap i))
  · exact .inr (effectiveWrites_store hsize)

/-- Settles O16, by the kind of the step: only an instruction reaches memory, whole or cut, and of the rows only the stores do. -/
theorem onlyStoresChangeMemory : Obligations.OnlyStoresChangeMemory := by
  intro s t h
  have hinstr : ∀ w, fetch s = some w →
      KeepsCells s.beginInstr t ∨ IsStore (decodeWord w) ∧ condPassed (decodeWord w).cond s.beginInstr.psr = true →
      KeepsCells s t ∨ ∃ w, fetch s = some w ∧ condPassed (decodeWord w).cond s.psr = true ∧ IsStore (decodeWord w) := by
    rintro w hw (⟨hmap, hcells⟩ | ⟨hstore, hc⟩)
    · exact .inl ⟨by rw [hmap, State.beginInstr_memMap], fun a => (hcells a).trans (s.beginInstr_cellAt a)⟩
    · exact .inr ⟨w, hw, by rwa [State.beginInstr_psr] at hc, hstore⟩
  cases stepKind_of_step h with
  | held ht => subst ht; exact .inl (.of_eq s.heldInReset_mem s.heldInReset_memMap)
  | reset ht => subst ht; exact .inl (.of_eq rfl rfl)
  | interrupt e he ht =>
    obtain ⟨-, -, hcells⟩ := s.interrupt_regs e
    subst ht
    exact .inl hcells
  | prefetchAbort ht =>
    obtain ⟨-, -, hmem, hmap⟩ := s.beginInstr.prefetchAbortOrCut_keeps s.pins.cut
    subst ht
    exact .inl (.of_eq (hmem.trans s.beginInstr_mem) (hmap.trans s.beginInstr_memMap))
  | ran w hw ht => exact hinstr w hw (exec_effect ht).keepsCells
  | cut w hw ht => subst ht; exact hinstr w hw (s.beginInstr.cutShort_keepsCells _)

end Sys2Proof.Machine
end

section
/-! The field tables of R102 to R115 as an equivalence for each format: an encoder gives a word exactly when the word has the format's
fixed bits and its fields read back. Both round trips, and the words of the reserved regions, follow from these. -/

namespace Sys2Proof

/-! ### The fields of a word -/

/-- A word is what its thirty-two bits make. -/
theorem eq_word_iff (x w : Word) : x = w ↔ x = field w 0 32 := by
  rw [field, BitVec.extractLsb'_eq_self]

/-- A concatenation is a field when its two parts are. -/
theorem append_eq_field_iff {m n : Nat} (x : BitVec m) (y : BitVec n) (w : Word) (lo : Nat) :
    x ++ y = field w lo (m + n) ↔ field w (lo + n) m = x ∧ field w lo n = y := by
  constructor
  · intro h
    have hhi : (field w lo (m + n)).extractLsb' n m = field w (lo + n) m := by
      ext i hi
      simp [field, Nat.add_assoc]
      omega
    have hlo : (field w lo (m + n)).extractLsb' 0 n = field w lo n := by
      ext i hi
      simp [field]
      omega
    rw [← hhi, ← hlo, ← h]
    exact ⟨BitVec.extractLsb'_append_eq_left, BitVec.extractLsb'_append_eq_right⟩
  · rintro ⟨rfl, rfl⟩
    exact BitVec.extractLsb'_append_extractLsb'_eq_extractLsb' rfl

theorem field_eq_append_iff {m n : Nat} (x : BitVec m) (y : BitVec n) (w : Word) (lo : Nat) :
    field w lo (m + n) = x ++ y ↔ field w (lo + n) m = x ∧ field w lo n = y :=
  eq_comm.trans (append_eq_field_iff x y w lo)

theorem bitAt_field {n : Nat} (w : Word) (lo : Nat) {i : Nat} (hi : i < n) : (field w lo n).getLsbD i = bitAt w (lo + i) := by
  rw [field, BitVec.getLsbD_extractLsb', decide_eq_true hi, Bool.true_and, bitAt]

/-- A field has a value when each of its bits has. -/
theorem field_eq_iff {n : Nat} (w : Word) (lo : Nat) (c : BitVec n) : field w lo n = c ↔ ∀ i, i < n → bitAt w (lo + i) = c.getLsbD i :=
  ⟨fun h i hi => by rw [← h, bitAt_field w lo hi],
    fun h => BitVec.eq_of_getLsbD_eq fun i hi => (bitAt_field w lo hi).trans (h i hi)⟩

/-- The values of the bits of a field, from the top: 1, 2, 3, 4 and 6 bits. -/
theorem field_eq_flag_iff (w : Word) (lo : Nat) (b : Bool) : field w lo 1 = flag b ↔ bitAt w lo = b := by
  simp [field_eq_iff, flag]

theorem field_two_iff (w : Word) (lo : Nat) (c : BitVec 2) :
    field w lo 2 = c ↔ bitAt w (lo + 1) = c.getLsbD 1 ∧ bitAt w lo = c.getLsbD 0 := by
  simp only [field_eq_iff, Nat.forall_lt_succ_right, Nat.not_lt_zero, false_imp_iff, implies_true, true_and, Nat.add_zero]
  exact ⟨fun h => by simp only [h, and_self], fun h => by simp only [h, and_self]⟩

theorem field_three_iff (w : Word) (lo : Nat) (c : BitVec 3) :
    field w lo 3 = c ↔ bitAt w (lo + 2) = c.getLsbD 2 ∧ bitAt w (lo + 1) = c.getLsbD 1 ∧ bitAt w lo = c.getLsbD 0 := by
  simp only [field_eq_iff, Nat.forall_lt_succ_right, Nat.not_lt_zero, false_imp_iff, implies_true, true_and, Nat.add_zero]
  exact ⟨fun h => by simp only [h, and_self], fun h => by simp only [h, and_self]⟩

theorem field_four_iff (w : Word) (lo : Nat) (c : BitVec 4) :
    field w lo 4 = c ↔ bitAt w (lo + 3) = c.getLsbD 3 ∧ bitAt w (lo + 2) = c.getLsbD 2 ∧ bitAt w (lo + 1) = c.getLsbD 1 ∧
      bitAt w lo = c.getLsbD 0 := by
  simp only [field_eq_iff, Nat.forall_lt_succ_right, Nat.not_lt_zero, false_imp_iff, implies_true, true_and, Nat.add_zero]
  exact ⟨fun h => by simp only [h, and_self], fun h => by simp only [h, and_self]⟩

theorem field_six_iff (w : Word) (lo : Nat) (c : BitVec 6) :
    field w lo 6 = c ↔ bitAt w (lo + 5) = c.getLsbD 5 ∧ bitAt w (lo + 4) = c.getLsbD 4 ∧ bitAt w (lo + 3) = c.getLsbD 3 ∧
      bitAt w (lo + 2) = c.getLsbD 2 ∧ bitAt w (lo + 1) = c.getLsbD 1 ∧ bitAt w lo = c.getLsbD 0 := by
  simp only [field_eq_iff, Nat.forall_lt_succ_right, Nat.not_lt_zero, false_imp_iff, implies_true, true_and, Nat.add_zero]
  exact ⟨fun h => by simp only [h, and_self], fun h => by simp only [h, and_self]⟩

/-! ### The codes of the conditions and the shift types -/

theorem eq_condBits_iff (b : BitVec 4) (c : Cond) : b = c.bits ↔ Cond.ofBits b = c := by
  have hcode : ∀ b, (Cond.ofBits b).bits = b := by decide
  have hcond : Cond.ofBits c.bits = c := by cases c <;> rfl
  exact ⟨fun h => by rw [h, hcond], fun h => by rw [← h, hcode]⟩

theorem eq_shiftKindBits_iff (b : BitVec 2) (k : ShiftKind) : b = k.bits ↔ ShiftKind.ofBits b = k := by
  have hcode : ∀ b, (ShiftKind.ofBits b).bits = b := by decide
  have hkind : ShiftKind.ofBits k.bits = k := by cases k <;> rfl
  exact ⟨fun h => by rw [h, hkind], fun h => by rw [← h, hcode]⟩

/-! ### The forms of operand 2 and of an offset (R106, R107, R109) -/

/-- Bits 11:0 hold an operand when they bear its marks and it reads back from them. -/
def OperandForm {α : Type} (bits : α → BitVec 12) (read : Word → α) (marks : Word → Prop) : Prop :=
  ∀ o w, field w 0 12 = bits o ↔ marks w ∧ read w = o

theorem immForm : OperandForm ImmOp.bits immOpOf fun _ => True := by
  rintro ⟨rotate, imm8⟩ w
  refine eq_comm.trans ((append_eq_field_iff _ _ w 0).trans ?_)
  simp only [Nat.reduceAdd, immOpOf, ImmOp.mk.injEq, true_and]

theorem regForm : OperandForm RegOp.bits regOpOf fun w => bitAt w 4 = false := by
  rintro ⟨amount, kind, rm⟩ w
  refine eq_comm.trans ((append_eq_field_iff _ _ w 0).trans ?_)
  simp only [field_eq_append_iff]
  simp only [Nat.reduceAdd, eq_shiftKindBits_iff, show 0#1 = flag false from rfl, field_eq_flag_iff, regOpOf, RegOp.mk.injEq]
  exact ⟨fun h => by simp only [h, and_self], fun h => by simp only [h, and_self]⟩

theorem regShiftForm : OperandForm RegShiftOp.bits regShiftOpOf fun w => bitAt w 7 = false ∧ bitAt w 4 = true := by
  rintro ⟨rs, kind, rm⟩ w
  refine eq_comm.trans ((append_eq_field_iff _ _ w 0).trans ?_)
  simp only [field_eq_append_iff]
  simp only [Nat.reduceAdd, eq_shiftKindBits_iff, show 0#1 = flag false from rfl, show 1#1 = flag true from rfl, field_eq_flag_iff,
    regShiftOpOf, RegShiftOp.mk.injEq]
  exact ⟨fun h => by simp only [h, and_self], fun h => by simp only [h, and_self]⟩

theorem offsetForm : OperandForm id (field · 0 12) fun _ => True := fun _ _ => (true_and _).symm ▸ Iff.rfl

/-! ### The formats (R102, R104, R108 to R115) -/

section
variable {α : Type} {bits : α → BitVec 12} {read : Word → α} {marks : Word → Prop} (w : Word)

theorem encodeDp_eq_iff (form : OperandForm bits read marks) (imm : Bool) (opcode : BitVec 4) (o : Dp α) :
    encodeDp (flag imm) opcode bits o = w ↔
      ((bitAt w 27 = false ∧ bitAt w 26 = false ∧ bitAt w 25 = imm) ∧ field w 21 4 = opcode ∧ marks w) ∧ dpOf read w = o := by
  obtain ⟨cond, s, rn, rd, op2⟩ := o
  rw [encodeDp]
  refine (eq_word_iff _ w).trans ((append_eq_field_iff _ _ w 0).trans ?_)
  simp only [field_eq_append_iff, form _ w]
  simp only [Nat.reduceAdd, BitVec.reduceGetLsb, field_two_iff w 26, eq_condBits_iff, field_eq_flag_iff, dpOf, condOf, Dp.mk.injEq]
  exact ⟨fun h => by simp only [h, and_self], fun h => by simp only [h, and_self]⟩

theorem encodeTest_eq_iff (form : OperandForm bits read marks) (imm : Bool) (opcode : BitVec 4) (o : Test α) :
    encodeTest (flag imm) opcode bits o = w ↔
      ((bitAt w 27 = false ∧ bitAt w 26 = false ∧ bitAt w 25 = imm ∧ bitAt w 20 = true) ∧ field w 21 4 = opcode ∧ marks w) ∧
        testOf read w = o := by
  obtain ⟨cond, rn, rd, op2⟩ := o
  rw [encodeTest]
  refine (eq_word_iff _ w).trans ((append_eq_field_iff _ _ w 0).trans ?_)
  simp only [field_eq_append_iff, form _ w]
  simp only [Nat.reduceAdd, BitVec.reduceGetLsb, field_two_iff w 26, eq_condBits_iff, show 1#1 = flag true from rfl, field_eq_flag_iff, testOf,
    condOf, Test.mk.injEq]
  exact ⟨fun h => by simp only [h, and_self], fun h => by simp only [h, and_self]⟩

theorem encodeSdt_eq_iff (form : OperandForm bits read marks) (reg byte load : Bool) (o : Sdt α) :
    encodeSdt (flag reg) (flag byte) (flag load) bits o = w ↔
      ((bitAt w 27 = false ∧ bitAt w 26 = true ∧ bitAt w 25 = reg ∧ bitAt w 22 = byte ∧ bitAt w 20 = load) ∧ marks w) ∧
        sdtOf read w = o := by
  obtain ⟨cond, p, u, wb, rn, rd, offset⟩ := o
  rw [encodeSdt]
  refine (eq_word_iff _ w).trans ((append_eq_field_iff _ _ w 0).trans ?_)
  simp only [field_eq_append_iff, form _ w]
  simp only [Nat.reduceAdd, BitVec.reduceGetLsb, field_two_iff w 26, eq_condBits_iff, field_eq_flag_iff, sdtOf, condOf, Sdt.mk.injEq]
  exact ⟨fun h => by simp only [h, and_self], fun h => by simp only [h, and_self]⟩

theorem encodeMul_eq_iff (acc : Bool) (o : Mul) : encodeMul (flag acc) o = w ↔
    ((bitAt w 27 = false ∧ bitAt w 26 = false ∧ bitAt w 25 = false ∧ bitAt w 24 = false ∧ bitAt w 23 = false ∧ bitAt w 22 = false) ∧
      bitAt w 21 = acc ∧ bitAt w 7 = true ∧ bitAt w 6 = false ∧ bitAt w 5 = false ∧ bitAt w 4 = true) ∧ mulOf w = o := by
  obtain ⟨cond, s, rd, rn, rs, rm⟩ := o
  rw [encodeMul]
  refine (eq_word_iff _ w).trans ((append_eq_field_iff _ _ w 0).trans ?_)
  simp only [field_eq_append_iff]
  simp only [Nat.reduceAdd, BitVec.reduceGetLsb, field_six_iff w 22, field_four_iff w 4, eq_condBits_iff, field_eq_flag_iff, mulOf, condOf, Mul.mk.injEq]
  exact ⟨fun h => by simp only [h, and_self], fun h => by simp only [h, and_self]⟩

theorem encodeRaw_eq_iff (o : Raw) : encodeRaw o = w ↔ rawOf w = o := by
  obtain ⟨cond, bits⟩ := o
  rw [encodeRaw]
  refine (eq_word_iff _ w).trans ((append_eq_field_iff _ _ w 0).trans ?_)
  simp only [Nat.reduceAdd, eq_condBits_iff, rawOf, condOf, Raw.mk.injEq]

theorem encodeBdt_eq_iff (load : Bool) (o : Bdt) : encodeBdt (flag load) o = w ↔
    (bitAt w 27 = true ∧ bitAt w 26 = false ∧ bitAt w 25 = false ∧ bitAt w 20 = load) ∧ bdtOf w = o := by
  obtain ⟨cond, p, u, s, wb, rn, list⟩ := o
  rw [encodeBdt]
  refine (eq_word_iff _ w).trans ((append_eq_field_iff _ _ w 0).trans ?_)
  simp only [field_eq_append_iff]
  simp only [Nat.reduceAdd, BitVec.reduceGetLsb, field_three_iff, eq_condBits_iff, field_eq_flag_iff, bdtOf, condOf, Bdt.mk.injEq]
  exact ⟨fun h => by simp only [h, and_self], fun h => by simp only [h, and_self]⟩

theorem encodeBr_eq_iff (link : Bool) (o : Br) : encodeBr (flag link) o = w ↔
    (bitAt w 27 = true ∧ bitAt w 26 = false ∧ bitAt w 25 = true ∧ bitAt w 24 = link) ∧ brOf w = o := by
  obtain ⟨cond, offset⟩ := o
  rw [encodeBr]
  refine (eq_word_iff _ w).trans ((append_eq_field_iff _ _ w 0).trans ?_)
  simp only [field_eq_append_iff]
  simp only [Nat.reduceAdd, BitVec.reduceGetLsb, field_three_iff, eq_condBits_iff, field_eq_flag_iff, brOf, condOf, Br.mk.injEq]
  exact ⟨fun h => by simp only [h, and_self], fun h => by simp only [h, and_self]⟩

theorem encodeCdt_eq_iff (load : Bool) (o : Cdt) : encodeCdt (flag load) o = w ↔
    (bitAt w 27 = true ∧ bitAt w 26 = true ∧ bitAt w 25 = false ∧ bitAt w 20 = load) ∧ cdtOf w = o := by
  obtain ⟨cond, p, u, n, wb, rn, crd, cpNum, offset⟩ := o
  rw [encodeCdt]
  refine (eq_word_iff _ w).trans ((append_eq_field_iff _ _ w 0).trans ?_)
  simp only [field_eq_append_iff]
  simp only [Nat.reduceAdd, BitVec.reduceGetLsb, field_three_iff w 25, eq_condBits_iff, field_eq_flag_iff, cdtOf, condOf, Cdt.mk.injEq]
  exact ⟨fun h => by simp only [h, and_self], fun h => by simp only [h, and_self]⟩

theorem encodeCdo_eq_iff (o : Cdo) : encodeCdo o = w ↔
    (bitAt w 27 = true ∧ bitAt w 26 = true ∧ bitAt w 25 = true ∧ bitAt w 24 = false ∧ bitAt w 4 = false) ∧ cdoOf w = o := by
  obtain ⟨cond, cpOpc, crn, crd, cpNum, cp, crm⟩ := o
  rw [encodeCdo]
  refine (eq_word_iff _ w).trans ((append_eq_field_iff _ _ w 0).trans ?_)
  simp only [field_eq_append_iff]
  simp only [Nat.reduceAdd, BitVec.reduceGetLsb, field_four_iff w 24, eq_condBits_iff, show 0#1 = flag false from rfl, field_eq_flag_iff, cdoOf,
    condOf, Cdo.mk.injEq]
  exact ⟨fun h => by simp only [h, and_self], fun h => by simp only [h, and_self]⟩

theorem encodeCrt_eq_iff (load : Bool) (o : Crt) : encodeCrt (flag load) o = w ↔
    (bitAt w 27 = true ∧ bitAt w 26 = true ∧ bitAt w 25 = true ∧ bitAt w 24 = false ∧ bitAt w 20 = load ∧ bitAt w 4 = true) ∧
      crtOf w = o := by
  obtain ⟨cond, cpOpc, crn, rd, cpNum, cp, crm⟩ := o
  rw [encodeCrt]
  refine (eq_word_iff _ w).trans ((append_eq_field_iff _ _ w 0).trans ?_)
  simp only [field_eq_append_iff]
  simp only [Nat.reduceAdd, BitVec.reduceGetLsb, field_four_iff w 24, eq_condBits_iff, show 1#1 = flag true from rfl, field_eq_flag_iff, crtOf,
    condOf, Crt.mk.injEq]
  exact ⟨fun h => by simp only [h, and_self], fun h => by simp only [h, and_self]⟩

theorem encodeSwi_eq_iff (o : Swi) : encodeSwi o = w ↔
    (bitAt w 27 = true ∧ bitAt w 26 = true ∧ bitAt w 25 = true ∧ bitAt w 24 = true) ∧ swiOf w = o := by
  obtain ⟨cond, comment⟩ := o
  rw [encodeSwi]
  refine (eq_word_iff _ w).trans ((append_eq_field_iff _ _ w 0).trans ?_)
  simp only [field_eq_append_iff]
  simp only [Nat.reduceAdd, BitVec.reduceGetLsb, field_four_iff w 24, eq_condBits_iff, swiOf, condOf, Swi.mk.injEq]
  exact ⟨fun h => by simp only [h, and_self], fun h => by simp only [h, and_self]⟩

end

end Sys2Proof
end

section
/-! The two round trips (R100 to R123): each encoding's fixed bits lead the decoder to its row, and each path of the decoder has read
the fixed bits of the row it ends in. -/

namespace Sys2Proof

/-! ### The regions of the rows without fields (R118, R119, R123) -/

/-- A word lies in a region when each bit of the mask has the value of the pattern. -/
theorem rawOf_fits_iff (w : Word) (mask pattern : BitVec 28) :
    (rawOf w).fits mask pattern = true ↔ ∀ i, i < 28 → (bitAt w i && mask.getLsbD i) = pattern.getLsbD i := by
  have hbit : ∀ {i}, i < 28 → (field w 0 28 &&& mask).getLsbD i = (bitAt w i && mask.getLsbD i) := fun {i} hi => by
    rw [BitVec.getLsbD_and, bitAt_field w 0 hi, Nat.zero_add]
  rw [Raw.fits, beq_iff_eq, rawOf]
  exact ⟨fun h i hi => by rw [← hbit hi, h], fun h => BitVec.eq_of_getLsbD_eq fun i hi => (hbit hi).trans (h i hi)⟩

/-- A region by the bits it fixes: the mask gives their places, the pattern their values. -/
theorem rawOf_fits_iff_bits (w : Word) {mask pattern : BitVec 28} (bits : List (Nat × Bool))
    (hfixed : ∀ b ∈ bits, b.1 < 28 ∧ mask.getLsbD b.1 = true ∧ pattern.getLsbD b.1 = b.2)
    (hall : ∀ i, i < 28 → (i, pattern.getLsbD i) ∈ bits ∨ mask.getLsbD i = false ∧ pattern.getLsbD i = false) :
    (rawOf w).fits mask pattern = true ↔ ∀ b ∈ bits, bitAt w b.1 = b.2 := by
  rw [rawOf_fits_iff]
  constructor
  · intro h b hb
    obtain ⟨hlow, hmask, hvalue⟩ := hfixed b hb
    rw [← hvalue, ← h b.1 hlow, hmask, Bool.and_true]
  · intro h i hi
    obtain hmem | ⟨hmask, hvalue⟩ := hall i hi
    · obtain ⟨-, hmask, -⟩ := hfixed _ hmem
      rw [h _ hmem, hmask, Bool.and_true]
    · rw [hmask, hvalue, Bool.and_false]

theorem fits_unspecifiedTestS0Imm_iff (w : Word) : (rawOf w).fits 0xF900000#28 0x3000000#28 = true ↔
    bitAt w 27 = false ∧ bitAt w 26 = false ∧ bitAt w 25 = true ∧ bitAt w 24 = true ∧ bitAt w 23 = false ∧
      bitAt w 20 = false := by
  simpa using rawOf_fits_iff_bits w [(27, false), (26, false), (25, true), (24, true), (23, false), (20, false)] (by decide) (by decide)

theorem fits_unspecifiedTestS0Reg_iff (w : Word) : (rawOf w).fits 0xF900010#28 0x1000000#28 = true ↔
    bitAt w 27 = false ∧ bitAt w 26 = false ∧ bitAt w 25 = false ∧ bitAt w 24 = true ∧ bitAt w 23 = false ∧
      bitAt w 20 = false ∧ bitAt w 4 = false := by
  simpa using rawOf_fits_iff_bits w [(27, false), (26, false), (25, false), (24, true), (23, false), (20, false), (4, false)] (by decide) (by decide)

theorem fits_unspecifiedTestS0RegShift_iff (w : Word) : (rawOf w).fits 0xF900090#28 0x1000010#28 = true ↔
    bitAt w 27 = false ∧ bitAt w 26 = false ∧ bitAt w 25 = false ∧ bitAt w 24 = true ∧ bitAt w 23 = false ∧
      bitAt w 20 = false ∧ bitAt w 7 = false ∧ bitAt w 4 = true := by
  simpa using rawOf_fits_iff_bits w [(27, false), (26, false), (25, false), (24, true), (23, false), (20, false), (7, false), (4, true)] (by decide) (by decide)

theorem fits_undefined1_iff (w : Word) : (rawOf w).fits 0xF000090#28 0x1000090#28 = true ↔
    bitAt w 27 = false ∧ bitAt w 26 = false ∧ bitAt w 25 = false ∧ bitAt w 24 = true ∧ bitAt w 7 = true ∧
      bitAt w 4 = true := by
  simpa using rawOf_fits_iff_bits w [(27, false), (26, false), (25, false), (24, true), (7, true), (4, true)] (by decide) (by decide)

theorem fits_unallocatedA_iff (w : Word) : (rawOf w).fits 0xF800090#28 0x0800090#28 = true ↔
    bitAt w 27 = false ∧ bitAt w 26 = false ∧ bitAt w 25 = false ∧ bitAt w 24 = false ∧ bitAt w 23 = true ∧
      bitAt w 7 = true ∧ bitAt w 4 = true := by
  simpa using rawOf_fits_iff_bits w [(27, false), (26, false), (25, false), (24, false), (23, true), (7, true), (4, true)] (by decide) (by decide)

theorem fits_unallocatedB_iff (w : Word) : (rawOf w).fits 0xFC00090#28 0x0400090#28 = true ↔
    bitAt w 27 = false ∧ bitAt w 26 = false ∧ bitAt w 25 = false ∧ bitAt w 24 = false ∧ bitAt w 23 = false ∧
      bitAt w 22 = true ∧ bitAt w 7 = true ∧ bitAt w 4 = true := by
  simpa using rawOf_fits_iff_bits w [(27, false), (26, false), (25, false), (24, false), (23, false), (22, true), (7, true), (4, true)] (by decide) (by decide)

theorem fits_unallocatedC_iff (w : Word) : (rawOf w).fits 0xFC000D0#28 0x00000D0#28 = true ↔
    bitAt w 27 = false ∧ bitAt w 26 = false ∧ bitAt w 25 = false ∧ bitAt w 24 = false ∧ bitAt w 23 = false ∧
      bitAt w 22 = false ∧ bitAt w 7 = true ∧ bitAt w 6 = true ∧ bitAt w 4 = true := by
  simpa using rawOf_fits_iff_bits w [(27, false), (26, false), (25, false), (24, false), (23, false), (22, false), (7, true), (6, true), (4, true)] (by decide) (by decide)

theorem fits_unallocatedD_iff (w : Word) : (rawOf w).fits 0xFC000F0#28 0x00000B0#28 = true ↔
    bitAt w 27 = false ∧ bitAt w 26 = false ∧ bitAt w 25 = false ∧ bitAt w 24 = false ∧ bitAt w 23 = false ∧
      bitAt w 22 = false ∧ bitAt w 7 = true ∧ bitAt w 6 = false ∧ bitAt w 5 = true ∧ bitAt w 4 = true := by
  simpa using rawOf_fits_iff_bits w [(27, false), (26, false), (25, false), (24, false), (23, false), (22, false), (7, true), (6, false), (5, true), (4, true)] (by decide) (by decide)

theorem fits_undefined2_iff (w : Word) : (rawOf w).fits 0xE000010#28 0x6000010#28 = true ↔
    bitAt w 27 = false ∧ bitAt w 26 = true ∧ bitAt w 25 = true ∧ bitAt w 4 = true := by
  simpa using rawOf_fits_iff_bits w [(27, false), (26, true), (25, true), (4, true)] (by decide) (by decide)

/-! ### The spaces of the decoder (R103) -/

section
variable {w : Word}

theorem decodeWord_dpImm (h27 : bitAt w 27 = false) (h26 : bitAt w 26 = false) (h25 : bitAt w 25 = true) :
    decodeWord w = decodeDpImm w := by
  simp only [decodeWord, h27, h26, decodeDpSpace, h25, if_true]

theorem decodeWord_dpReg (h27 : bitAt w 27 = false) (h26 : bitAt w 26 = false) (h25 : bitAt w 25 = false) (h4 : bitAt w 4 = false) :
    decodeWord w = decodeDpReg w := by
  simp only [decodeWord, h27, h26, decodeDpSpace, h25, h4, Bool.false_eq_true, if_false]

theorem decodeWord_dpRegShift (h27 : bitAt w 27 = false) (h26 : bitAt w 26 = false) (h25 : bitAt w 25 = false)
    (h7 : bitAt w 7 = false) (h4 : bitAt w 4 = true) : decodeWord w = decodeDpRegShift w := by
  simp only [decodeWord, h27, h26, decodeDpSpace, h25, h4, h7, Bool.false_eq_true, if_false, if_true]

theorem decodeWord_mulSpace (h27 : bitAt w 27 = false) (h26 : bitAt w 26 = false) (h25 : bitAt w 25 = false)
    (h7 : bitAt w 7 = true) (h4 : bitAt w 4 = true) : decodeWord w = decodeMulSpace w := by
  simp only [decodeWord, h27, h26, decodeDpSpace, h25, h4, h7, Bool.false_eq_true, if_false, if_true]

theorem decodeWord_sdtSpace (h27 : bitAt w 27 = false) (h26 : bitAt w 26 = true) : decodeWord w = decodeSdtSpace w := by
  simp only [decodeWord, h27, h26]

theorem decodeWord_blockSpace (h27 : bitAt w 27 = true) (h26 : bitAt w 26 = false) : decodeWord w = decodeBlockSpace w := by
  simp only [decodeWord, h27, h26]

theorem decodeWord_coprocSpace (h27 : bitAt w 27 = true) (h26 : bitAt w 26 = true) : decodeWord w = decodeCoprocSpace w := by
  simp only [decodeWord, h27, h26]

/-- The opcode is bits 24 to 21. -/
theorem opcode_eq_iff (k : BitVec 4) : field w 21 4 = k ↔
    bitAt w 24 = k.getLsbD 3 ∧ bitAt w 23 = k.getLsbD 2 ∧ bitAt w 22 = k.getLsbD 1 ∧ bitAt w 21 = k.getLsbD 0 :=
  field_four_iff w 21 k

/-- An opcode whose top two bits are 10 is that of a test. -/
theorem testOpcode_cases (h24 : bitAt w 24 = true) (h23 : bitAt w 23 = false) :
    field w 21 4 = 8 ∨ field w 21 4 = 9 ∨ field w 21 4 = 10 ∨ field w 21 4 = 11 := by
  simp only [opcode_eq_iff, h24, h23]
  cases bitAt w 22 <;> cases bitAt w 21 <;> decide

end

/-! ### From the instruction to the word and back -/

/-- The word of a well-formed instruction has its row's fixed bits, and the decoder follows them to that row. -/
theorem decodeWord_of_encode {i : Instr} {w : Word} (hwf : WellFormed i) (h : encode i = w) : decodeWord w = i := by
  cases i with
  | andImm o | eorImm o | subImm o | rsbImm o | addImm o | adcImm o | sbcImm o | rscImm o | orrImm o | movImm o | bicImm o =>
    obtain ⟨⟨⟨h27, h26, h25⟩, hop, -⟩, rfl⟩ := (encodeDp_eq_iff w immForm true _ o).1 h
    simp only [decodeWord_dpImm h27 h26 h25, decodeDpImm, hop, BitVec.ofNat_eq_ofNat]
  | mvnImm o =>
    obtain ⟨⟨⟨h27, h26, h25⟩, hop, -⟩, rfl⟩ := (encodeDp_eq_iff w immForm true _ o).1 h
    rw [decodeWord_dpImm h27 h26 h25, decodeDpImm, hop]
    rfl
  | andReg o | eorReg o | subReg o | rsbReg o | addReg o | adcReg o | sbcReg o | rscReg o | orrReg o | movReg o | bicReg o =>
    obtain ⟨⟨⟨h27, h26, h25⟩, hop, h4⟩, rfl⟩ := (encodeDp_eq_iff w regForm false _ o).1 h
    simp only [decodeWord_dpReg h27 h26 h25 h4, decodeDpReg, hop, BitVec.ofNat_eq_ofNat]
  | mvnReg o =>
    obtain ⟨⟨⟨h27, h26, h25⟩, hop, h4⟩, rfl⟩ := (encodeDp_eq_iff w regForm false _ o).1 h
    rw [decodeWord_dpReg h27 h26 h25 h4, decodeDpReg, hop]
    rfl
  | andRegShift o | eorRegShift o | subRegShift o | rsbRegShift o | addRegShift o | adcRegShift o | sbcRegShift o | rscRegShift o
  | orrRegShift o | movRegShift o | bicRegShift o =>
    obtain ⟨⟨⟨h27, h26, h25⟩, hop, h7, h4⟩, rfl⟩ := (encodeDp_eq_iff w regShiftForm false _ o).1 h
    simp only [decodeWord_dpRegShift h27 h26 h25 h7 h4, decodeDpRegShift, hop, BitVec.ofNat_eq_ofNat]
  | mvnRegShift o =>
    obtain ⟨⟨⟨h27, h26, h25⟩, hop, h7, h4⟩, rfl⟩ := (encodeDp_eq_iff w regShiftForm false _ o).1 h
    rw [decodeWord_dpRegShift h27 h26 h25 h7 h4, decodeDpRegShift, hop]
    rfl
  | tstImm o | teqImm o | cmpImm o | cmnImm o =>
    obtain ⟨⟨⟨h27, h26, h25, h20⟩, hop, -⟩, rfl⟩ := (encodeTest_eq_iff w immForm true _ o).1 h
    simp only [decodeWord_dpImm h27 h26 h25, decodeDpImm, hop, BitVec.ofNat_eq_ofNat, h20, if_true]
  | tstReg o | teqReg o | cmpReg o | cmnReg o =>
    obtain ⟨⟨⟨h27, h26, h25, h20⟩, hop, h4⟩, rfl⟩ := (encodeTest_eq_iff w regForm false _ o).1 h
    simp only [decodeWord_dpReg h27 h26 h25 h4, decodeDpReg, hop, BitVec.ofNat_eq_ofNat, h20, if_true]
  | tstRegShift o | teqRegShift o | cmpRegShift o | cmnRegShift o =>
    obtain ⟨⟨⟨h27, h26, h25, h20⟩, hop, h7, h4⟩, rfl⟩ := (encodeTest_eq_iff w regShiftForm false _ o).1 h
    simp only [decodeWord_dpRegShift h27 h26 h25 h7 h4, decodeDpRegShift, hop, BitVec.ofNat_eq_ofNat, h20, if_true]
  | unspecifiedTestS0Imm o =>
    obtain rfl := (encodeRaw_eq_iff w o).1 h
    obtain ⟨h27, h26, h25, h24, h23, h20⟩ := (fits_unspecifiedTestS0Imm_iff w).1 hwf
    obtain hop | hop | hop | hop := testOpcode_cases h24 h23 <;>
      simp only [decodeWord_dpImm h27 h26 h25, decodeDpImm, hop, BitVec.ofNat_eq_ofNat, h20, Bool.false_eq_true, if_false]
  | unspecifiedTestS0Reg o =>
    obtain rfl := (encodeRaw_eq_iff w o).1 h
    obtain ⟨h27, h26, h25, h24, h23, h20, h4⟩ := (fits_unspecifiedTestS0Reg_iff w).1 hwf
    obtain hop | hop | hop | hop := testOpcode_cases h24 h23 <;>
      simp only [decodeWord_dpReg h27 h26 h25 h4, decodeDpReg, hop, BitVec.ofNat_eq_ofNat, h20, Bool.false_eq_true, if_false]
  | unspecifiedTestS0RegShift o =>
    obtain rfl := (encodeRaw_eq_iff w o).1 h
    obtain ⟨h27, h26, h25, h24, h23, h20, h7, h4⟩ := (fits_unspecifiedTestS0RegShift_iff w).1 hwf
    obtain hop | hop | hop | hop := testOpcode_cases h24 h23 <;>
      simp only [decodeWord_dpRegShift h27 h26 h25 h7 h4, decodeDpRegShift, hop, BitVec.ofNat_eq_ofNat, h20, Bool.false_eq_true, if_false]
  | mul o =>
    obtain ⟨⟨⟨h27, h26, h25, h24, h23, h22⟩, h21, h7, h6, h5, h4⟩, rfl⟩ := (encodeMul_eq_iff w false o).1 h
    simp only [decodeWord_mulSpace h27 h26 h25 h7 h4, decodeMulSpace, h24, h23, h22, h21, h6, h5, Bool.false_eq_true, if_false]
  | mla o =>
    obtain ⟨⟨⟨h27, h26, h25, h24, h23, h22⟩, h21, h7, h6, h5, h4⟩, rfl⟩ := (encodeMul_eq_iff w true o).1 h
    simp only [decodeWord_mulSpace h27 h26 h25 h7 h4, decodeMulSpace, h24, h23, h22, h21, h6, h5, Bool.false_eq_true, if_false, if_true]
  | undefined1 o =>
    obtain rfl := (encodeRaw_eq_iff w o).1 h
    obtain ⟨h27, h26, h25, h24, h7, h4⟩ := (fits_undefined1_iff w).1 hwf
    simp only [decodeWord_mulSpace h27 h26 h25 h7 h4, decodeMulSpace, h24, if_true]
  | unallocatedA o =>
    obtain rfl := (encodeRaw_eq_iff w o).1 h
    obtain ⟨h27, h26, h25, h24, h23, h7, h4⟩ := (fits_unallocatedA_iff w).1 hwf
    simp only [decodeWord_mulSpace h27 h26 h25 h7 h4, decodeMulSpace, h24, h23, Bool.false_eq_true, if_false, if_true]
  | unallocatedB o =>
    obtain rfl := (encodeRaw_eq_iff w o).1 h
    obtain ⟨h27, h26, h25, h24, h23, h22, h7, h4⟩ := (fits_unallocatedB_iff w).1 hwf
    simp only [decodeWord_mulSpace h27 h26 h25 h7 h4, decodeMulSpace, h24, h23, h22, Bool.false_eq_true, if_false, if_true]
  | unallocatedC o =>
    obtain rfl := (encodeRaw_eq_iff w o).1 h
    obtain ⟨h27, h26, h25, h24, h23, h22, h7, h6, h4⟩ := (fits_unallocatedC_iff w).1 hwf
    simp only [decodeWord_mulSpace h27 h26 h25 h7 h4, decodeMulSpace, h24, h23, h22, h6, Bool.false_eq_true, if_false, if_true]
  | unallocatedD o =>
    obtain rfl := (encodeRaw_eq_iff w o).1 h
    obtain ⟨h27, h26, h25, h24, h23, h22, h7, h6, h5, h4⟩ := (fits_unallocatedD_iff w).1 hwf
    simp only [decodeWord_mulSpace h27 h26 h25 h7 h4, decodeMulSpace, h24, h23, h22, h6, h5, Bool.false_eq_true, if_false, if_true]
  | undefined2 o =>
    obtain rfl := (encodeRaw_eq_iff w o).1 h
    obtain ⟨h27, h26, h25, h4⟩ := (fits_undefined2_iff w).1 hwf
    simp only [decodeWord_sdtSpace h27 h26, decodeSdtSpace, h25, h4, if_true]
  | ldrImm o =>
    obtain ⟨⟨⟨h27, h26, h25, h22, h20⟩, -⟩, rfl⟩ := (encodeSdt_eq_iff w offsetForm false false true o).1 h
    simp only [decodeWord_sdtSpace h27 h26, decodeSdtSpace, h25, h22, h20, Bool.false_eq_true, if_false]
  | ldrbImm o =>
    obtain ⟨⟨⟨h27, h26, h25, h22, h20⟩, -⟩, rfl⟩ := (encodeSdt_eq_iff w offsetForm false true true o).1 h
    simp only [decodeWord_sdtSpace h27 h26, decodeSdtSpace, h25, h22, h20, Bool.false_eq_true, if_false]
  | strImm o =>
    obtain ⟨⟨⟨h27, h26, h25, h22, h20⟩, -⟩, rfl⟩ := (encodeSdt_eq_iff w offsetForm false false false o).1 h
    simp only [decodeWord_sdtSpace h27 h26, decodeSdtSpace, h25, h22, h20, Bool.false_eq_true, if_false]
  | strbImm o =>
    obtain ⟨⟨⟨h27, h26, h25, h22, h20⟩, -⟩, rfl⟩ := (encodeSdt_eq_iff w offsetForm false true false o).1 h
    simp only [decodeWord_sdtSpace h27 h26, decodeSdtSpace, h25, h22, h20, Bool.false_eq_true, if_false]
  | ldrReg o =>
    obtain ⟨⟨⟨h27, h26, h25, h22, h20⟩, h4⟩, rfl⟩ := (encodeSdt_eq_iff w regForm true false true o).1 h
    simp only [decodeWord_sdtSpace h27 h26, decodeSdtSpace, h25, h4, h22, h20, Bool.false_eq_true, if_false, if_true]
  | ldrbReg o =>
    obtain ⟨⟨⟨h27, h26, h25, h22, h20⟩, h4⟩, rfl⟩ := (encodeSdt_eq_iff w regForm true true true o).1 h
    simp only [decodeWord_sdtSpace h27 h26, decodeSdtSpace, h25, h4, h22, h20, Bool.false_eq_true, if_false, if_true]
  | strReg o =>
    obtain ⟨⟨⟨h27, h26, h25, h22, h20⟩, h4⟩, rfl⟩ := (encodeSdt_eq_iff w regForm true false false o).1 h
    simp only [decodeWord_sdtSpace h27 h26, decodeSdtSpace, h25, h4, h22, h20, Bool.false_eq_true, if_false, if_true]
  | strbReg o =>
    obtain ⟨⟨⟨h27, h26, h25, h22, h20⟩, h4⟩, rfl⟩ := (encodeSdt_eq_iff w regForm true true false o).1 h
    simp only [decodeWord_sdtSpace h27 h26, decodeSdtSpace, h25, h4, h22, h20, Bool.false_eq_true, if_false, if_true]
  | ldm o =>
    obtain ⟨⟨h27, h26, h25, h20⟩, rfl⟩ := (encodeBdt_eq_iff w true o).1 h
    simp only [decodeWord_blockSpace h27 h26, decodeBlockSpace, h25, h20, Bool.false_eq_true, if_false, if_true]
  | stm o =>
    obtain ⟨⟨h27, h26, h25, h20⟩, rfl⟩ := (encodeBdt_eq_iff w false o).1 h
    simp only [decodeWord_blockSpace h27 h26, decodeBlockSpace, h25, h20, Bool.false_eq_true, if_false]
  | b o =>
    obtain ⟨⟨h27, h26, h25, h24⟩, rfl⟩ := (encodeBr_eq_iff w false o).1 h
    simp only [decodeWord_blockSpace h27 h26, decodeBlockSpace, h25, h24, Bool.false_eq_true, if_false, if_true]
  | bl o =>
    obtain ⟨⟨h27, h26, h25, h24⟩, rfl⟩ := (encodeBr_eq_iff w true o).1 h
    simp only [decodeWord_blockSpace h27 h26, decodeBlockSpace, h25, h24, if_true]
  | ldc o =>
    obtain ⟨⟨h27, h26, h25, h20⟩, rfl⟩ := (encodeCdt_eq_iff w true o).1 h
    simp only [decodeWord_coprocSpace h27 h26, decodeCoprocSpace, h25, h20, Bool.false_eq_true, if_false, if_true]
  | stc o =>
    obtain ⟨⟨h27, h26, h25, h20⟩, rfl⟩ := (encodeCdt_eq_iff w false o).1 h
    simp only [decodeWord_coprocSpace h27 h26, decodeCoprocSpace, h25, h20, Bool.false_eq_true, if_false]
  | cdp o =>
    obtain ⟨⟨h27, h26, h25, h24, h4⟩, rfl⟩ := (encodeCdo_eq_iff w o).1 h
    simp only [decodeWord_coprocSpace h27 h26, decodeCoprocSpace, h25, h24, h4, Bool.false_eq_true, if_false, if_true]
  | mcr o =>
    obtain ⟨⟨h27, h26, h25, h24, h20, h4⟩, rfl⟩ := (encodeCrt_eq_iff w true o).1 h
    simp only [decodeWord_coprocSpace h27 h26, decodeCoprocSpace, h25, h24, h20, h4, Bool.false_eq_true, if_false, if_true]
  | mrc o =>
    obtain ⟨⟨h27, h26, h25, h24, h20, h4⟩, rfl⟩ := (encodeCrt_eq_iff w false o).1 h
    simp only [decodeWord_coprocSpace h27 h26, decodeCoprocSpace, h25, h24, h20, h4, Bool.false_eq_true, if_false, if_true]
  | swi o =>
    obtain ⟨⟨h27, h26, h25, h24⟩, rfl⟩ := (encodeSwi_eq_iff w o).1 h
    simp only [decodeWord_coprocSpace h27 h26, decodeCoprocSpace, h25, h24, if_true]

/-! ### From the word to the instruction and back -/

/-- The word is that of the instruction, which keeps its row's rules. -/
def IsWordOf (w : Word) (i : Instr) : Prop := WellFormed i ∧ encode i = w

section
variable {w : Word}

/-- Bits 27:25 = 001: the opcode picks the row, and only a test with S = 0 has none of its own. -/
theorem decodeDpImm_isWordOf (h27 : bitAt w 27 = false) (h26 : bitAt w 26 = false)
    (h25 : bitAt w 25 = true) : IsWordOf w (decodeDpImm w) := by
  have dp {k} (hop : field w 21 4 = k) : encodeDp (flag true) k ImmOp.bits (dpOf immOpOf w) = w :=
    (encodeDp_eq_iff w immForm true k _).2 ⟨⟨⟨h27, h26, h25⟩, hop, trivial⟩, rfl⟩
  have test {k} (hop : field w 21 4 = k) (h20 : bitAt w 20 = true) : encodeTest (flag true) k ImmOp.bits (testOf immOpOf w) = w :=
    (encodeTest_eq_iff w immForm true k _).2 ⟨⟨⟨h27, h26, h25, h20⟩, hop, trivial⟩, rfl⟩
  have unspecified (h24 : bitAt w 24 = true) (h23 : bitAt w 23 = false) (h20 : ¬ bitAt w 20 = true) :
      IsWordOf w (.unspecifiedTestS0Imm (rawOf w)) :=
    ⟨(fits_unspecifiedTestS0Imm_iff w).2 ⟨h27, h26, h25, h24, h23, eq_false_of_ne_true h20⟩, (encodeRaw_eq_iff w _).2 rfl⟩
  rw [decodeDpImm]
  split
  case h_1 hop | h_2 hop | h_3 hop | h_4 hop | h_5 hop | h_6 hop | h_7 hop | h_8 hop | h_13 hop | h_14 hop | h_15 hop =>
    exact ⟨rfl, dp hop⟩
  case h_9 hop | h_10 hop | h_11 hop | h_12 hop =>
    obtain ⟨h24, h23, -⟩ := (opcode_eq_iff _).1 hop
    split
    next h20 => exact ⟨rfl, test hop h20⟩
    next h20 => exact unspecified h24 h23 h20
  case h_16 =>
    have hop : field w 21 4 = 15 := by simp only [imp_false] at *; bv_omega
    exact ⟨rfl, dp hop⟩

/-- Bits 27:25 = 000 and bit 4 clear: the opcode picks the row, and only a test with S = 0 has none of its own. -/
theorem decodeDpReg_isWordOf (h27 : bitAt w 27 = false) (h26 : bitAt w 26 = false)
    (h25 : bitAt w 25 = false) (h4 : bitAt w 4 = false) : IsWordOf w (decodeDpReg w) := by
  have dp {k} (hop : field w 21 4 = k) : encodeDp (flag false) k RegOp.bits (dpOf regOpOf w) = w :=
    (encodeDp_eq_iff w regForm false k _).2 ⟨⟨⟨h27, h26, h25⟩, hop, h4⟩, rfl⟩
  have test {k} (hop : field w 21 4 = k) (h20 : bitAt w 20 = true) : encodeTest (flag false) k RegOp.bits (testOf regOpOf w) = w :=
    (encodeTest_eq_iff w regForm false k _).2 ⟨⟨⟨h27, h26, h25, h20⟩, hop, h4⟩, rfl⟩
  have unspecified (h24 : bitAt w 24 = true) (h23 : bitAt w 23 = false) (h20 : ¬ bitAt w 20 = true) :
      IsWordOf w (.unspecifiedTestS0Reg (rawOf w)) :=
    ⟨(fits_unspecifiedTestS0Reg_iff w).2 ⟨h27, h26, h25, h24, h23, eq_false_of_ne_true h20, h4⟩, (encodeRaw_eq_iff w _).2 rfl⟩
  rw [decodeDpReg]
  split
  case h_1 hop | h_2 hop | h_3 hop | h_4 hop | h_5 hop | h_6 hop | h_7 hop | h_8 hop | h_13 hop | h_14 hop | h_15 hop =>
    exact ⟨rfl, dp hop⟩
  case h_9 hop | h_10 hop | h_11 hop | h_12 hop =>
    obtain ⟨h24, h23, -⟩ := (opcode_eq_iff _).1 hop
    split
    next h20 => exact ⟨rfl, test hop h20⟩
    next h20 => exact unspecified h24 h23 h20
  case h_16 =>
    have hop : field w 21 4 = 15 := by simp only [imp_false] at *; bv_omega
    exact ⟨rfl, dp hop⟩

/-- Bits 27:25 = 000, bit 7 clear and bit 4 set: the opcode picks the row, and only a test with S = 0 has none of its own. -/
theorem decodeDpRegShift_isWordOf (h27 : bitAt w 27 = false) (h26 : bitAt w 26 = false)
    (h25 : bitAt w 25 = false) (h7 : bitAt w 7 = false) (h4 : bitAt w 4 = true) : IsWordOf w (decodeDpRegShift w) := by
  have dp {k} (hop : field w 21 4 = k) : encodeDp (flag false) k RegShiftOp.bits (dpOf regShiftOpOf w) = w :=
    (encodeDp_eq_iff w regShiftForm false k _).2 ⟨⟨⟨h27, h26, h25⟩, hop, h7, h4⟩, rfl⟩
  have test {k} (hop : field w 21 4 = k) (h20 : bitAt w 20 = true) : encodeTest (flag false) k RegShiftOp.bits (testOf regShiftOpOf w) = w :=
    (encodeTest_eq_iff w regShiftForm false k _).2 ⟨⟨⟨h27, h26, h25, h20⟩, hop, h7, h4⟩, rfl⟩
  have unspecified (h24 : bitAt w 24 = true) (h23 : bitAt w 23 = false) (h20 : ¬ bitAt w 20 = true) :
      IsWordOf w (.unspecifiedTestS0RegShift (rawOf w)) :=
    ⟨(fits_unspecifiedTestS0RegShift_iff w).2 ⟨h27, h26, h25, h24, h23, eq_false_of_ne_true h20, h7, h4⟩, (encodeRaw_eq_iff w _).2 rfl⟩
  rw [decodeDpRegShift]
  split
  case h_1 hop | h_2 hop | h_3 hop | h_4 hop | h_5 hop | h_6 hop | h_7 hop | h_8 hop | h_13 hop | h_14 hop | h_15 hop =>
    exact ⟨rfl, dp hop⟩
  case h_9 hop | h_10 hop | h_11 hop | h_12 hop =>
    obtain ⟨h24, h23, -⟩ := (opcode_eq_iff _).1 hop
    split
    next h20 => exact ⟨rfl, test hop h20⟩
    next h20 => exact unspecified h24 h23 h20
  case h_16 =>
    have hop : field w 21 4 = 15 := by simp only [imp_false] at *; bv_omega
    exact ⟨rfl, dp hop⟩

/-- Bits 27:25 = 000 with bits 7 and 4: what is no UNDEFINED_1 and in no unallocated row has the fixed bits of a multiply. -/
theorem decodeMulSpace_isWordOf (h27 : bitAt w 27 = false) (h26 : bitAt w 26 = false) (h25 : bitAt w 25 = false)
    (h7 : bitAt w 7 = true) (h4 : bitAt w 4 = true) : IsWordOf w (decodeMulSpace w) := by
  have raw : encodeRaw (rawOf w) = w := (encodeRaw_eq_iff w _).2 rfl
  rw [decodeMulSpace]
  split
  next h24 => exact ⟨(fits_undefined1_iff w).2 ⟨h27, h26, h25, h24, h7, h4⟩, raw⟩
  next h24 =>
  rw [Bool.not_eq_true] at h24
  split
  next h23 => exact ⟨(fits_unallocatedA_iff w).2 ⟨h27, h26, h25, h24, h23, h7, h4⟩, raw⟩
  next h23 =>
  rw [Bool.not_eq_true] at h23
  split
  next h22 => exact ⟨(fits_unallocatedB_iff w).2 ⟨h27, h26, h25, h24, h23, h22, h7, h4⟩, raw⟩
  next h22 =>
  rw [Bool.not_eq_true] at h22
  split
  next h6 => exact ⟨(fits_unallocatedC_iff w).2 ⟨h27, h26, h25, h24, h23, h22, h7, h6, h4⟩, raw⟩
  next h6 =>
  rw [Bool.not_eq_true] at h6
  split
  next h5 => exact ⟨(fits_unallocatedD_iff w).2 ⟨h27, h26, h25, h24, h23, h22, h7, h6, h5, h4⟩, raw⟩
  next h5 =>
  rw [Bool.not_eq_true] at h5
  have mul {acc} (h21 : bitAt w 21 = acc) : encodeMul (flag acc) (mulOf w) = w :=
    (encodeMul_eq_iff w acc _).2 ⟨⟨⟨h27, h26, h25, h24, h23, h22⟩, h21, h7, h6, h5, h4⟩, rfl⟩
  split
  next h21 => exact ⟨rfl, (mul h21 :)⟩
  next h21 => exact ⟨rfl, (mul (eq_false_of_ne_true h21) :)⟩

theorem decodeSdtSpace_isWordOf (h27 : bitAt w 27 = false) (h26 : bitAt w 26 = true) : IsWordOf w (decodeSdtSpace w) := by
  rw [decodeSdtSpace]
  split
  next h25 =>
    split
    next h4 => exact ⟨(fits_undefined2_iff w).2 ⟨h27, h26, h25, h4⟩, (encodeRaw_eq_iff w _).2 rfl⟩
    next h4 =>
    have sdt {load byte} (h20 : bitAt w 20 = load) (h22 : bitAt w 22 = byte) :
        encodeSdt (flag true) (flag byte) (flag load) RegOp.bits (sdtOf regOpOf w) = w :=
      (encodeSdt_eq_iff w regForm true byte load _).2 ⟨⟨⟨h27, h26, h25, h22, h20⟩, eq_false_of_ne_true h4⟩, rfl⟩
    split
    case h_1 h20 h22 | h_2 h20 h22 | h_3 h20 h22 | h_4 h20 h22 => exact ⟨rfl, (sdt h20 h22 :)⟩
  next h25 =>
    have sdt {load byte} (h20 : bitAt w 20 = load) (h22 : bitAt w 22 = byte) :
        encodeSdt (flag false) (flag byte) (flag load) id (sdtOf (field · 0 12) w) = w :=
      (encodeSdt_eq_iff w offsetForm false byte load _).2 ⟨⟨⟨h27, h26, eq_false_of_ne_true h25, h22, h20⟩, trivial⟩, rfl⟩
    split
    case h_1 h20 h22 | h_2 h20 h22 | h_3 h20 h22 | h_4 h20 h22 => exact ⟨rfl, (sdt h20 h22 :)⟩

theorem decodeBlockSpace_isWordOf (h27 : bitAt w 27 = true) (h26 : bitAt w 26 = false) : IsWordOf w (decodeBlockSpace w) := by
  rw [decodeBlockSpace]
  split
  next h25 =>
    have br {link} (h24 : bitAt w 24 = link) : encodeBr (flag link) (brOf w) = w :=
      (encodeBr_eq_iff w link _).2 ⟨⟨h27, h26, h25, h24⟩, rfl⟩
    split
    next h24 => exact ⟨rfl, (br h24 :)⟩
    next h24 => exact ⟨rfl, (br (eq_false_of_ne_true h24) :)⟩
  next h25 =>
    have bdt {load} (h20 : bitAt w 20 = load) : encodeBdt (flag load) (bdtOf w) = w :=
      (encodeBdt_eq_iff w load _).2 ⟨⟨h27, h26, eq_false_of_ne_true h25, h20⟩, rfl⟩
    split
    next h20 => exact ⟨rfl, (bdt h20 :)⟩
    next h20 => exact ⟨rfl, (bdt (eq_false_of_ne_true h20) :)⟩

theorem decodeCoprocSpace_isWordOf (h27 : bitAt w 27 = true) (h26 : bitAt w 26 = true) : IsWordOf w (decodeCoprocSpace w) := by
  rw [decodeCoprocSpace]
  split
  next h25 =>
    split
    next h24 => exact ⟨rfl, (encodeSwi_eq_iff w _).2 ⟨⟨h27, h26, h25, h24⟩, rfl⟩⟩
    next h24 =>
    rw [Bool.not_eq_true] at h24
    split
    next h4 =>
      have crt {load} (h20 : bitAt w 20 = load) : encodeCrt (flag load) (crtOf w) = w :=
        (encodeCrt_eq_iff w load _).2 ⟨⟨h27, h26, h25, h24, h20, h4⟩, rfl⟩
      split
      next h20 => exact ⟨rfl, (crt h20 :)⟩
      next h20 => exact ⟨rfl, (crt (eq_false_of_ne_true h20) :)⟩
    next h4 => exact ⟨rfl, (encodeCdo_eq_iff w _).2 ⟨⟨h27, h26, h25, h24, eq_false_of_ne_true h4⟩, rfl⟩⟩
  next h25 =>
    have cdt {load} (h20 : bitAt w 20 = load) : encodeCdt (flag load) (cdtOf w) = w :=
      (encodeCdt_eq_iff w load _).2 ⟨⟨h27, h26, eq_false_of_ne_true h25, h20⟩, rfl⟩
    split
    next h20 => exact ⟨rfl, (cdt h20 :)⟩
    next h20 => exact ⟨rfl, (cdt (eq_false_of_ne_true h20) :)⟩

end

/-- The path of the decoder, by the bits it reads: each word is that of the instruction it decodes to. -/
theorem decodeWord_isWordOf (w : Word) : IsWordOf w (decodeWord w) := by
  cases h27 : bitAt w 27 <;> cases h26 : bitAt w 26
  case true.true => exact decodeWord_coprocSpace h27 h26 ▸ decodeCoprocSpace_isWordOf h27 h26
  case true.false => exact decodeWord_blockSpace h27 h26 ▸ decodeBlockSpace_isWordOf h27 h26
  case false.true => exact decodeWord_sdtSpace h27 h26 ▸ decodeSdtSpace_isWordOf h27 h26
  case false.false =>
    cases h25 : bitAt w 25
    case true => exact decodeWord_dpImm h27 h26 h25 ▸ decodeDpImm_isWordOf h27 h26 h25
    case false =>
      cases h4 : bitAt w 4
      case false => exact decodeWord_dpReg h27 h26 h25 h4 ▸ decodeDpReg_isWordOf h27 h26 h25 h4
      case true =>
        cases h7 : bitAt w 7
        case false => exact decodeWord_dpRegShift h27 h26 h25 h7 h4 ▸ decodeDpRegShift_isWordOf h27 h26 h25 h7 h4
        case true => exact decodeWord_mulSpace h27 h26 h25 h7 h4 ▸ decodeMulSpace_isWordOf h27 h26 h25 h7 h4

/-- A word decodes to an instruction exactly when it is the instruction's word. -/
theorem decodeWord_eq_iff (w : Word) (i : Instr) : decodeWord w = i ↔ IsWordOf w i :=
  ⟨fun h => h ▸ decodeWord_isWordOf w, fun ⟨hwf, h⟩ => decodeWord_of_encode hwf h⟩

/-- Settles O1: the fixed bits of the row lead the decoder back to it. -/
theorem decodeEncodeRoundTrip : Obligations.DecodeEncodeRoundTrip := fun _ hwf => decodeWord_of_encode hwf rfl

/-- Settles O2: along the decoder's paths. -/
theorem encodeDecodeRoundTrip : Obligations.EncodeDecodeRoundTrip := decodeWord_isWordOf

/-! ### The reserved regions and the multiplies (R103, R108, R118, R119) -/

section
variable (w : Word)

/-- A row that keeps its word whole is what a word decodes to exactly when the word lies in the row's region. -/
theorem exists_isWordOf_raw_iff {row : Raw → Instr} {mask pattern : BitVec 28}
    (hregion : ∀ o, WellFormed (row o) ↔ o.fits mask pattern = true) (hword : ∀ o, encode (row o) = encodeRaw o) :
    (∃ o, decodeWord w = row o) ↔ (rawOf w).fits mask pattern = true := by
  simp only [decodeWord_eq_iff, IsWordOf, hregion, hword, encodeRaw_eq_iff]
  exact ⟨fun ⟨_, hfits, heq⟩ => heq ▸ hfits, fun hfits => ⟨_, hfits, rfl⟩⟩

theorem decodeWord_undefined1_iff :
    (∃ o, decodeWord w = .undefined1 o) ↔ field w 24 4 = 0b0001 ∧ bitAt w 7 = true ∧ bitAt w 4 = true := by
  rw [exists_isWordOf_raw_iff w (fun _ => Iff.rfl) fun _ => rfl, fits_undefined1_iff, field_four_iff]
  exact ⟨fun ⟨h27, h26, h25, h24, h7, h4⟩ => ⟨⟨h27, h26, h25, h24⟩, h7, h4⟩,
    fun ⟨⟨h27, h26, h25, h24⟩, h7, h4⟩ => ⟨h27, h26, h25, h24, h7, h4⟩⟩

theorem decodeWord_undefined2_iff : (∃ o, decodeWord w = .undefined2 o) ↔ field w 25 3 = 0b011 ∧ bitAt w 4 = true := by
  rw [exists_isWordOf_raw_iff w (fun _ => Iff.rfl) fun _ => rfl, fits_undefined2_iff, field_three_iff]
  exact ⟨fun ⟨h27, h26, h25, h4⟩ => ⟨⟨h27, h26, h25⟩, h4⟩, fun ⟨⟨h27, h26, h25⟩, h4⟩ => ⟨h27, h26, h25, h4⟩⟩

theorem decodeWord_multiply_iff :
    (∃ o, decodeWord w = .mul o ∨ decodeWord w = .mla o) ↔ field w 22 6 = 0 ∧ field w 4 4 = 0b1001 := by
  have hmul o : decodeWord w = .mul o ↔ encodeMul (flag false) o = w := (decodeWord_eq_iff w _).trans (and_iff_right rfl)
  have hmla o : decodeWord w = .mla o ↔ encodeMul (flag true) o = w := (decodeWord_eq_iff w _).trans (and_iff_right rfl)
  simp only [hmul, hmla, encodeMul_eq_iff, field_six_iff w 22, field_four_iff w 4]
  constructor
  · rintro ⟨o, ⟨⟨hhigh, -, hlow⟩, -⟩ | ⟨⟨hhigh, -, hlow⟩, -⟩⟩ <;> exact ⟨hhigh, hlow⟩
  · rintro ⟨hhigh, hlow⟩
    cases h21 : bitAt w 21
    case false => exact ⟨_, .inl ⟨⟨hhigh, rfl, hlow⟩, rfl⟩⟩
    case true => exact ⟨_, .inr ⟨⟨hhigh, rfl, hlow⟩, rfl⟩⟩

theorem decodeWord_unallocated_iff :
    (∃ o, decodeWord w = .unallocatedA o ∨ decodeWord w = .unallocatedB o ∨ decodeWord w = .unallocatedC o ∨
        decodeWord w = .unallocatedD o) ↔
      field w 24 4 = 0 ∧ bitAt w 7 = true ∧ bitAt w 4 = true ∧ (field w 22 2 ≠ 0 ∨ field w 5 2 ≠ 0) := by
  simp only [exists_or, exists_isWordOf_raw_iff w (row := .unallocatedA) (fun _ => Iff.rfl) fun _ => rfl,
    exists_isWordOf_raw_iff w (row := .unallocatedB) (fun _ => Iff.rfl) fun _ => rfl,
    exists_isWordOf_raw_iff w (row := .unallocatedC) (fun _ => Iff.rfl) fun _ => rfl,
    exists_isWordOf_raw_iff w (row := .unallocatedD) (fun _ => Iff.rfl) fun _ => rfl, fits_unallocatedA_iff,
    fits_unallocatedB_iff, fits_unallocatedC_iff, fits_unallocatedD_iff, ne_eq, field_four_iff w 24, field_two_iff]
  cases bitAt w 23 <;> cases bitAt w 22 <;> cases bitAt w 6 <;> simp [and_assoc, and_comm]

end

/-- Settles O4: the rows without fields by their regions, the multiplies by their fixed bits. -/
theorem reservedRegionsDecode : Obligations.ReservedRegionsDecode := fun w =>
  ⟨decodeWord_undefined1_iff w, decodeWord_undefined2_iff w, decodeWord_multiply_iff w, decodeWord_unallocated_iff w⟩

/-- Settles O3: the eleven words, read by the decoder. -/
theorem sampleWordsDecode : Obligations.SampleWordsDecode := ⟨rfl, rfl, rfl, rfl, rfl, rfl, rfl, rfl, rfl, rfl, rfl⟩

end Sys2Proof
end

section
/-! What the step does at an instruction boundary (R420 to R424, R404), and what runs after it (R72, R91, R470, R471). -/

namespace Sys2Proof.Machine

section
variable {s : State}

/-! ### The interrupts and the prefetch abort -/

/-- Settles O6: the boundary is the entry into FIRQ mode, which saves into R14_fiq and sets F. -/
theorem firqTaken : Obligations.FirqTaken := by
  intro s hres hcut hreset hfirq hf
  have hentry : step s = .next (s.enter .firq (s.pc + 1)) := by
    rw [step_of_boundary (boundary_of_firq hres hreset hfirq hf), s.interrupt_uncut .firq hcut]
  have htaken := s.enter_spec .firq (s.pc + 1) (by decide)
  rw [show Trap.setsF .firq = true from rfl, Bool.or_true] at htaken
  exact ⟨_, hentry, htaken, s.enter_keeps .firq _ (by decide)⟩

/-- Settles O7: the boundary is the entry into IRQ mode, which leaves F. -/
theorem irqTaken : Obligations.IrqTaken := by
  intro s hres hcut hreset hfirq hirq hi
  have hentry : step s = .next (s.enter .irq (s.pc + 1)) := by
    rw [step_of_boundary (boundary_of_irq hres hreset hfirq hirq hi), s.interrupt_uncut .irq hcut]
  have htaken := s.enter_spec .irq (s.pc + 1) (by decide)
  rw [show Trap.setsF .irq = false from rfl, Bool.or_false] at htaken
  exact ⟨_, hentry, htaken, s.enter_keeps .irq _ (by decide)⟩

/-- Settles O8: an aborted fetch leaves no word to look at, and the entry comes after the sample of the inputs. -/
theorem prefetchAbortTaken : Obligations.PrefetchAbortTaken := by
  intro s hboundary hcut haborted
  have hentry : step s = .next (s.beginInstr.enter .prefetchAbort (s.pc + 1)) := by
    rw [step_of_fetchAbort hboundary (fetch_of_aborted haborted), State.prefetchAbortOrCut, if_pos hcut, State.prefetchAbort,
      State.beginInstr_pc]
  obtain ⟨htaken, ⟨-, hreset, haborts, hcoprocs, hdraws⟩, -⟩ :=
    s.beginInstr.enter_svc_spec .prefetchAbort (s.pc + 1) (by decide) rfl rfl
  simp only [TrapTaken, State.beginInstr_psr, State.beginInstr_regs] at htaken
  exact ⟨_, hentry, htaken, KeepsCells.of_eq s.beginInstr_mem s.beginInstr_memMap, hreset.trans s.beginInstr_inReset,
    haborts.trans s.beginInstr_aborts, hcoprocs.trans s.beginInstr_coprocs, hdraws.trans s.beginInstr_draws⟩

/-! ### The instruction at the pc -/

theorem boundary_of_ready (h : Ready s) : boundary s = none := by
  obtain ⟨hres, -, hreset, hfirq, hirq, -⟩ := h
  obtain ⟨c, -⟩ | ⟨-, c, -⟩ | ⟨-, -, c, d, -⟩ | ⟨-, -, -, c, d, -⟩ | ⟨-, -, -, -, hnone⟩ := boundary_cases s
  · exact absurd (hres ▸ c) Bool.false_ne_true
  · exact absurd (hreset ▸ c) Bool.false_ne_true
  · exact absurd (d ▸ hfirq c) Bool.false_ne_true
  · exact absurd (d ▸ hirq c) Bool.false_ne_true
  · exact hnone

theorem fetch_of_not_aborted (h : s.aborted (fetchCycle s) = false) : fetch s = some (s.wordAt (s.pcv 0)) := by
  rw [fetch, h, if_neg Bool.false_ne_true]

/-- Nothing that RES does not cut is kept from running but by the prefetch and the settling window. -/
theorem step_of_uncut {w : Word} (hboundary : boundary s = none) (hfetch : fetch s = some w) (hstale : s.pipe.stale0 = false)
    (hhazard : hazardBlocks s (decodeWord w) = false) (hcut : s.pins.cut = .no) :
    step s = exec (decodeWord w) s.beginInstr := by
  rw [step_of_instruction hboundary hfetch hstale hhazard, execOrCut, if_pos hcut]

theorem State.nextPins_of_nil (hsched : s.pinSchedule = []) : s.nextPins = { s with pins := { s.pins with cut := .no } } := by
  rw [State.nextPins, hsched]

theorem State.nextPins_of_cons {p : Pins} {ps : List Pins} (hsched : s.pinSchedule = p :: ps) :
    s.nextPins = { s with pins := p, pinSchedule := ps } := by
  rw [State.nextPins, hsched]

/-- An instruction begins in the state that was, but for the next sample of the inputs and the count. -/
theorem State.beginInstr_eq (hclear : s.hazard = .clear) : s.beginInstr =
    { s with pins := s.beginInstr.pins, pinSchedule := s.beginInstr.pinSchedule, begun := s.begun + 1 } := by
  cases hsched : s.pinSchedule with
  | nil => simp only [State.beginInstr, State.nextPins_of_nil hsched, ← hclear]
  | cons p ps => simp only [State.beginInstr, State.nextPins_of_cons hsched, ← hclear]

/-- The sample is the head of the schedule, or the same levels again. -/
theorem State.beginInstr_sample (hcut : s.pins.cut = .no) :
    s.pinSchedule = s.beginInstr.pins :: s.beginInstr.pinSchedule ∨
      s.pinSchedule = [] ∧ s.beginInstr.pins = s.pins ∧ s.beginInstr.pinSchedule = [] := by
  cases hsched : s.pinSchedule with
  | nil =>
    rw [State.beginInstr_pins, State.beginInstr_pinSchedule, State.nextPins_of_nil hsched]
    exact .inr ⟨rfl, by rw [← hcut], hsched⟩
  | cons p ps =>
    rw [State.beginInstr_pins, State.beginInstr_pinSchedule, State.nextPins_of_cons hsched]
    exact .inl rfl

/-- Settles O5: the fetched word is the four bytes, and it runs in the state in which an instruction begins. -/
theorem stepRunsDecodedInstruction : Obligations.StepRunsDecodedInstruction := by
  intro s i hready haborted _ hdecode
  have hword : decodeWord (s.wordAt (s.pcv 0)) = i := by
    rw [decode] at hdecode
    injection hdecode with hpair
    exact (Prod.ext_iff.1 hpair).1
  have hboundary := boundary_of_ready hready
  obtain ⟨-, hcut, -, -, -, hclear, hstale⟩ := hready
  have hhazard : hazardBlocks s (decodeWord (s.wordAt (s.pcv 0))) = false := by simp [hazardBlocks, hclear]
  have hstep := step_of_uncut hboundary (fetch_of_not_aborted haborted) hstale hhazard hcut
  rw [hword] at hstep
  exact ⟨s.beginInstr, hstep, State.beginInstr_eq hclear, State.beginInstr_sample hcut⟩

/-! ### What the prefetch and the settling window stop (R91, R470, R471) -/

theorem step_of_stale {w : Word} (hboundary : boundary s = none) (hfetch : fetch s = some w) (hstale : s.pipe.stale0 = true) :
    step s = .refused .stalePrefetch := by
  simp [step, hboundary, hfetch, hstale]

theorem step_of_hazard {w : Word} (hboundary : boundary s = none) (hfetch : fetch s = some w) (hstale : s.pipe.stale0 = false)
    (hhazard : hazardBlocks s (decodeWord w) = true) : step s = .refused .bankedRegisterTooSoon := by
  simp [step, hboundary, hfetch, hstale, hhazard]

theorem isBanked_iff (r : RegNum) : isBanked r = true ↔ 8 ≤ r.toNat ∧ r.toNat ≤ 14 := by
  simp [isBanked]

theorem any_isBanked_eq_true {rs : List RegNum} (h : ∃ r ∈ rs, 8 ≤ r.toNat ∧ r.toNat ≤ 14) : rs.any isBanked = true := by
  simpa only [List.any_eq_true, isBanked_iff] using h

theorem any_isBanked_eq_false {rs : List RegNum} (h : ∀ r ∈ rs, r.toNat < 8 ∨ r = 15) : rs.any isBanked = false := by
  rw [List.any_eq_false]
  intro r hr hbanked
  obtain ⟨hlow, hhigh⟩ := (isBanked_iff r).1 hbanked
  obtain hr | rfl := h r hr
  · omega
  · exact absurd hhigh (by decide)

theorem hazardBlocks_of_condFailed {i : Instr} (hc : condPassed i.cond s.psr = false) : hazardBlocks s i = false := by
  rw [hazardBlocks, hc, Bool.false_and]

theorem hazardBlocks_modeChanged {i : Instr} (hc : condPassed i.cond s.psr = true) (h : s.hazard = .modeChanged) :
    hazardBlocks s i = (regsRead s i ++ regsWritten s i).any isBanked := by
  rw [hazardBlocks, hc, h, Bool.true_and]

theorem hazardBlocks_userBankLoaded {i : Instr} (hc : condPassed i.cond s.psr = true) (h : s.hazard = .userBankLoaded) :
    hazardBlocks s i = (regsRead s i).any isBanked := by
  rw [hazardBlocks, hc, h, Bool.true_and]

/-- Settles O10: the mark of the word first, then the window, which looks at the register fields of an instruction that passes. -/
theorem hazardsRefused : Obligations.HazardsRefused := by
  intro s w hboundary hfetch
  refine ⟨step_of_stale hboundary hfetch, fun hstale hc => ⟨fun hwindow hbanked => ?modeStops, fun hwindow hbanked => ?userStops,
    fun hwindow hfree hcut => ?modeRuns, fun hwindow hfree hcut => ?userRuns⟩, fun hstale hc hcut => ?skipped⟩
  case modeStops =>
    exact step_of_hazard hboundary hfetch hstale ((hazardBlocks_modeChanged hc hwindow).trans (any_isBanked_eq_true hbanked))
  case userStops =>
    exact step_of_hazard hboundary hfetch hstale ((hazardBlocks_userBankLoaded hc hwindow).trans (any_isBanked_eq_true hbanked))
  case modeRuns =>
    exact step_of_uncut hboundary hfetch hstale ((hazardBlocks_modeChanged hc hwindow).trans (any_isBanked_eq_false hfree)) hcut
  case userRuns =>
    exact step_of_uncut hboundary hfetch hstale ((hazardBlocks_userBankLoaded hc hwindow).trans (any_isBanked_eq_false hfree)) hcut
  case skipped => exact step_of_uncut hboundary hfetch hstale (hazardBlocks_of_condFailed hc) hcut

end

/-! ### The state after reset -/

/-- Settles O11: read off the state. -/
theorem resetState : Obligations.ResetState :=
  ⟨rfl, rfl, rfl, rfl, rfl, rfl, by decide, rfl, rfl, rfl, rfl, rfl, fun _ => rfl, fun _ => rfl, rfl, rfl⟩

end Sys2Proof.Machine
end

section
/-! The words without a meaning (R175, R326), and the rotated immediate (R161). -/

namespace Sys2Proof.Machine

theorem unspecifiedTest_passed (o : Raw) (s : State) (hc : condPassed o.cond s.psr = true) :
    unspecifiedTest o s = .refused .testWithoutS := ifPassed_true _ _ _ hc

/-- The platform refuses the unallocated words (D11). -/
theorem unallocatedWord_passed (o : Raw) (s : State) (hc : condPassed o.cond s.psr = true) :
    unallocatedWord o s = .refused .unallocated := ifPassed_true _ _ _ hc

/-- Settles O20: the three test rows are the one stop, and the four unallocated rows the other. -/
theorem meaninglessWordsRefused : Obligations.MeaninglessWordsRefused := by
  intro o s hc
  have htest := unspecifiedTest_passed o s hc
  have hword := unallocatedWord_passed o s hc
  exact ⟨htest, htest, htest, hword, hword, hword, hword⟩

/-- Settles O23: the value reads round the extended immediate, and the carry is its top bit. -/
theorem rotatedImmediate : Obligations.RotatedImmediate := by
  intro c o
  have hamount : 2 * o.rotate.toNat < 32 := by have := o.rotate.isLt; omega
  refine ⟨fun j hj => bitAt_rotateRight _ hamount hj, fun hzero => if_pos hzero, fun hne => ?carry⟩
  exact (if_neg hne).trans (msb_eq_bitAt _)

end Sys2Proof.Machine
end

section
/-! Single transfers that abort (R252, R405, R84). -/

namespace Sys2Proof.Machine

section
variable {α : Type} (o : Sdt α) (off : Word) (s : State)

/-! ### The aborts of the bus cycles -/

theorem State.readWord_of_readAborts {forced : Bool} {a : Word} (h : s.readAborts forced a = true) : s.readWord forced a = none :=
  if_pos h

theorem State.readByte_of_aborted {forced : Bool} {a : Word} (h : s.aborted (s.dataCycle .read true forced a) = true) :
    s.readByte forced a = none := if_pos h

theorem State.writeWord_of_aborted {forced : Bool} {a : Word} (v : Word)
    (h : s.aborted (s.dataCycle .write false forced a) = true) : s.writeWord forced a v = ⟨s, true⟩ := if_pos h

theorem State.writeByte_of_aborted {forced : Bool} {a : Word} (b : Byte)
    (h : s.aborted (s.dataCycle .write true forced a) = true) : s.writeByte forced a b = ⟨s, true⟩ := if_pos h

theorem bytesBelowBoundary_eq (a : Word) : bytesBelowBoundary a = 4 - a.toNat % 4 := by
  rw [bytesBelowBoundary, field, BitVec.extractLsb'_toNat, Nat.shiftRight_zero]

/-- A second cycle that aborts alone leaves the bytes of the first one written (R84). -/
theorem State.writeWord_of_secondAborted {forced : Bool} {a : Word} (v : Word) (hun : a.toNat % 4 ≠ 0)
    (hfirst : s.aborted (s.dataCycle .write false forced a) = false)
    (hsecond : s.aborted (s.dataCycle .write false forced (nextWord a)) = true) :
    s.writeWord forced a v = ⟨s.storeBytes a ((bytesOfWord v).take (4 - a.toNat % 4)), true⟩ := by
  rw [State.writeWord, hfirst, aligned_eq, decide_eq_false hun, hsecond, bytesBelowBoundary_eq]
  rfl

/-! ### A transfer none of whose data arrives -/

/-- The transfer has taken the data abort and has changed nothing else. -/
def AbortsWhole (s : State) (r : Result) : Prop :=
  ∃ t, r = .next t ∧ TrapTaken s t (.svc 1) (s.pc + 2) 4 .svc s.psr.f ∧ KeepsForTrap s t ∧ KeepsInputs s t

theorem abortsWhole_dataAbort : AbortsWhole s (.next (s.enter .dataAbort (s.pc + 2))) := ⟨_, rfl, s.dataAbort_spec⟩

theorem loadWord_abortsWhole (hc : condPassed o.cond s.psr = true)
    (hab : s.readAborts (forcedTran o.p o.w) (sdtAddr s o off).addr = true) : AbortsWhole s (loadWord o off s) := by
  rw [loadWord, ifPassed_true _ _ _ hc, refusesUnaligned_eq_false, if_neg Bool.false_ne_true, s.readWord_of_readAborts hab]
  exact abortsWhole_dataAbort s

theorem loadByte_abortsWhole (hc : condPassed o.cond s.psr = true)
    (hab : s.aborted (s.dataCycle .read true (forcedTran o.p o.w) (sdtAddr s o off).addr) = true) :
    AbortsWhole s (loadByte o off s) := by
  rw [loadByte, ifPassed_true _ _ _ hc, s.readByte_of_aborted hab]
  exact abortsWhole_dataAbort s

/-- A word store that keeps its data register and its written-back base apart ends as its bus cycles say. -/
theorem storeWord_eq_finishStore (hc : condPassed o.cond s.psr = true) (hne : (sdtAddr s o off).wb = true → o.rd ≠ o.rn) :
    storeWord o off s = .next (finishStore o
      (s.writeWord (forcedTran o.p o.w) (sdtAddr s o off).addr (sdtStoreValue o s)) (sdtAddr s o off)) := by
  rw [storeWord, ifPassed_true _ _ _ hc, storesBase_eq_false hne, refusesUnaligned_eq_false, if_neg Bool.false_ne_true,
    if_neg Bool.false_ne_true]

theorem storeWord_abortsWhole (hc : condPassed o.cond s.psr = true) (hne : (sdtAddr s o off).wb = true → o.rd ≠ o.rn)
    (hab : s.aborted (s.dataCycle .write false (forcedTran o.p o.w) (sdtAddr s o off).addr) = true) :
    AbortsWhole s (storeWord o off s) := by
  rw [storeWord_eq_finishStore o off s hc hne, s.writeWord_of_aborted _ hab]
  exact abortsWhole_dataAbort s

theorem storeByteOf_abortsWhole (hc : condPassed o.cond s.psr = true) (hne : (sdtAddr s o off).wb = true → o.rd ≠ o.rn)
    (hab : s.aborted (s.dataCycle .write true (forcedTran o.p o.w) (sdtAddr s o off).addr) = true) :
    AbortsWhole s (storeByteOf o off s) := by
  rw [storeByteOf, ifPassed_true _ _ _ hc, storesBase_eq_false hne, if_neg Bool.false_ne_true, s.writeByte_of_aborted _ hab]
  exact abortsWhole_dataAbort s

/-! ### A store of which the second cycle aborts -/

/-- The bytes of a word that lie below a boundary are its topmost (R70, R71). -/
theorem getElem?_take_bytesOfWord (v : Word) {below k : Nat} (hk : k < below) (hbelow : below ≤ 4) :
    ((bytesOfWord v).take below)[k]? = some (v.extractLsb' (24 - 8 * k) 8) := by
  rw [List.getElem?_take_of_lt hk]
  match k, Nat.lt_of_lt_of_le hk hbelow with
  | 0, _ | 1, _ | 2, _ | 3, _ => rfl

theorem storeWord_secondAborted (hwf : s.mem.wf = true) (hc : condPassed o.cond s.psr = true)
    (hne : (sdtAddr s o off).wb = true → o.rd ≠ o.rn) (hun : (sdtAddr s o off).addr.toNat % 4 ≠ 0)
    (hfirst : s.aborted (s.dataCycle .write false (forcedTran o.p o.w) (sdtAddr s o off).addr) = false)
    (hsecond : s.aborted (s.dataCycle .write false (forcedTran o.p o.w) (nextWord (sdtAddr s o off).addr)) = true) :
    ∃ t, storeWord o off s = .next t ∧ TrapTaken s t (.svc 1) (s.pc + 2) 4 .svc s.psr.f ∧
      (∀ k, k < 4 - (sdtAddr s o off).addr.toNat % 4 → HoldsByte s t ((sdtAddr s o off).addr + BitVec.ofNat 32 k)
        ((sdtStoreValue o s).extractLsb' (24 - 8 * k) 8)) ∧
      KeepsMemoryOutside (sdtAddr s o off).addr (4 - (sdtAddr s o off).addr.toNat % 4) s t ∧ KeepsInputs s t ∧
      t.coprocs = s.coprocs ∧ t.draws = s.draws := by
  have hexec := storeWord_eq_finishStore o off s hc hne
  rw [s.writeWord_of_secondAborted _ hun hfirst hsecond] at hexec
  generalize (sdtAddr s o off).addr = a at *
  have hbelow : 4 - a.toNat % 4 ≤ 4 := Nat.sub_le _ _
  have hlength : ((bytesOfWord (sdtStoreValue o s)).take (4 - a.toNat % 4)).length = 4 - a.toNat % 4 := by
    rw [List.length_take, bytesOfWord_length, Nat.min_eq_left hbelow]
  have hsize : ((bytesOfWord (sdtStoreValue o s)).take (4 - a.toNat % 4)).length ≤ busSize s := by
    rw [hlength, busSize]
    split <;> omega
  have hholds := fun k hk => s.holdsByte_storeBytes a _ k _ hwf hsize (getElem?_take_bytesOfWord (sdtStoreValue o s) hk hbelow)
  have houtside := s.storeBytes_keepsOutside a ((bytesOfWord (sdtStoreValue o s)).take (4 - a.toNat % 4)) hwf
  rw [hlength] at houtside
  obtain ⟨m, p, hframe, -⟩ := s.storeBytes_frame a ((bytesOfWord (sdtStoreValue o s)).take (4 - a.toNat % 4))
  rw [hframe] at hexec hholds houtside
  obtain ⟨htaken, ⟨-, -, -, hcoprocs, hdraws⟩, hinputs⟩ := State.dataAbort_spec { s with mem := m, pipe := p }
  have hmem : KeepsMemory { s with mem := m, pipe := p } (({ s with mem := m, pipe := p } : State).enter .dataAbort (s.pc + 2)) :=
    KeepsMemory.of_eq rfl rfl rfl
  exact ⟨_, hexec, htaken, fun k hk => (hholds k hk).after hmem, houtside.after hmem, hinputs, hcoprocs, hdraws⟩

end

/-- Settles O42: both offset forms are the same transfers, and an abort of the first cycle leaves the state for the entry. -/
theorem transferAborts : Obligations.TransferAborts := by
  intro s
  refine ⟨fun o hc => ?immediate, fun o hc => ?register⟩
  case immediate =>
    exact ⟨loadWord_abortsWhole o _ s hc, loadByte_abortsWhole o _ s hc,
      fun hne => ⟨storeWord_abortsWhole o _ s hc hne, storeByteOf_abortsWhole o _ s hc hne⟩⟩
  case register =>
    exact ⟨loadWord_abortsWhole o _ s hc, loadByte_abortsWhole o _ s hc,
      fun hne => ⟨storeWord_abortsWhole o _ s hc hne, storeByteOf_abortsWhole o _ s hc hne⟩⟩

/-- Settles O43: both offset forms are the one word store. -/
theorem secondStoreCycleAborts : Obligations.SecondStoreCycleAborts := by
  intro s hwf
  exact ⟨fun o hc hne hun hfirst hsecond => storeWord_secondAborted o _ s hwf hc hne hun hfirst hsecond,
    fun o hc hne hun hfirst hsecond => storeWord_secondAborted o _ s hwf hc hne hun hfirst hsecond⟩

end Sys2Proof.Machine
end

section
/-! LDC and STC of which an access aborts (R355), and where the coprocessor instructions stop (R343, R352, R74). -/

namespace Sys2Proof.Machine

/-! ### The accesses of an aborted transfer -/

/-- An aligned read that aborts leaves no word in its place (R354). -/
theorem none_mem_readWords (s : State) (forced : Bool) (first : Word) (hal : first.toNat % 4 = 0) (n : Nat) :
    ∀ i j, j < n → s.aborted (s.dataCycle .read false forced (wordAddr first (i + j))) = true →
      none ∈ readWords s forced first i n := by
  induction n with
  | zero => exact fun _ j hj _ => absurd hj (Nat.not_lt_zero j)
  | succ n ih =>
    intro i j hj hab
    cases j with
    | zero =>
      have hhead : s.readWord forced (wordAddr first i) = none := by
        rw [s.readWord_aligned _ _ (wordAddr_aligned _ _ hal)]
        exact if_pos hab
      rw [readWords, hhead]
      exact List.mem_cons_self
    | succ j =>
      rw [Nat.add_comm j 1, ← Nat.add_assoc] at hab
      exact List.mem_cons_of_mem _ (ih (i + 1) j (Nat.lt_of_succ_lt_succ hj) hab)

/-- Aligned writes abort together when one of them does (R354, R355). -/
theorem State.writeWords_aborted_of_cycle (forced : Bool) (first : Word) (hal : first.toNat % 4 = 0) (vs : List Word) :
    ∀ (s : State) (i j : Nat), j < vs.length → s.aborted (s.dataCycle .write false forced (wordAddr first (i + j))) = true →
      (s.writeWords forced first i vs).aborted = true := by
  induction vs with
  | nil => exact fun _ _ j hj _ => absurd hj (Nat.not_lt_zero j)
  | cons v vs ih =>
    intro s i j hj hab
    rw [State.writeWords, Bool.or_eq_true]
    cases j with
    | zero =>
      left
      rw [Nat.add_zero] at hab
      rw [s.writeWord_aligned _ _ _ (wordAddr_aligned _ _ hal), if_pos hab]
    | succ j =>
      right
      obtain ⟨m, p, hframe, -⟩ := s.writeWord_frame forced (wordAddr first i) v
      rw [Nat.add_comm j 1, ← Nat.add_assoc] at hab
      refine ih _ (i + 1) j (Nat.lt_of_succ_lt_succ hj) ?_
      rw [hframe]
      exact hab

/-- Words written from `first` on leave every byte outside them as it was. -/
theorem State.writeWords_keepsOutside (s : State) (forced : Bool) (first : Word) (vs : List Word) (hwf : s.mem.wf = true) :
    KeepsMemoryOutside first (4 * vs.length) s (s.writeWords forced first 0 vs).state := fun x hx =>
  s.writeWords_outside forced first 0 vs x hwf fun j k hj hk => by
    rw [Nat.zero_add, wordAddr_add]
    exact hx (4 * j + k) (by omega)

/-! ### The entry after the base write-back -/

/-- What an aborted LDC or STC ends in: the base written back in the old mode, then the data abort (R355, R410). -/
def abortCdt (o : Cdt) (a : SdtAddr) (u : State) (ret : PcWord) : State := (cdtWriteBack o a u).enter .dataAbort ret

theorem abortCdt_eq (o : Cdt) (a : SdtAddr) (u : State) (ret : PcWord) : abortCdt o a u ret =
    ({ u with regs := u.regs.writeIf a.wb u.psr.mode o.rn a.modified } : State).enter .dataAbort ret := by
  rw [abortCdt, cdtWriteBack_eq]

section
variable (o : Cdt) (a : SdtAddr) {s u : State} (ret : PcWord) (hregs : u.regs = s.regs) (hpsr : u.psr = s.psr)
include hregs hpsr

theorem abortCdt_base (hwb : a.wb = true) (hrn : o.rn ≠ 15) (hlink : phys s.psr.mode o.rn ≠ some (.svc 1)) :
    (abortCdt o a u ret).regs.read s.psr.mode o.rn = a.modified := by
  rw [abortCdt_eq, State.enter_read _ .dataAbort _ _ _ hlink, hregs, hpsr]
  exact Regs.read_writeIf_same _ _ _ hwb hrn

theorem abortCdt_other (p : PhysReg) (hlink : p ≠ .svc 1) (hbase : a.wb = true → phys s.psr.mode o.rn ≠ some p) :
    (abortCdt o a u ret).regs.get p = s.regs.get p := by
  rw [abortCdt_eq, State.enter_other _ .dataAbort _ _ hlink, hregs, hpsr]
  exact Regs.get_writeIf_other _ _ _ _ _ _ hbase

end

section
variable (o : Cdt) (a : SdtAddr) (u : State) (ret : PcWord)

theorem abortCdt_link : (abortCdt o a u ret).regs.get (.svc 1) = u.psr.r15 ret := by
  rw [abortCdt_eq]
  exact State.enter_link _ .dataAbort ret (by decide)

theorem abortCdt_psr : (abortCdt o a u ret).psr = { u.psr with i := true, mode := .svc } := by
  rw [abortCdt_eq]
  exact u.psr.enter_dataAbort

/-- Besides registers and PSR the entry writes the PC, the prefetch and the window. -/
theorem abortCdt_frame : (abortCdt o a u ret).pc = 4 ∧ (abortCdt o a u ret).pipe = Pipeline.fresh ∧
    (abortCdt o a u ret).hazard = .clear ∧ KeepsInputs u (abortCdt o a u ret) ∧ (abortCdt o a u ret).coprocs = u.coprocs ∧
    KeepsMemory u (abortCdt o a u ret) := by
  rw [abortCdt_eq]
  exact ⟨rfl, rfl, rfl, ⟨rfl, rfl, rfl, rfl, rfl, rfl⟩, rfl, KeepsMemory.of_eq rfl rfl rfl⟩

end

section
variable {s : State} {o : Cdt} {cp : Coproc} {n : Nat}

theorem exec_ldc_of_abort (hc : condPassed o.cond s.psr = true) (hacc : AcceptedBy s o.cpNum (.ldc o) cp n)
    (hwb : (cdtAddr s o).wb = true → o.rn ≠ 15) (ha : field (cdtAddr s o).addr 0 2 = 0) {j : Nat} (hj : j < n)
    (hab : s.aborted (s.dataCycle .read false (forcedTran o.p o.w) (wordAddr (cdtAddr s o).addr j)) = true) :
    exec (.ldc o) s = .next (abortCdt o (cdtAddr s o) s (s.pc + 2)) := by
  have hnone := none_mem_readWords s (forcedTran o.p o.w) _ ((field_two_eq_zero _).1 ha) n 0 j hj (by rwa [Nat.zero_add])
  refine (whenAccepted_accepted _ hc hacc).trans ?_
  simp only [cdtRefusal_eq_none s o hwb ha]
  exact if_pos (List.contains_iff_mem.2 hnone)

theorem exec_stc_of_abort (hc : condPassed o.cond s.psr = true) (hacc : AcceptedBy s o.cpNum (.stc o) cp n)
    (hwb : (cdtAddr s o).wb = true → o.rn ≠ 15) (ha : field (cdtAddr s o).addr 0 2 = 0) {j : Nat} (hj : j < n)
    (hab : s.aborted (s.dataCycle .write false (forcedTran o.p o.w) (wordAddr (cdtAddr s o).addr j)) = true) :
    exec (.stc o) s = .next (abortCdt o (cdtAddr s o)
      ((s.drawn n).writeWords (forcedTran o.p o.w) (cdtAddr s o).addr 0 (supplied s cp n)).state (s.pc + 2)) := by
  have haborted := State.writeWords_aborted_of_cycle (forcedTran o.p o.w) _ ((field_two_eq_zero _).1 ha) (supplied s cp n)
    (s.drawn n) 0 j (by rwa [supplied_length]) (by rwa [Nat.zero_add])
  refine (whenAccepted_accepted _ hc hacc).trans ?_
  simp only [cdtRefusal_eq_none s o hwb ha]
  exact if_pos haborted

end

/-- Settles O59: after the words, of which an STC may have written some, comes the one end of both instructions. -/
theorem coprocessorTransferAborts : Obligations.CoprocessorTransferAborts := by
  intro s cp n j o i kind hrow hc hacc a hwb ha hj hab
  obtain ⟨rfl, rfl⟩ | ⟨rfl, rfl⟩ := hrow
  case inl =>
    obtain ⟨hpc, hpipe, hhazard, hinputs, hcoprocs, hmem⟩ := abortCdt_frame o a s (s.pc + 2)
    exact ⟨_, exec_ldc_of_abort hc hacc hwb ha hj hab, fun h => abortCdt_base o a _ rfl rfl h (hwb h),
      abortCdt_other o a _ rfl rfl,
      abortCdt_link .., abortCdt_psr .., hpc, hpipe, hhazard, hinputs, hcoprocs, fun _ => hmem, nofun⟩
  case inr =>
    have hexec := exec_stc_of_abort hc hacc hwb ha hj hab
    have houtside := (s.drawn n).writeWords_keepsOutside (forcedTran o.p o.w) a.addr (supplied s cp n)
    rw [supplied_length] at houtside
    generalize hwritten : ((s.drawn n).writeWords (forcedTran o.p o.w) a.addr 0 (supplied s cp n)).state = u at *
    obtain ⟨m, p, hframe, -⟩ := (s.drawn n).writeWords_frame (forcedTran o.p o.w) a.addr 0 (supplied s cp n)
    obtain rfl := hwritten.symm.trans hframe
    obtain ⟨hpc, hpipe, hhazard, hinputs, hcoprocs, hmem⟩ := abortCdt_frame o a { s.drawn n with mem := m, pipe := p } (s.pc + 2)
    exact ⟨_, hexec, fun h => abortCdt_base o a _ rfl rfl h (hwb h), abortCdt_other o a _ rfl rfl, abortCdt_link ..,
      abortCdt_psr .., hpc, hpipe, hhazard, hinputs, hcoprocs, nofun, fun _ hwf => (houtside hwf).after hmem⟩

/-! ### The stops -/

/-- A coprocessor that accepts and is never ready keeps the instruction waiting (R343). -/
theorem whenAccepted_busy {c : Cond} {s : State} {cpNum : BitVec 4} {w : Word} {cp : Coproc} {n : Nat} (k : Coproc → Nat → Result)
    (hc : condPassed c s.psr = true) (hoffer : offer s cpNum w = .accepted cp n) (hbusy : cp.busy = true) :
    whenAccepted c s cpNum w k = .fault .coprocessorNeverReady := by
  simp [whenAccepted, ifPassed_true _ _ _ hc, hoffer, hbusy]

theorem cdtAddr_wb (s : State) (o : Cdt) : (cdtAddr s o).wb = (!o.p || o.w) := rfl

theorem cdtRefusal_of_baseR15 (s : State) (o : Cdt) (hrn : o.rn = 15) (hwb : o.p = false ∨ o.w = true) :
    cdtRefusal s o = some .coprocessorBaseR15WriteBack := by
  have hbase : (cdtAddr s o).wb = true := by rw [cdtAddr_wb]; obtain h | h := hwb <;> simp [h]
  rw [cdtRefusal, if_pos ⟨hrn, hbase⟩]

theorem cdtRefusal_of_unaligned (s : State) (o : Cdt) (hwb : o.rn = 15 → o.p = true ∧ o.w = false)
    (ha : (cdtAddr s o).addr.toNat % 4 ≠ 0) : cdtRefusal s o = some .unalignedBlock := by
  have hbase : ¬ (o.rn = 15 ∧ (cdtAddr s o).wb = true) := fun ⟨hrn, h⟩ => by
    obtain ⟨hp, hw⟩ := hwb hrn
    simp [cdtAddr_wb, hp, hw] at h
  rw [cdtRefusal, if_neg hbase, aligned_eq, decide_eq_false ha, if_neg Bool.false_ne_true]

theorem exec_cdt_refused {s : State} {o : Cdt} {i : Instr} {cp : Coproc} {n : Nat} {r : Refusal} (hi : i = .ldc o ∨ i = .stc o)
    (hc : condPassed o.cond s.psr = true) (hacc : AcceptedBy s o.cpNum i cp n) (hr : cdtRefusal s o = some r) :
    exec i s = .refused r := by
  obtain rfl | rfl := hi
  · refine (whenAccepted_accepted _ hc hacc).trans ?_
    simp only [hr]
  · refine (whenAccepted_accepted _ hc hacc).trans ?_
    simp only [hr]

/-- Settles O60: the wait of the offer, and the two refusals before any cycle. -/
theorem coprocessorStops : Obligations.CoprocessorStops := by
  intro s cp n
  refine ⟨fun i cpNum hnames hc hoffer hbusy => ?busy, fun o i hi hc hacc => ⟨fun hrn hwb => ?baseR15, fun hwb ha => ?unaligned⟩⟩
  case busy =>
    obtain ⟨k, hexec⟩ := exec_eq_whenAccepted s hnames
    exact hexec.trans (whenAccepted_busy k hc hoffer hbusy)
  case baseR15 => exact exec_cdt_refused hi hc hacc (cdtRefusal_of_baseR15 s o hrn hwb)
  case unaligned => exact exec_cdt_refused hi hc hacc (cdtRefusal_of_unaligned s o hwb ha)

end Sys2Proof.Machine
end

section
/-! The return sequences (R430): the word an entry saves, one or two words back, written into the PC and the PSR. -/

namespace Sys2Proof.Machine

/-! ### The saved word -/

/-- Away from User mode a PSR write of R15 gives the PSR it holds (R27, R36). -/
theorem Psr.write_r15 (p q : Psr) (pc : PcWord) (hmode : p.mode ≠ .user) : p.write (q.r15 pc) = q := by
  obtain ⟨hn, hz, hc, hv, hi, hf⟩ := q.bitAt_r15 pc
  rw [Psr.write_nonUser _ _ hmode, Psr.writeFlags, hn, hz, hc, hv, hi, hf, Psr.field_r15_mode, Mode.ofBits_bits]

theorem toNat_append_eq_add {m n : Nat} (x : BitVec m) (y : BitVec n) : (x ++ y).toNat = x.toNat * 2 ^ n + y.toNat := by
  rw [BitVec.toNat_append, ← Nat.shiftLeft_add_eq_or_of_lt y.isLt, Nat.shiftLeft_eq]

/-- A difference that stays within the PC field does not reach the status bits (R430). -/
theorem Psr.r15_sub (p : Psr) (pc k : PcWord) (hk : k.toNat ≤ pc.toNat) :
    p.r15 pc - BitVec.ofNat 32 (4 * k.toNat) = p.r15 (pc - k) := by
  apply BitVec.eq_of_toNat_eq
  have hpc := pc.isLt
  have hmode := p.mode.bits.isLt
  have hword := (p.r15 pc).isLt
  have hdiff : (pc - k).toNat = pc.toNat - k.toNat := by rw [BitVec.toNat_sub_of_le hk]
  rw [BitVec.toNat_sub]
  simp only [Psr.r15, toNat_append_eq_add _ p.mode.bits, toNat_append_eq_add _ (pc - k), toNat_append_eq_add _ pc, hdiff,
    BitVec.toNat_ofNat] at hword ⊢
  omega

/-! ### The return -/

/-- The R14 of the mode entered reads as the saved word. -/
theorem State.enter_x_link (s : State) {e : Trap} (ret : PcWord) (he : e ≠ .reset) : (s.enter e ret).x 14 = s.psr.r15 ret := by
  rw [State.x, State.enter_psr, Psr.enter_mode, Regs.read, phys_link]
  exact s.enter_link e ret he

theorem Trap.mode_ne_user (e : Trap) : e.mode ≠ .user := by cases e <;> decide

/-- The machine goes on at `ret` with the whole old PSR, and every register but the R14 of the mode entered is as before the entry. -/
def Returns (s : State) (e : Trap) (ret : PcWord) (r : Result) : Prop :=
  ∃ u, r = .next u ∧ u.pc = ret ∧ u.psr = s.psr ∧ ∀ p, p ≠ linkReg e.mode → u.regs.get p = s.regs.get p

/-- A result that is R15 as it was before the entry, written into R15 with the PSR, returns. -/
theorem returns_of_value (s : State) (e : Trap) (saved ret : PcWord) (r : AluOut) (h : r.value = s.psr.r15 ret) :
    Returns s e ret (.next ((s.enter e saved).writeResult true 15 r)) := by
  obtain ⟨hpc, hpsr, -, hregs, -⟩ := (s.enter e saved).writeResult_r15 true r
  rw [h] at hpc hpsr
  rw [if_pos rfl, Psr.write_r15 _ _ _ e.mode_ne_user] at hpsr
  exact ⟨_, rfl, hpc.trans (s.psr.field_r15_pc ret), hpsr, fun p hp => hregs ▸ s.enter_other e saved p hp⟩

/-! ### The three return instructions -/

theorem exec_movsPcLink (t : State) :
    ∃ r, exec (decodeWord 0xE1B0F00E) t = .next (t.writeResult true 15 r) ∧ r.value = t.x 14 := ⟨_, rfl, rfl⟩

theorem aluSub_value (p : Psr) (a b : Word) (c : Bool) : (aluSub p a b c).value = a - b := by
  rw [aluSub_eq]
  exact BitVec.sub_zero _

theorem exec_subsPcLink (t : State) :
    (∃ r, exec (decodeWord 0xE25EF004) t = .next (t.writeResult true 15 r) ∧ r.value = t.x 14 - 4) ∧
      (∃ r, exec (decodeWord 0xE25EF008) t = .next (t.writeResult true 15 r) ∧ r.value = t.x 14 - 8) :=
  ⟨⟨_, rfl, aluSub_value t.psr (t.x 14) 4 t.psr.c⟩, ⟨_, rfl, aluSub_value t.psr (t.x 14) 8 t.psr.c⟩⟩

theorem movs_returns (s : State) {e : Trap} (ret : PcWord) (he : e ≠ .reset) :
    Returns s e ret (exec (decodeWord 0xE1B0F00E) (s.enter e ret)) := by
  obtain ⟨r, hexec, hvalue⟩ := exec_movsPcLink (s.enter e ret)
  rw [hexec]
  exact returns_of_value s e ret ret r (hvalue.trans (s.enter_x_link ret he))

theorem subs4_returns (s : State) {e : Trap} (saved : PcWord) (he : e ≠ .reset) (hsaved : 1 ≤ saved.toNat) :
    Returns s e (saved - 1) (exec (decodeWord 0xE25EF004) (s.enter e saved)) := by
  obtain ⟨⟨r, hexec, hvalue⟩, -⟩ := exec_subsPcLink (s.enter e saved)
  rw [s.enter_x_link saved he] at hvalue
  rw [hexec]
  exact returns_of_value s e saved _ r (hvalue.trans (s.psr.r15_sub saved 1 hsaved))

theorem subs8_returns (s : State) {e : Trap} (saved : PcWord) (he : e ≠ .reset) (hsaved : 2 ≤ saved.toNat) :
    Returns s e (saved - 2) (exec (decodeWord 0xE25EF008) (s.enter e saved)) := by
  obtain ⟨-, ⟨r, hexec, hvalue⟩⟩ := exec_subsPcLink (s.enter e saved)
  rw [s.enter_x_link saved he] at hvalue
  rw [hexec]
  exact returns_of_value s e saved _ r (hvalue.trans (s.psr.r15_sub saved 2 hsaved))

/-- Settles O53: each sequence by the word it takes back from the one saved. -/
theorem returnsUndoEntries : Obligations.ReturnsUndoEntries := by
  intro s
  refine ⟨fun e he => ?trap, fun e he hsaved => ?request, fun hsaved => ?dataAbort⟩
  case trap =>
    have hreset : e ≠ .reset := by obtain rfl | rfl := he <;> decide
    exact movs_returns s (s.pc + 1) hreset
  case request =>
    have hreset : e ≠ .reset := by obtain rfl | rfl | rfl := he <;> decide
    have hreturns := subs4_returns s (s.pc + 1) hreset hsaved
    rwa [BitVec.add_sub_cancel] at hreturns
  case dataAbort =>
    have hreturns := subs8_returns s (e := .dataAbort) (s.pc + 2) (by decide) hsaved
    rwa [BitVec.add_sub_cancel] at hreturns

end Sys2Proof.Machine
end
